-- ==== Sys2Proof/Word.lean ====
section
/-! DEFINITION. The byte of the wire (30_encoding.md R90) and the two bytes every layer names: CR and BEL. -/

namespace Sys2Proof

/-- A byte of a line, of a payload or of a reply (00_scope.md R11). -/
abbrev Byte := BitVec 8

/-- CR, the terminator of a line and the ACK byte (30_encoding.md R90, R98). -/
def cr : Byte := 0x0D#8

/-- BEL, the NACK byte (30_encoding.md R90, R98). -/
def bel : Byte := 0x07#8

end Sys2Proof
end

