-- ==== Sys2Proof/Syntax.lean ====
section
/-! DEFINITION. The instructions: one constructor per row of spec/opcode_table.json, with the operand types they
carry and the frame type of 10_state.md R30. An instruction is one line, CR excluded (92_eei_decisions.md D28). -/

namespace Sys2Proof

/-- A CanFrame (10_state.md R30), seven fields. `data` holds the payload bytes that carry meaning, `data[0]` first:
the rest of the 64-byte buffer is unspecified and read by no rule (R33), so none of it is held (log 10). -/
structure CanFrame where
  id   : BitVec 29
  ext  : Bool
  rtr  : Bool
  fd   : Bool
  brs  : Bool
  dlc  : BitVec 4
  data : List Byte
deriving DecidableEq, Repr, Inhabited

/-- The operands of a transmit command or of an output form: what its line holds beside the command character
(30_encoding.md R95 to R97). The four tags of the frame are fixed by the constructor. -/
structure FrameOps where
  id   : BitVec 29
  dlc  : BitVec 4
  data : List Byte
deriving DecidableEq, Repr, Inhabited

/-- The causes of a NACK, with the labels of 60_exceptions.md R271. The wire does not carry them. -/
inductive NackCause where
  /-- E-ARG: argument of `S`, `Y`, `Z` outside its set or absent. -/
  | arg
  /-- E-IDHEX: a character of the ID field is not a hex digit or is absent. -/
  | idHex
  /-- E-IDRANGE: the parsed ID is above its limit. -/
  | idRange
  /-- E-DLC: the DLC character is outside the table or absent. -/
  | dlc
  /-- E-DLC8: DLC character `9` to `F` on a classic frame. -/
  | dlc8
  /-- E-DATAHEX: a character of the data field is not a hex digit or is absent. -/
  | dataHex
  /-- E-STUB: a stub command, the empty line or an unknown first byte. -/
  | stub
deriving DecidableEq, Repr

/-- An operand as the decoder finds it: well formed, or malformed for a cause. Every line is accepted
(30_encoding.md R109), so a malformed operand is part of the instruction, whose rule then raises NACK. -/
inductive Arg (α : Type) where
  | ok (a : α)
  | bad (why : NackCause)
deriving DecidableEq, Repr

/-- The four arguments of `Y`, in Mbit/s (30_encoding.md R107). -/
inductive FdRate where
  | m2 | m4 | m5 | m8
deriving DecidableEq, Repr

/-- The commands (input lines) and the output forms (lines the block writes for received frames). -/
inductive Instr where
  /-- `O`, open channel (normal): R130. -/
  | openChannel
  /-- `C`, close channel: R131. -/
  | closeChannel
  /-- `S`, set standard bit-rate index: R132. -/
  | setBitrate (arg : Arg (Fin 9))
  /-- `Y`, set FD data bit rate: R133. -/
  | setDataRate (arg : Arg FdRate)
  /-- `Z`, timestamp on (`true`) or off: R134. -/
  | setTimestamp (arg : Arg Bool)
  /-- `t`, transmit standard data frame: R141. -/
  | txStdData (op : Arg FrameOps)
  /-- `T`, transmit extended data frame: R142. -/
  | txExtData (op : Arg FrameOps)
  /-- `r`, transmit standard remote frame: R143. -/
  | txStdRemote (op : Arg FrameOps)
  /-- `R`, transmit extended remote frame: R144. -/
  | txExtRemote (op : Arg FrameOps)
  /-- `d`, transmit standard CAN-FD frame, no bit-rate switch: R145. -/
  | txStdFd (op : Arg FrameOps)
  /-- `D`, transmit extended CAN-FD frame, no bit-rate switch: R146. -/
  | txExtFd (op : Arg FrameOps)
  /-- `b`, transmit standard CAN-FD frame, bit-rate switch: R147. -/
  | txStdFdBrs (op : Arg FrameOps)
  /-- `B`, transmit extended CAN-FD frame, bit-rate switch: R148. -/
  | txExtFdBrs (op : Arg FrameOps)
  /-- `V`, query software version: R160. -/
  | querySoftware
  /-- `v`, query hardware version: R161. -/
  | queryHardware
  /-- `N`, query serial number: R162. -/
  | querySerial
  /-- `F`, query status flags: R163. -/
  | queryStatus
  /-- `L`, stub: R165. -/
  | stubL
  /-- `A`, stub: R166. -/
  | stubA
  /-- `P`, stub: R167. -/
  | stubP
  /-- `U`, stub: R168. -/
  | stubU
  /-- `s` (lowercase), stub: R169. -/
  | stubLowerS
  /-- `W`, stub: R170. -/
  | stubW
  /-- `M`, stub: R171. -/
  | stubM
  /-- `m` (lowercase), stub: R172. -/
  | stubLowerM
  /-- `X`, stub: R173. -/
  | stubX
  /-- `Q`, stub: R174. -/
  | stubQ
  /-- The empty line, bare CR: R175. -/
  | emptyLine
  /-- A line whose first byte no other row names: R176. -/
  | otherLine (first : Byte)
  /-- Output form `t`, received standard data frame: R182. -/
  | rxStdData (op : FrameOps)
  /-- Output form `T`, received extended data frame: R183. -/
  | rxExtData (op : FrameOps)
  /-- Output form `r`, received standard remote frame: R184. -/
  | rxStdRemote (op : FrameOps)
  /-- Output form `R`, received extended remote frame: R185. -/
  | rxExtRemote (op : FrameOps)
  /-- Output form `d`, received standard CAN-FD frame, no bit-rate switch: R186. -/
  | rxStdFd (op : FrameOps)
  /-- Output form `D`, received extended CAN-FD frame, no bit-rate switch: R187. -/
  | rxExtFd (op : FrameOps)
  /-- Output form `b`, received standard CAN-FD frame, bit-rate switch: R188. -/
  | rxStdFdBrs (op : FrameOps)
  /-- Output form `B`, received extended CAN-FD frame, bit-rate switch: R189. -/
  | rxExtFdBrs (op : FrameOps)
deriving DecidableEq, Repr

/-- The frame that operands stand for under the four tags of a command or output form. -/
def FrameOps.toFrame (o : FrameOps) (ext rtr fd brs : Bool) : CanFrame :=
  { id := o.id, ext := ext, rtr := rtr, fd := fd, brs := brs, dlc := o.dlc, data := o.data }

/-- The operands of a frame: what an output line holds beside its leading character. -/
def CanFrame.ops (f : CanFrame) : FrameOps := { id := f.id, dlc := f.dlc, data := f.data }

end Sys2Proof
end

