-- ==== Sys2Proof/Config.lean ====
section
/-! DEFINITION. The OPEN parameters of 00_scope.md R10 (constants with no body: nothing can be proved of their value
beyond the bound the spec gives). The parameters the spec decides are in Machine/Params.lean. -/

namespace Sys2Proof.Config

/-- `N_CH` less one. -/
opaque nChLessOne : Fin 4

/-- `N_CH`, the number of channels, 1 to 4 (00_scope.md R10; D2). -/
def nCh : Nat := nChLessOne.val + 1

/-- `N_DED`, the number of dedicated receive buffers per channel (R10; D3). -/
opaque nDed : Nat

/-- `N_SLOTS` = 2 + `N_DED` (R10; 10_state.md R36). -/
def nSlots : Nat := nDed + 2

/-- `LINE_MAX` less 138. -/
opaque lineMaxSpare : Nat

/-- `LINE_MAX`, the capacity of the line buffer, at least 138 (R10; 30_encoding.md R113; D20). -/
def lineMax : Nat := lineMaxSpare + 138

/-- `TS_WIDTH` less 16. -/
opaque tsWidthSpare : Nat

/-- `TS_WIDTH`, the width of the timestamp counter, at least 16 (R10; 10_state.md R28; D17). -/
def tsWidth : Nat := tsWidthSpare + 16

/-- `TS_RESET` of each channel (R10; 10_state.md R42: unspecified; D16). DESIGN CHOICE, log 7. -/
opaque tsReset : Nat → BitVec tsWidth

/-- `FD_RATE_RESET` of each channel (R10; 10_state.md R42: unspecified; D16). DESIGN CHOICE, log 7. -/
opaque fdRateReset : Nat → BitVec 32

/-- The frame slot i of channel c holds at reset (10_state.md R42: unspecified). DESIGN CHOICE, log 7. -/
opaque slotFrameReset : Nat → Nat → CanFrame

/-- `IRQ_PRIORITY`, the fixed priority passed to `IrqEnable` (R10; 60_exceptions.md R279). -/
opaque irqPriority : Nat

/-- `TICK_PERIOD` (R10; D17). No rule depends on it. -/
opaque tickPeriod : Nat

/-- `READ_TIMEOUT_MS` (R10; D21). Recorded; no rule depends on it. -/
def readTimeoutMs : Nat := 1000

end Sys2Proof.Config
end

