-- ==== Sys2Proof/Machine/Params.lean ====
section
/-! DEFINITION. The parameters of 00_scope.md R10 that the spec decides, at the value of R10's last column. The rules
that read them are written with every alternative the spec names. `TRAILING` is fixed to `ignore` in the decoder
(30_encoding.md R110, log 17), `SLOT_MAP` and `CH_ORDER` in Ops.lean and Bridge.lean (log 28). -/

namespace Sys2Proof.Machine

/-- What the decoder does with a parsed ID above its limit (41_transmit_commands.md R140 step 3). -/
inductive IdOverrange where
  | nack | mask
deriving DecidableEq, Repr

/-- What the decoder does with DLC character `9` to `F` on a classic frame (R140 step 5). -/
inductive ClassicDlcGt8 where
  | nack | accept
deriving DecidableEq, Repr

/-- What `S` and `Y` do on an open channel (44_channel_state_machine.md R203). -/
inductive RateSetWhileOpen where
  | store | ignore
deriving DecidableEq, Repr

/-- The replies a stub command may have (42_query_stub_commands.md R164). -/
inductive StubReply where
  | nack
  | ack
  | text (s : List Byte)
deriving DecidableEq, Repr

/-- `HEX_LOWER_OK`: `a` to `f` are hex digits in ID and data fields (D4; log 14). -/
def hexLowerOk : Bool := true

/-- `ID_OVERRANGE` (D5; log 15). -/
def idOverrange : IdOverrange := .nack

/-- `CLASSIC_DLC_GT8` (D6; log 16). -/
def classicDlcGt8 : ClassicDlcGt8 := .nack

/-- `RATE_SET_WHILE_OPEN` (D12, 90_conflicts.md C1; log 19). -/
def rateSetWhileOpen : RateSetWhileOpen := .store

/-- `ACK_AFTER_SEND` (D30, 90_conflicts.md C3; log 22). -/
def ackAfterSend : Bool := false

/-- `STUB_REPLY(b)` for the first byte b, `none` for the empty line (D11; log 18). -/
def stubReply (_first : Option Byte) : StubReply := .nack

end Sys2Proof.Machine
end

