-- ==== Sys2Proof/Machine/Operands.lean ====
section
/-! DEFINITION. The codec primitives of 30_encoding.md: reading a character of a line, hex digits and fields, the DLC
table, payload assembly, the two rate tables, and the line of a frame. -/

namespace Sys2Proof.Machine

/-- `at(line, k)` (00_scope.md R12): the byte at index k, `none` past the end. -/
def lineAt (ln : List Byte) (k : Nat) : Option Byte := ln[k]?

/-- A line of n bytes fits the line buffer: n is at most `LINE_MAX` (30_encoding.md R113). Written on what n has beyond
138, so that it evaluates for every n up to 138 though `LINE_MAX` is open; `fitsLine_iff` says it plainly. -/
def fitsLine (n : Nat) : Bool := decide (n - 138 ≤ Config.lineMaxSpare)

theorem fitsLine_iff (n : Nat) : fitsLine n = true ↔ n ≤ Config.lineMax := by
  simp [fitsLine, Config.lineMax]

/-- The value of a byte as a decimal or uppercase hex digit, 16 if it is none (30_encoding.md R99, R101). -/
def upperHexval (x : Byte) : Nat :=
  if 0x30 ≤ x.toNat ∧ x.toNat ≤ 0x39 then x.toNat - 0x30
  else if 0x41 ≤ x.toNat ∧ x.toNat ≤ 0x46 then x.toNat - 0x41 + 10
  else 16

/-- `hexval(x)` (30_encoding.md R99): 0 to 15, or 16 for "not a hex digit", `none` included. -/
def hexval : Option Byte → Nat
  | none => 16
  | some x =>
    if hexLowerOk ∧ 0x61 ≤ x.toNat ∧ x.toNat ≤ 0x66 then x.toNat - 0x61 + 10 else upperHexval x

/-- The nibble-at-a-time accumulator of 30_encoding.md R100, from offset `off` with n digits to go. -/
def hexfieldFrom (line : List Byte) : Nat → Nat → Nat → Option Nat
  | _, 0, acc => some acc
  | off, n + 1, acc =>
    if 16 ≤ hexval (lineAt line off) then none
    else hexfieldFrom line (off + 1) n (acc * 16 + hexval (lineAt line off))

/-- `hexfield(line, off, n)` (30_encoding.md R100); `none` is FAIL. -/
def hexfield (line : List Byte) (off n : Nat) : Option Nat := hexfieldFrom line off n 0

/-- `DLC_LEN[0..15]` (10_state.md R31, 30_encoding.md R103): the byte count of a DLC code. -/
def dlcLen (d : BitVec 4) : Nat :=
  [0, 1, 2, 3, 4, 5, 6, 7, 8, 12, 16, 20, 24, 32, 48, 64].getD d.toNat 0

/-- `DLCcode(x)` (30_encoding.md R101): the code of a DLC character, `hexval` restricted to uppercase. -/
def dlcCode : Option Byte → Option (BitVec 4)
  | none => none
  | some x => if upperHexval x < 16 then some (BitVec.ofNat 4 (upperHexval x)) else none

/-- `DecodeDLC(x)` (30_encoding.md R101): the byte count of a DLC character, or the error sentinel 0xFF. -/
def decodeDlc (x : Option Byte) : Nat :=
  match dlcCode x with
  | none => 0xFF
  | some d => dlcLen d

/-- The character of a hex digit 0 to 15, uppercase (30_encoding.md R105). -/
def hexDigit (v : Nat) : Byte := if v < 10 then BitVec.ofNat 8 (0x30 + v) else BitVec.ofNat 8 (0x41 + (v - 10))

/-- `EncodeDLC(n)` (30_encoding.md R102): the character whose byte count is n; `none` for any other n
(93_implementation_defined.md U14). -/
def encodeDlc (n : Nat) : Option Byte :=
  ((List.range 16).find? (fun d => dlcLen (BitVec.ofNat 4 d) == n)).map hexDigit

/-- `HEX(n, v)` (30_encoding.md R105): the n least significant hex digits of v, most significant first. -/
def hexStr : Nat → Nat → List Byte
  | 0, _ => []
  | n + 1, v => hexDigit ((v >>> (4 * n)) % 16) :: hexStr n v

/-- The payload of a transmit command (30_encoding.md R104): n bytes from offset p, two characters each, high nibble
first; `none` when a character is not a hex digit or is absent. -/
def payloadAt (line : List Byte) : Nat → Nat → Option (List Byte)
  | _, 0 => some []
  | p, n + 1 =>
    if 16 ≤ hexval (lineAt line p) ∨ 16 ≤ hexval (lineAt line (p + 1)) then none
    else
      (payloadAt line (p + 2) n).map
        (fun rest => BitVec.ofNat 8 (hexval (lineAt line p) * 16 + hexval (lineAt line (p + 1))) :: rest)

/-- `BAUD[0..8]` in bits per second (30_encoding.md R106). -/
def baudTable : List (BitVec 32) :=
  [10000#32, 20000#32, 50000#32, 100000#32, 125000#32, 250000#32, 500000#32, 800000#32, 1000000#32]

/-- `BAUD[k]` (30_encoding.md R106). -/
def baud (k : Fin 9) : BitVec 32 := baudTable.getD k.val 0#32

/-- `FDRATE(a)` in bits per second (30_encoding.md R107). -/
def fdRate : FdRate → BitVec 32
  | .m2 => 2000000#32
  | .m4 => 4000000#32
  | .m5 => 5000000#32
  | .m8 => 8000000#32

/-- `flen(f)` (10_state.md R33): the effective payload length. -/
def flen (f : CanFrame) : Nat := if f.rtr then 0 else dlcLen f.dlc

/-- The limit of a parsed ID (41_transmit_commands.md R140 step 2). -/
def idMax (ext : Bool) : Nat := if ext then 0x1FFFFFFF else 0x7FF

/-- The number of hex digits of an ID field (30_encoding.md R95, R96). -/
def idDigits (ext : Bool) : Nat := if ext then 8 else 3

/-- A frame is well formed (10_state.md R32, W1 to W4). That an extended ID is below 2^29 is its field's width. -/
def frameWf (f : CanFrame) : Bool :=
  (f.ext || decide (f.id.toNat ≤ idMax false)) && !(f.rtr && f.fd) && (!f.brs || f.fd) &&
    (f.fd || decide (f.dlc.toNat ≤ 8))

/-- A frame holds exactly the payload bytes that carry meaning (10_state.md R33; log 10). -/
def frameSized (f : CanFrame) : Bool := decide (f.data.length = flen f)

/-- `f ~ g` (10_state.md R34): the same frame. -/
def sameFrame (f g : CanFrame) : Bool :=
  decide (f.id = g.id) && decide (f.ext = g.ext) && decide (f.rtr = g.rtr) && decide (f.fd = g.fd) &&
    decide (f.brs = g.brs) && decide (f.dlc = g.dlc) && decide (f.data.take (flen f) = g.data.take (flen f))

/-- The leading character of a frame (43_rx_encode.md R180; 30_encoding.md R92, R95, R96): the four rows of the table,
uppercase for an extended frame; `none` for a combination of tags the table does not have. -/
def cmdChar (ext rtr fd brs : Bool) : Option Byte :=
  match fd, brs, rtr with
  | false, false, false => some (if ext then 0x54#8 else 0x74#8)
  | false, false, true => some (if ext then 0x52#8 else 0x72#8)
  | true, false, false => some (if ext then 0x44#8 else 0x64#8)
  | true, true, false => some (if ext then 0x42#8 else 0x62#8)
  | false, true, _ => none
  | true, _, true => none

/-- The fields every frame line has, input or output, in wire order: command character, ID, DLC character, payload
(20_memory.md R62; 30_encoding.md R95 to R97). A frame with no leading character has no line. -/
def frameLine (f : CanFrame) : List Byte :=
  match cmdChar f.ext f.rtr f.fd f.brs with
  | none => []
  | some ch => ch ::
    (hexStr (idDigits f.ext) f.id.toNat ++ hexDigit f.dlc.toNat ::
      (if f.rtr then [] else f.data.flatMap (fun b => hexStr 2 b.toNat)))

/-- `Encode(f, tsflag, ts)` (43_rx_encode.md R181): the line written for a received frame, CR included. -/
def encodeFrame (f : CanFrame) (tsflag : Bool) (ts : Nat) : List Byte :=
  frameLine f ++ (if tsflag then hexStr 4 (ts % 65536) else []) ++ [cr]

end Sys2Proof.Machine
end

