-- ==== Sys2Proof/WellFormed.lean ====
section
/-! DEFINITION. Which instructions are well formed: those that a canonical line stands for. A malformed operand is
an instruction the machine executes (it answers NACK), but not a well-formed one. -/

namespace Sys2Proof

open Sys2Proof.Machine

/-- The 27 named first bytes (30_encoding.md R92), in the table's order. -/
def namedBytes : List Byte :=
  [0x4F#8, 0x43#8, 0x53#8, 0x59#8, 0x5A#8, 0x74#8, 0x54#8, 0x72#8, 0x52#8, 0x64#8, 0x44#8, 0x62#8, 0x42#8, 0x56#8,
   0x76#8, 0x4E#8, 0x46#8, 0x4C#8, 0x41#8, 0x50#8, 0x55#8, 0x73#8, 0x57#8, 0x4D#8, 0x6D#8, 0x58#8, 0x51#8]

/-- An operand is not malformed. -/
def Arg.isOk {α : Type} : Arg α → Bool
  | .ok _ => true
  | .bad _ => false

/-- The operands make a well-formed frame under these tags, with the payload the DLC announces (10_state.md R32,
R33). -/
def FrameOps.wf (o : FrameOps) (ext rtr fd brs : Bool) : Bool :=
  frameWf (o.toFrame ext rtr fd brs) && frameSized (o.toFrame ext rtr fd brs)

/-- A transmit operand is present and well formed. -/
def txArgWf (ext rtr fd brs : Bool) : Arg FrameOps → Bool
  | .ok o => o.wf ext rtr fd brs
  | .bad _ => false

/-- The instruction is one a canonical line stands for. -/
def Instr.wellFormed : Instr → Bool
  | .openChannel => true
  | .closeChannel => true
  | .setBitrate a => a.isOk
  | .setDataRate a => a.isOk
  | .setTimestamp a => a.isOk
  | .txStdData a => txArgWf false false false false a
  | .txExtData a => txArgWf true false false false a
  | .txStdRemote a => txArgWf false true false false a
  | .txExtRemote a => txArgWf true true false false a
  | .txStdFd a => txArgWf false false true false a
  | .txExtFd a => txArgWf true false true false a
  | .txStdFdBrs a => txArgWf false false true true a
  | .txExtFdBrs a => txArgWf true false true true a
  | .querySoftware => true
  | .queryHardware => true
  | .querySerial => true
  | .queryStatus => true
  | .stubL => true
  | .stubA => true
  | .stubP => true
  | .stubU => true
  | .stubLowerS => true
  | .stubW => true
  | .stubM => true
  | .stubLowerM => true
  | .stubX => true
  | .stubQ => true
  | .emptyLine => true
  | .otherLine b => !(namedBytes.contains b) && !(b == cr)
  | .rxStdData o => o.wf false false false false
  | .rxExtData o => o.wf true false false false
  | .rxStdRemote o => o.wf false true false false
  | .rxExtRemote o => o.wf true true false false
  | .rxStdFd o => o.wf false false true false
  | .rxExtFd o => o.wf true false true false
  | .rxStdFdBrs o => o.wf false false true true
  | .rxExtFdBrs o => o.wf true false true true

/-- The instruction is an output form, written by the block and never decoded from a line. -/
def Instr.isOutput : Instr → Bool
  | .rxStdData _ | .rxExtData _ | .rxStdRemote _ | .rxExtRemote _
  | .rxStdFd _ | .rxExtFd _ | .rxStdFdBrs _ | .rxExtFdBrs _ => true
  | .openChannel | .closeChannel | .setBitrate _ | .setDataRate _ | .setTimestamp _
  | .txStdData _ | .txExtData _ | .txStdRemote _ | .txExtRemote _
  | .txStdFd _ | .txExtFd _ | .txStdFdBrs _ | .txExtFdBrs _
  | .querySoftware | .queryHardware | .querySerial | .queryStatus
  | .stubL | .stubA | .stubP | .stubU | .stubLowerS | .stubW | .stubM | .stubLowerM | .stubX | .stubQ
  | .emptyLine | .otherLine _ => false

end Sys2Proof
end

