-- ==== Sys2Proof/Decode.lean ====
section
/-! DEFINITION. The decoder of a command line (30_encoding.md R92 to R96), the selection of the output form of a
captured frame (43_rx_encode.md R180), and the encoder. A malformed operand is decoded to its cause, in the order of
the checks of 41_transmit_commands.md R140; bytes after the consumed fields are not examined (R110, log 17). -/

namespace Sys2Proof

open Sys2Proof.Machine

/-- What the decoder rejects by name. -/
inductive DecodeReject where
  /-- A line of more than `LINE_MAX` bytes has no meaning (30_encoding.md R113). -/
  | lineTooLong
deriving DecidableEq, Repr

/-- The argument of `S` (40_control_commands.md R132): one character `0` to `8`. -/
def bitrateArg (ln : List Byte) : Arg (Fin 9) :=
  match lineAt ln 1 with
  | none => .bad .arg
  | some a =>
    if h : a.toNat - 0x30 < 9 then (if 0x30 ≤ a.toNat then .ok ⟨a.toNat - 0x30, h⟩ else .bad .arg) else .bad .arg

/-- The argument of `Y` (40_control_commands.md R133): one of `2`, `4`, `5`, `8`. -/
def dataRateArg (ln : List Byte) : Arg FdRate :=
  match lineAt ln 1 with
  | none => .bad .arg
  | some a =>
    if a = 0x32#8 then .ok .m2 else if a = 0x34#8 then .ok .m4 else if a = 0x35#8 then .ok .m5
    else if a = 0x38#8 then .ok .m8 else .bad .arg

/-- The argument of `Z` (40_control_commands.md R134): `1` is on, `0` is off (90_conflicts.md C4; log 20). -/
def timestampArg (ln : List Byte) : Arg Bool :=
  match lineAt ln 1 with
  | none => .bad .arg
  | some a => if a = 0x31#8 then .ok true else if a = 0x30#8 then .ok false else .bad .arg

/-- Step 3 of `TxDecode` (41_transmit_commands.md R140): the parsed ID against its limit. -/
def limitId (ext : Bool) (id : Nat) : Option (BitVec 29) :=
  if idMax ext < id then
    match idOverrange with
    | .nack => none
    | .mask => some (BitVec.ofNat 29 (id % (idMax ext + 1)))
  else some (BitVec.ofNat 29 id)

/-- Step 7 of `TxDecode`: the payload of the operands, none for a remote frame. -/
def txPayload (ln : List Byte) (ext rtr : Bool) (id : BitVec 29) (d : BitVec 4) : Arg FrameOps :=
  if rtr then .ok { id := id, dlc := d, data := [] }
  else
    match payloadAt ln (idDigits ext + 2) (dlcLen d) with
    | none => .bad .dataHex
    | some bytes => .ok { id := id, dlc := d, data := bytes }

/-- Steps 4 and 5 of `TxDecode`: the DLC character and its range on a classic frame. -/
def txDlc (ln : List Byte) (ext rtr fd : Bool) (id : BitVec 29) : Arg FrameOps :=
  match dlcCode (lineAt ln (1 + idDigits ext)) with
  | none => .bad .dlc
  | some d =>
    if fd = false ∧ 8 < dlcLen d ∧ classicDlcGt8 = .nack then .bad .dlc8 else txPayload ln ext rtr id d

/-- `TxDecode` (41_transmit_commands.md R140), up to the operands of the frame: the tags are the constructor's. -/
def txOperands (ln : List Byte) (ext rtr fd : Bool) : Arg FrameOps :=
  match hexfield ln 1 (idDigits ext) with
  | none => .bad .idHex
  | some parsed =>
    match limitId ext parsed with
    | none => .bad .idRange
    | some id => txDlc ln ext rtr fd id

/-- The command map (30_encoding.md R92): each named first byte with the instruction its line is. -/
def commandTable : List (Byte × (List Byte → Instr)) :=
  [ (0x4F#8, fun _ => .openChannel),
    (0x43#8, fun _ => .closeChannel),
    (0x53#8, fun ln => .setBitrate (bitrateArg ln)),
    (0x59#8, fun ln => .setDataRate (dataRateArg ln)),
    (0x5A#8, fun ln => .setTimestamp (timestampArg ln)),
    (0x74#8, fun ln => .txStdData (txOperands ln false false false)),
    (0x54#8, fun ln => .txExtData (txOperands ln true false false)),
    (0x72#8, fun ln => .txStdRemote (txOperands ln false true false)),
    (0x52#8, fun ln => .txExtRemote (txOperands ln true true false)),
    (0x64#8, fun ln => .txStdFd (txOperands ln false false true)),
    (0x44#8, fun ln => .txExtFd (txOperands ln true false true)),
    (0x62#8, fun ln => .txStdFdBrs (txOperands ln false false true)),
    (0x42#8, fun ln => .txExtFdBrs (txOperands ln true false true)),
    (0x56#8, fun _ => .querySoftware),
    (0x76#8, fun _ => .queryHardware),
    (0x4E#8, fun _ => .querySerial),
    (0x46#8, fun _ => .queryStatus),
    (0x4C#8, fun _ => .stubL),
    (0x41#8, fun _ => .stubA),
    (0x50#8, fun _ => .stubP),
    (0x55#8, fun _ => .stubU),
    (0x73#8, fun _ => .stubLowerS),
    (0x57#8, fun _ => .stubW),
    (0x4D#8, fun _ => .stubM),
    (0x6D#8, fun _ => .stubLowerM),
    (0x58#8, fun _ => .stubX),
    (0x51#8, fun _ => .stubQ) ]

/-- The instruction of a line with first byte b (30_encoding.md R92, 42_query_stub_commands.md R176). -/
def decodeFirst (b : Byte) (ln : List Byte) : Instr :=
  match commandTable.find? (fun row => row.1 == b) with
  | some row => row.2 ln
  | none => .otherLine b

/-- The instruction a line is (30_encoding.md R92, R109: every line is one). -/
def decodeLine : List Byte → Instr
  | [] => .emptyLine
  | b :: rest => decodeFirst b (b :: rest)

/-- The decoder: total on any bytes, rejecting by name a line longer than the line buffer (30_encoding.md R113). -/
def decode (ln : List Byte) : Except DecodeReject Instr :=
  if fitsLine ln.length then .ok (decodeLine ln) else .error .lineTooLong

/-- The output form of a captured frame (43_rx_encode.md R180), chosen by its tags; `none` where the table has no
row. -/
def rxInstr (f : CanFrame) : Option Instr :=
  match f.fd, f.brs, f.rtr with
  | false, false, false => some (if f.ext then .rxExtData f.ops else .rxStdData f.ops)
  | false, false, true => some (if f.ext then .rxExtRemote f.ops else .rxStdRemote f.ops)
  | true, false, false => some (if f.ext then .rxExtFd f.ops else .rxStdFd f.ops)
  | true, true, false => some (if f.ext then .rxExtFdBrs f.ops else .rxStdFdBrs f.ops)
  | false, true, _ => none
  | true, _, true => none

/-- The bytes of a table row's word, first byte in the lowest bits. -/
def wordBytes : Nat → Nat → List Byte
  | 0, _ => []
  | n + 1, w => BitVec.ofNat 8 w :: wordBytes n (w / 256)

/-- The line whose bits are w: the row's bytes, then zero bytes up to 10, the most bytes a command has when its DLC
character announces no payload, as a zero byte announces none (30_encoding.md R108). A row of no bits is the empty
line (R175). -/
def tableLine (nbits w : Nat) : List Byte :=
  if nbits / 8 = 0 then [] else wordBytes (nbits / 8) w ++ List.replicate (10 - nbits / 8) 0#8

/-- The instruction the decoder reads from a word of spec/opcode_table.json. -/
def decodeTableWord (nbits w : Nat) : Option Instr := (decode (tableLine nbits w)).toOption

/-- The canonical line of the operands of a transmit command or output form under its tags. -/
def encodeOps (ext rtr fd brs : Bool) (o : FrameOps) : List Byte := frameLine (o.toFrame ext rtr fd brs)

/-- The canonical line of a transmit command; a malformed operand has none beyond the command character. -/
def encodeTx (ext rtr fd brs : Bool) : Arg FrameOps → List Byte
  | .ok o => encodeOps ext rtr fd brs o
  | .bad _ => (cmdChar ext rtr fd brs).toList

/-- The canonical line of a command with an argument character. -/
def encodeArg {α : Type} (c : Byte) (ch : α → Byte) : Arg α → List Byte
  | .ok a => [c, ch a]
  | .bad _ => [c]

/-- The argument character of `Y` (30_encoding.md R107). -/
def fdRateChar : FdRate → Byte
  | .m2 => 0x32#8
  | .m4 => 0x34#8
  | .m5 => 0x35#8
  | .m8 => 0x38#8

/-- The encoder: the canonical line of a well-formed instruction, CR excluded (30_encoding.md R93 to R97). -/
def encode : Instr → List Byte
  | .openChannel => [0x4F#8]
  | .closeChannel => [0x43#8]
  | .setBitrate a => encodeArg 0x53#8 (fun k => BitVec.ofNat 8 (0x30 + k.val)) a
  | .setDataRate a => encodeArg 0x59#8 fdRateChar a
  | .setTimestamp a => encodeArg 0x5A#8 (fun on => if on then 0x31#8 else 0x30#8) a
  | .txStdData a => encodeTx false false false false a
  | .txExtData a => encodeTx true false false false a
  | .txStdRemote a => encodeTx false true false false a
  | .txExtRemote a => encodeTx true true false false a
  | .txStdFd a => encodeTx false false true false a
  | .txExtFd a => encodeTx true false true false a
  | .txStdFdBrs a => encodeTx false false true true a
  | .txExtFdBrs a => encodeTx true false true true a
  | .querySoftware => [0x56#8]
  | .queryHardware => [0x76#8]
  | .querySerial => [0x4E#8]
  | .queryStatus => [0x46#8]
  | .stubL => [0x4C#8]
  | .stubA => [0x41#8]
  | .stubP => [0x50#8]
  | .stubU => [0x55#8]
  | .stubLowerS => [0x73#8]
  | .stubW => [0x57#8]
  | .stubM => [0x4D#8]
  | .stubLowerM => [0x6D#8]
  | .stubX => [0x58#8]
  | .stubQ => [0x51#8]
  | .emptyLine => []
  | .otherLine b => [b]
  | .rxStdData o => encodeOps false false false false o
  | .rxExtData o => encodeOps true false false false o
  | .rxStdRemote o => encodeOps false true false false o
  | .rxExtRemote o => encodeOps true true false false o
  | .rxStdFd o => encodeOps false false true false o
  | .rxExtFd o => encodeOps true false true false o
  | .rxStdFdBrs o => encodeOps false false true true o
  | .rxExtFdBrs o => encodeOps true false true true o

end Sys2Proof
end

