-- ==== Sys2Proof/Machine/State.lean ====
section
/-! DEFINITION. The machine's state as plain data (10_state.md), the events that move it, its outputs, and reset. -/

namespace Sys2Proof.Machine

/-- `cfg.mode` (10_state.md R24). -/
inductive Mode where
  | normal | listenOnly | loopbackExternal | loopbackInternal
deriving DecidableEq, Repr, Inhabited

/-- `ChannelConfig` (10_state.md R22 to R25), also the argument of `CanInit` (00_scope.md R9). -/
structure ChannelConfig where
  nominalBitrate : BitVec 32
  dataBitrate    : BitVec 32
  mode           : Mode
  fdEnable       : Bool
deriving DecidableEq, Repr, Inhabited

/-- The `flags` bitset (10_state.md R27): one flag is defined; the reserved bits read 0 and are not held. -/
structure ChannelFlags where
  timestamp : Bool
deriving DecidableEq, Repr, Inhabited

/-- `CH[c]` (10_state.md R21 to R28). `hwHandle` and `irqVector` are names: the number n stands for `CANHW[n]` and
for the line of `ISR[n]` (log 9). -/
structure ChannelState where
  index     : Nat
  hwHandle  : Nat
  irqVector : Nat
  cfg       : ChannelConfig
  isOpen    : Bool
  flags     : ChannelFlags
  timestamp : BitVec Config.tsWidth
deriving DecidableEq, Repr, Inhabited

/-- `SLOT[c][i]` (10_state.md R35). -/
structure RxSlot where
  flag  : Bool
  frame : CanFrame
deriving DecidableEq, Repr, Inhabited

/-- A frame as the controller presents it to `HwRead` (45_frame_store_isr.md R226). Its layout is the controller's;
`payload` is the bytes it presents, `payload[0]` the first on the bus (20_memory.md R64). -/
structure HwFrame where
  id      : BitVec 29
  ext     : Bool
  rtr     : Bool
  fd      : Bool
  brs     : Bool
  dlc     : BitVec 4
  payload : List Byte
deriving DecidableEq, Repr, Inhabited

/-- A set of receive causes (00_scope.md R8, 60_exceptions.md R276). -/
structure IrqSet where
  f0n : Bool
  f1n : Bool
  drx : Bool
deriving DecidableEq, Repr, Inhabited

/-- The controller's receive side as it presents it: pending flags, the two FIFOs (head first), the dedicated buffers
(10_state.md R40 (e)); the P and H of `CanRxEvent` (00_scope.md R8). Entry k of `ded` is the frame of dedicated buffer
k while its indicator `NDAT[k]` is set, `none` while it is clear. -/
structure RxView where
  pending : IrqSet
  fifo0   : List HwFrame
  fifo1   : List HwFrame
  ded     : List (Option HwFrame)
deriving DecidableEq, Repr, Inhabited

/-- `HW[c]` (10_state.md R40 (c) to (f)). -/
structure Hw where
  enabled : Bool
  irqEn   : Bool
  txBusy  : Bool
  rx      : RxView
deriving DecidableEq, Repr, Inhabited

/-- Everything of one channel (10_state.md R20, R40): control registers, frame store, line buffer, serial queue, the
transport's busy flag, the controller. -/
structure Channel where
  ch    : ChannelState
  slots : List RxSlot
  lb    : List Byte
  serq  : List Byte
  busy  : Bool
  hw    : Hw
deriving DecidableEq, Repr, Inhabited

/-- What decoding a line returns (00_scope.md R13). -/
inductive Action where
  | ack
  | nack
  | reply (s : List Byte)
  | send (f : CanFrame)
deriving DecidableEq, Repr

/-- `phase` of the bridge sequencer (10_state.md R39). -/
inductive Phase where
  | idle | p1 | p2
deriving DecidableEq, Repr

/-- `sub` of the bridge sequencer, the micro-step `BRIDGE` takes next (10_state.md R39; log 23). -/
inductive Sub where
  /-- The top of the phase: IDLE waits for `Sched`; P1 tests the slot (46_bridge_loop.md R242 a); P2 is inside
  `ReadLine` (R244). -/
  | ready
  /-- P1 step b: clear the flag. -/
  | clear
  /-- P1 step c: copy the frame out. `earlier` is the frames the handler has overwritten since the clear
  (20_memory.md R72, second case), oldest first. -/
  | copy (earlier : List CanFrame)
  /-- P1 steps d and e: check and encode the frame obtained. -/
  | encode (g : CanFrame)
  /-- P1 step f: write the encoded line. -/
  | write (out : List Byte)
  /-- P2: a complete line is in `LB`; decode it and apply its command's rule (R243). -/
  | decode
  /-- P2: carry out the action (R247). -/
  | dispatch (a : Action)
  /-- P2: `TX_WAIT` (44_channel_state_machine.md R206). -/
  | txWait
deriving DecidableEq, Repr

/-- The bridge sequencer (10_state.md R39). -/
structure Sequencer where
  chan  : Nat
  phase : Phase
  slot  : Nat
  sub   : Sub
deriving DecidableEq, Repr

/-- A receive source of the controller (00_scope.md R9). -/
inductive RxSource where
  | fifo0
  | fifo1
  | dedicated (k : Nat)
deriving DecidableEq, Repr

/-- The outputs of the block (00_scope.md R9), the entries of the observable trace (10_state.md R41). -/
inductive Output where
  | serOut (c : Nat) (s : List Byte)
  | canInit (c : Nat) (cfg : ChannelConfig)
  | canDeinit (c : Nat)
  | rxIrqClassEnable (c : Nat)
  | rxIrqClassDisable (c : Nat)
  | irqEnable (c : Nat) (priority : Nat)
  | irqDisable (c : Nat)
  | canTx (c : Nat) (f : CanFrame)
  | hwRead (c : Nat) (src : RxSource)
  | clearNdat (c : Nat) (k : Nat)
  | clearIrqFlags (c : Nat) (p : IrqSet)
deriving DecidableEq, Repr

/-- The free values of one torn copy-out (20_memory.md R72): for each field, and for each payload byte, which of the
frames the slot held in the window it comes from, and the byte it is where that frame holds none. Nothing constrains
them (log 11). -/
structure CopyDraw where
  id    : Nat
  ext   : Nat
  rtr   : Nat
  fd    : Nat
  brs   : Nat
  dlc   : Nat
  bytes : List (Nat × Byte)
deriving DecidableEq, Repr, Inhabited

/-- The events of the schedule: the block's inputs (00_scope.md R8), the turns of `BRIDGE`, and the extra input of
44_channel_state_machine.md R205. -/
inductive Event where
  /-- `SerIn(c, b)`. -/
  | serIn (c : Nat) (b : Byte)
  /-- `CanRxEvent(c, P, H)`: the controller presents this view and raises its interrupt. -/
  | canRx (c : Nat) (view : RxView)
  /-- `TxDone(c)`. -/
  | txDone (c : Nat)
  /-- The transport's answer to writes from now on, until the next such event: `Busy(c)`. -/
  | busy (c : Nat) (b : Bool)
  /-- `Tick(c)`. -/
  | tick (c : Nat)
  /-- `LineTimeout(c)`. -/
  | lineTimeout (c : Nat)
  /-- `Sched`. -/
  | sched
  /-- Set mode called from outside the command set (R205, decision D33). DESIGN CHOICE (log 26): the other operations,
  `Open` among them, have no such event, so in a run `CanInit` follows a command `O` only. -/
  | setMode (c : Nat) (m : Mode)
  /-- A turn of `BRIDGE`: one micro-step, with the free values a copy-out in progress takes. -/
  | bridge (d : CopyDraw)
deriving DecidableEq, Repr

/-- The machine. `sched` is the model's own field: the events to come (log 1). -/
structure State where
  chans : List Channel
  seq   : Sequencer
  sched : List Event
  trace : List Output
deriving DecidableEq, Repr

/-- Why a step stops with a fault. The spec has no fatal error (60_exceptions.md R270). -/
inductive Fault where
  /-- Raised by a turn of `BRIDGE` when the sequencer names a channel that is not configured (10_state.md R39: `chan`
  in 0..N_CH-1). Safe: no run reaches such a state. -/
  | sequencerOutOfRange
deriving DecidableEq, Repr

/-- Why a step is given no meaning. -/
inductive Refusal where
  /-- An instruction with no meaning yet: raised by no arm of `exec`. Safe. -/
  | notModelled (mnemonic : String)
  /-- Raised where a captured frame that is not well formed would be encoded (43_rx_encode.md R180,
  93_implementation_defined.md U5). Safe: the model stops where the hardware writes some line. -/
  | illFormedFrame
  /-- Raised where a line exceeds `LINE_MAX` (30_encoding.md R113, 93_implementation_defined.md U8). Safe: the model
  stops where the hardware truncates, wraps or answers. -/
  | lineTooLong
deriving DecidableEq, Repr

/-- The receive side at reset: nothing pending, nothing presented (the collaborator's own value, log 8). -/
def RxView.reset : RxView :=
  { pending := { f0n := false, f1n := false, drx := false }, fifo0 := [], fifo1 := [],
    ded := List.replicate Config.nDed none }

/-- `CH[c]` at reset (10_state.md R42). -/
def ChannelState.reset (c : Nat) : ChannelState :=
  { index := c, hwHandle := c, irqVector := c,
    cfg := { nominalBitrate := 0#32, dataBitrate := Config.fdRateReset c, mode := .normal, fdEnable := true },
    isOpen := false, flags := { timestamp := false }, timestamp := Config.tsReset c }

/-- n slots from index i, at reset: flags clear, frames unspecified (10_state.md R42). -/
def resetSlots (c : Nat) : Nat → Nat → List RxSlot
  | _, 0 => []
  | i, n + 1 => { flag := false, frame := Config.slotFrameReset c i } :: resetSlots c (i + 1) n

/-- Channel c at reset (10_state.md R42). -/
def Channel.reset (c : Nat) : Channel :=
  { ch := ChannelState.reset c, slots := resetSlots c 0 Config.nSlots, lb := [], serq := [], busy := false,
    hw := { enabled := false, irqEn := false, txBusy := false, rx := RxView.reset } }

/-- n channels from number c, at reset. -/
def resetChans : Nat → Nat → List Channel
  | _, 0 => []
  | c, n + 1 => Channel.reset c :: resetChans (c + 1) n

/-- The sequencer at reset (10_state.md R39), and whenever it waits for `Sched` again (log 44). -/
def Sequencer.atRest : Sequencer := { chan := 0, phase := .idle, slot := 0, sub := .ready }

/-- The machine right after system init (10_state.md R42, 70_reset_and_hazards.md R300, R301). -/
def State.reset : State :=
  { chans := resetChans 0 Config.nCh, seq := Sequencer.atRest, sched := [], trace := [] }

end Sys2Proof.Machine
end

