-- ==== Sys2Proof/Machine/Flags.lean ====
section
/-! DEFINITION. The block's flags: `flags.TIMESTAMP` and the counter it enables (10_state.md R27, R28), the slot flags
(R35, R37), and the sets of interrupt flags (60_exceptions.md R278). -/

namespace Sys2Proof.Machine

/-- `CH[c].flags.TIMESTAMP <- on` (40_control_commands.md R134): the counter is not touched. -/
def ChannelState.setTimestampFlag (x : ChannelState) (on : Bool) : ChannelState := { x with flags := { timestamp := on } }

/-- The tick's effect on `CH[c]` (46_bridge_loop.md R250): one more, modulo 2^TS_WIDTH, while the flag is set. -/
def ChannelState.tick (x : ChannelState) : ChannelState :=
  if x.flags.timestamp then { x with timestamp := x.timestamp + 1 } else x

/-- The producer's write of a slot (20_memory.md R68, 45_frame_store_isr.md R227): frame, then flag, whatever the flag
was. -/
def RxSlot.capture (_x : RxSlot) (f : CanFrame) : RxSlot := { flag := true, frame := f }

/-- The consumer's clear of a slot's flag (20_memory.md R69). -/
def RxSlot.clear (x : RxSlot) : RxSlot := { x with flag := false }

/-- No cause is in the set. -/
def IrqSet.isEmpty (p : IrqSet) : Bool := !p.f0n && !p.f1n && !p.drx

/-- The pending flags after those of q are cleared (45_frame_store_isr.md R225). -/
def IrqSet.minus (p q : IrqSet) : IrqSet := { f0n := p.f0n && !q.f0n, f1n := p.f1n && !q.f1n, drx := p.drx && !q.drx }

end Sys2Proof.Machine
end

