-- ==== Sys2Proof/Machine/Ops.lean ====
section
/-! DEFINITION. The named operations over the state: access to channels and slots, outputs, the serial write, the
channel state machine (44_channel_state_machine.md), NACK as the block's exception (60_exceptions.md R275), the
receive interrupt (45_frame_store_isr.md) and the consumer's copy-out (20_memory.md R72). -/

namespace Sys2Proof.Machine

/-! ## Access -/

/-- Channel c; a default channel where none is configured, which no reachable sequencer names. -/
def State.chan (s : State) (c : Nat) : Channel := s.chans.getD c default

/-- Channel c becomes f of itself. -/
def State.modChan (s : State) (c : Nat) (f : Channel → Channel) : State :=
  { s with chans := s.chans.set c (f (s.chan c)) }

/-- `CH[c]` becomes f of itself. -/
def State.modCh (s : State) (c : Nat) (f : ChannelState → ChannelState) : State :=
  s.modChan c (fun x => { x with ch := f x.ch })

/-- `HW[c]` becomes f of itself. -/
def State.modHw (s : State) (c : Nat) (f : Hw → Hw) : State := s.modChan c (fun x => { x with hw := f x.hw })

/-- Slot i of a channel. -/
def Channel.slot (x : Channel) (i : Nat) : RxSlot := x.slots.getD i default

/-- Slot i of channel c becomes f of itself. -/
def State.modSlot (s : State) (c i : Nat) (f : RxSlot → RxSlot) : State :=
  s.modChan c (fun x => { x with slots := x.slots.set i (f (x.slot i)) })

/-- `LB[c] <- l`. -/
def State.setLb (s : State) (c : Nat) (l : List Byte) : State := s.modChan c (fun x => { x with lb := l })

/-- `SERQ[c]` becomes q. -/
def State.setSerq (s : State) (c : Nat) (q : List Byte) : State := s.modChan c (fun x => { x with serq := q })

/-- `emit E` (00_scope.md R12): one more entry of the trace. -/
def State.emit (s : State) (o : Output) : State := { s with trace := s.trace ++ [o] }

/-- The sequencer's next micro-step. -/
def State.withSub (s : State) (m : Sub) : State := { s with seq := { s.seq with sub := m } }

/-- The command's rule returns its action, which the next micro-step dispatches (46_bridge_loop.md R243, R247). -/
def State.act (s : State) (a : Action) : State := s.withSub (.dispatch a)

/-! ## Exceptions: NACK -/

/-- `raise Nack` (00_scope.md R13, 60_exceptions.md R275): nothing is saved, no register is written, no controller call
is made; the command's action is NACK and decoding goes on with the next line. The cause is not recorded (R271).
There is nothing to return from: `BRIDGE` goes on. -/
def State.raiseNack (s : State) (_why : NackCause) : State := s.act .nack

/-! ## Serial write -/

/-- `reply(c, s)` (46_bridge_loop.md R249, 20_memory.md R78): accepted whole, or dropped whole when the transport is
busy. -/
def State.reply (s : State) (c : Nat) (bytes : List Byte) : State :=
  if (s.chan c).busy then s else s.emit (.serOut c bytes)

/-! ## The channel state machine -/

/-- `CH[c].cfg` becomes f of itself. -/
def State.modCfg (s : State) (c : Nat) (f : ChannelConfig → ChannelConfig) : State :=
  s.modCh c (fun x => { x with cfg := f x.cfg })

/-- `SetMode(c, m)` (44_channel_state_machine.md R205): an explicit no-op on an open channel. -/
def State.setMode (s : State) (c : Nat) (m : Mode) : State :=
  if (s.chan c).ch.isOpen then s else s.modCfg c (fun x => { x with mode := m })

/-- Whether a rate setter stores on this channel (R203). -/
def State.storesRate (s : State) (c : Nat) : Bool :=
  match rateSetWhileOpen with
  | .store => true
  | .ignore => !(s.chan c).ch.isOpen

/-- `SetBitrate(c, v)` (R203). -/
def State.setBitrate (s : State) (c : Nat) (v : BitVec 32) : State :=
  if s.storesRate c then s.modCfg c (fun x => { x with nominalBitrate := v }) else s

/-- `SetFdBitrate(c, v)` (R204). -/
def State.setFdBitrate (s : State) (c : Nat) (v : BitVec 32) : State :=
  if s.storesRate c then s.modCfg c (fun x => { x with dataBitrate := v }) else s

/-- `Close(c)` (R202): the three events are emitted whatever the state of the channel. -/
def State.closeOp (s : State) (c : Nat) : State :=
  let s1 := (s.emit (.canDeinit c)).modHw c (fun h => { h with enabled := false })
  let s2 := (s1.emit (.rxIrqClassDisable c))
  let s3 := (s2.emit (.irqDisable c)).modHw c (fun h => { h with irqEn := false })
  s3.modCh c (fun x => { x with isOpen := false })

/-- The 500 kbps default of `Open` (R201): stored when no bit rate was ever set. -/
def ChannelConfig.withDefaultRate (g : ChannelConfig) : ChannelConfig :=
  if g.nominalBitrate = 0#32 then { g with nominalBitrate := 500000#32 } else g

/-- The part of `Open(c)` after the implicit close (R201). -/
def State.openClosed (s : State) (c : Nat) : State :=
  let s1 := s.modCfg c ChannelConfig.withDefaultRate
  let s2 := (s1.emit (.canInit c (s1.chan c).ch.cfg)).modHw c (fun h => { h with enabled := true })
  let s3 := s2.emit (.rxIrqClassEnable c)
  let s4 := (s3.emit (.irqEnable c Config.irqPriority)).modHw c (fun h => { h with irqEn := true })
  s4.modCh c (fun x => { x with isOpen := true })

/-- `Open(c)` (R201): an implicit close first when the channel is open. -/
def State.openOp (s : State) (c : Nat) : State :=
  if (s.chan c).ch.isOpen then (s.closeOp c).openClosed c else s.openClosed c

/-- `TX_ISSUE` of `Transmit(c, f)` (R206): whether or not the channel is open. -/
def State.txIssue (s : State) (c : Nat) (f : CanFrame) : State :=
  ((s.emit (.canTx c f)).modHw c (fun h => { h with txBusy := true })).withSub .txWait

/-! ## The receive interrupt -/

/-- `SLOT_MAP` (10_state.md R36; D3, log 28). -/
def slotOf : RxSource → Nat
  | .fifo0 => 0
  | .fifo1 => 1
  | .dedicated k => 2 + k

/-- The length a hardware frame announces: none for a remote frame (45_frame_store_isr.md R226). -/
def HwFrame.len (h : HwFrame) : Nat := if h.rtr then 0 else dlcLen h.dlc

/-- `frame_of(h)` (45_frame_store_isr.md R226): field for field, no filtering, no validation. -/
def frameOf (h : HwFrame) : CanFrame :=
  { id := h.id, ext := h.ext, rtr := h.rtr, fd := h.fd, brs := h.brs, dlc := h.dlc, data := h.payload.take h.len }

/-- What `HwRead` finds at a source (20_memory.md R67); `none` at an empty FIFO or an absent buffer, which contract K1
rules out (93_implementation_defined.md U15). -/
def RxView.front (v : RxView) : RxSource → Option HwFrame
  | .fifo0 => v.fifo0.head?
  | .fifo1 => v.fifo1.head?
  | .dedicated k => v.ded.getD k none

/-- The controller after `HwRead`: a FIFO loses its head, a dedicated buffer is not freed (20_memory.md R67). -/
def RxView.afterRead (v : RxView) : RxSource → RxView
  | .fifo0 => { v with fifo0 := v.fifo0.tail }
  | .fifo1 => { v with fifo1 := v.fifo1.tail }
  | .dedicated _ => v

/-- `ClearNdat` (20_memory.md R67, 45_frame_store_isr.md R224): the buffer's indicator is clear. -/
def RxView.clearNdat (v : RxView) (k : Nat) : RxView := { v with ded := v.ded.set k none }

/-- The controller's receive side of channel c becomes f of itself. -/
def State.modRx (s : State) (c : Nat) (f : RxView → RxView) : State := s.modHw c (fun h => { h with rx := f h.rx })

/-- A copy-out of slot i of channel c in progress meets a handler's write: the frame about to be overwritten is
remembered with the copy (20_memory.md R72, second case). -/
def State.noteOverwrite (s : State) (c i : Nat) : State :=
  match s.seq.phase, s.seq.sub with
  | .p1, .copy earlier =>
    if s.seq.chan = c ∧ s.seq.slot = i then s.withSub (.copy (earlier ++ [((s.chan c).slot i).frame])) else s
  | _, _ => s

/-- The handler's write of one slot (45_frame_store_isr.md R222 to R224, R227). -/
def State.capture (s : State) (c i : Nat) (f : CanFrame) : State :=
  (s.noteOverwrite c i).modSlot c i (fun x => x.capture f)

/-- `HwRead`, then the write of the source's slot: the common part of the three arms (R222 to R224). -/
def State.armRead (s : State) (c : Nat) (src : RxSource) : State :=
  match (s.chan c).hw.rx.front src with
  | none => s
  | some h => (((s.emit (.hwRead c src)).modRx c (fun v => v.afterRead src))).capture c (slotOf src) (frameOf h)

/-- `arm_dedicated(c, k)` (R224): the clear comes after the copy. -/
def State.armDedicated (s : State) (c k : Nat) : State :=
  ((s.armRead c (.dedicated k)).emit (.clearNdat c k)).modRx c (fun v => v.clearNdat k)

/-- The dedicated-buffer arm over n buffers from k, in increasing index; a buffer whose indicator is clear is not read
(R221, R224). -/
def State.armAllDedicated (s : State) (c : Nat) : Nat → Nat → State
  | _, 0 => s
  | k, n + 1 =>
    (if ((s.chan c).hw.rx.ded.getD k none).isSome then s.armDedicated c k else s).armAllDedicated c (k + 1) n

/-- An arm runs when its cause is in the set read at the start. -/
def State.armIf (s : State) (cause : Bool) (arm : State → State) : State := if cause then arm s else s

/-- Taking the receive interrupt of channel c (45_frame_store_isr.md R221; 60_exceptions.md R281, R282): entry saves
nothing and reads the pending set; the arms run in the order FIFO 0, FIFO 1, dedicated buffers; the consumed set is
cleared; the return restores nothing, and `BRIDGE` resumes where it was. -/
def State.isr (s : State) (c : Nat) : State :=
  let p := (s.chan c).hw.rx.pending
  let s1 := s.armIf p.f0n (fun t => t.armRead c .fifo0)
  let s2 := s1.armIf p.f1n (fun t => t.armRead c .fifo1)
  let s3 := s2.armIf p.drx (fun t => t.armAllDedicated c 0 (t.chan c).hw.rx.ded.length)
  (s3.emit (.clearIrqFlags c p)).modRx c (fun v => { v with pending := v.pending.minus p })

/-- A presented frame carries the payload its DLC announces (what a hardware frame is, R226). -/
def HwFrame.whole (h : HwFrame) : Bool := decide (h.len ≤ h.payload.length)

/-- The view is one `CanRxEvent` may carry (00_scope.md R8; contract K1 of 60_exceptions.md R286) on a channel with
`nDed` dedicated buffers: a non-empty set of causes, a frame at the head of each FIFO named, a non-empty K when `DRX`
is named. -/
def RxView.raises (v : RxView) (nDed : Nat) : Bool :=
  !v.pending.isEmpty &&
    (!v.pending.f0n || (v.fifo0.head?).any HwFrame.whole) &&
    (!v.pending.f1n || (v.fifo1.head?).any HwFrame.whole) &&
    (!v.pending.drx || (v.ded.any Option.isSome && v.ded.all (fun b => b.all HwFrame.whole))) &&
    decide (v.ded.length = nDed)

/-! ## The consumer's copy-out -/

/-- One of the frames, chosen by a free number. -/
def pickFrame (frames : List CanFrame) (k : Nat) : CanFrame := frames.getD (k % frames.length) default

/-- Payload byte k of a torn copy: the byte of the chosen frame, or the free byte where that frame holds none. -/
def tornByte (frames : List CanFrame) (draw : List (Nat × Byte)) (k : Nat) : Byte :=
  ((pickFrame frames (draw.getD k (0, 0#8)).1).data[k]?).getD (draw.getD k (0, 0#8)).2

/-- The header of a torn copy: each field is that of one of the frames. -/
def tornHeader (frames : List CanFrame) (d : CopyDraw) : CanFrame :=
  { id := (pickFrame frames d.id).id, ext := (pickFrame frames d.ext).ext, rtr := (pickFrame frames d.rtr).rtr,
    fd := (pickFrame frames d.fd).fd, brs := (pickFrame frames d.brs).brs, dlc := (pickFrame frames d.dlc).dlc,
    data := [] }

/-- A torn copy (20_memory.md R72, second case): field by field and payload byte by payload byte. -/
def tornCopy (frames : List CanFrame) (d : CopyDraw) : CanFrame :=
  { tornHeader frames d with data := (List.range (flen (tornHeader frames d))).map (tornByte frames d.bytes) }

/-- The copy-out (46_bridge_loop.md R242 c): the slot's frame, or a torn copy when the handler overwrote it since the
clear. -/
def copyOut (earlier : List CanFrame) (now : CanFrame) (d : CopyDraw) : CanFrame :=
  match earlier with
  | [] => now
  | _ :: _ => tornCopy (earlier ++ [now]) d

/-! ## Encoding a received frame -/

/-- The frame can be encoded: well formed (10_state.md R32), with the payload its DLC announces. -/
def encodable (f : CanFrame) : Bool := frameWf f && frameSized f

/-- Steps d and e of phase 1 (46_bridge_loop.md R242; 43_rx_encode.md R180, R190): an ill-formed frame is refused; the
flag and the counter are read once, here. -/
def State.encodeRx (s : State) (f : CanFrame) : Host.Outcome State Fault Refusal :=
  if encodable f then
    .next (s.withSub (.write (encodeFrame f (s.chan s.seq.chan).ch.flags.timestamp
      (s.chan s.seq.chan).ch.timestamp.toNat)))
  else .refused .illFormedFrame

end Sys2Proof.Machine
end

