-- ==== Sys2Proof/Machine/Control.lean ====
section
/-! DEFINITION. The control commands `O C S Y Z` (40_control_commands.md R130 to R134), on the channel the sequencer
serves. -/

namespace Sys2Proof.Machine

/-- `O` (R130): `SetMode(c, NORMAL)`, then `Open(c)`, then Ack. -/
def execOpenChannel (s : State) : Host.Outcome State Fault Refusal :=
  .next (((s.setMode s.seq.chan .normal).openOp s.seq.chan).act .ack)

/-- `C` (R131): `Close(c)`, then Ack. -/
def execCloseChannel (s : State) : Host.Outcome State Fault Refusal :=
  .next ((s.closeOp s.seq.chan).act .ack)

/-- `S` (R132): `SetBitrate(c, BAUD[k])`, then Ack; a malformed argument is NACKed. -/
def execSetBitrate (arg : Arg (Fin 9)) (s : State) : Host.Outcome State Fault Refusal :=
  match arg with
  | .ok k => .next ((s.setBitrate s.seq.chan (baud k)).act .ack)
  | .bad why => .next (s.raiseNack why)

/-- `Y` (R133): `SetFdBitrate(c, FDRATE(a))`, then Ack; a malformed argument is NACKed. -/
def execSetDataRate (arg : Arg FdRate) (s : State) : Host.Outcome State Fault Refusal :=
  match arg with
  | .ok r => .next ((s.setFdBitrate s.seq.chan (fdRate r)).act .ack)
  | .bad why => .next (s.raiseNack why)

/-- `Z` (R134): the timestamp flag, then Ack; a malformed argument is NACKed. -/
def execSetTimestamp (arg : Arg Bool) (s : State) : Host.Outcome State Fault Refusal :=
  match arg with
  | .ok on => .next ((s.modCh s.seq.chan (fun x => x.setTimestampFlag on)).act .ack)
  | .bad why => .next (s.raiseNack why)

end Sys2Proof.Machine
end

