-- ==== Sys2Proof/Machine/Query.lean ====
section
/-! DEFINITION. The query commands `V v N F` (42_query_stub_commands.md R160 to R163) and the stub class (R164 to
R176). The reply strings are 30_encoding.md R98. -/

namespace Sys2Proof.Machine

/-- `V` (R160): the fixed reply `V2401\r`. -/
def execQuerySoftware (s : State) : Host.Outcome State Fault Refusal :=
  .next (s.act (.reply [0x56#8, 0x32#8, 0x34#8, 0x30#8, 0x31#8, 0x0D#8]))

/-- `v` (R161): the fixed reply `v2401\r`. -/
def execQueryHardware (s : State) : Host.Outcome State Fault Refusal :=
  .next (s.act (.reply [0x76#8, 0x32#8, 0x34#8, 0x30#8, 0x31#8, 0x0D#8]))

/-- `N` (R162): the fixed reply `N0001\r`. -/
def execQuerySerial (s : State) : Host.Outcome State Fault Refusal :=
  .next (s.act (.reply [0x4E#8, 0x30#8, 0x30#8, 0x30#8, 0x31#8, 0x0D#8]))

/-- `F` (R163): the fixed reply `F00\r`. -/
def execQueryStatus (s : State) : Host.Outcome State Fault Refusal :=
  .next (s.act (.reply [0x46#8, 0x30#8, 0x30#8, 0x0D#8]))

/-- The stub class (R164): no state change, no controller call, the reply `STUB_REPLY(b)` of the first byte. -/
def stubCommand (first : Option Byte) (s : State) : Host.Outcome State Fault Refusal :=
  match stubReply first with
  | .nack => .next (s.raiseNack .stub)
  | .ack => .next (s.act .ack)
  | .text bytes => .next (s.act (.reply bytes))

/-- `L` (R165). -/
def execStubL (s : State) : Host.Outcome State Fault Refusal := stubCommand (some 0x4C#8) s

/-- `A` (R166). -/
def execStubA (s : State) : Host.Outcome State Fault Refusal := stubCommand (some 0x41#8) s

/-- `P` (R167). -/
def execStubP (s : State) : Host.Outcome State Fault Refusal := stubCommand (some 0x50#8) s

/-- `U` (R168). -/
def execStubU (s : State) : Host.Outcome State Fault Refusal := stubCommand (some 0x55#8) s

/-- `s` (R169). -/
def execStubLowerS (s : State) : Host.Outcome State Fault Refusal := stubCommand (some 0x73#8) s

/-- `W` (R170). -/
def execStubW (s : State) : Host.Outcome State Fault Refusal := stubCommand (some 0x57#8) s

/-- `M` (R171). -/
def execStubM (s : State) : Host.Outcome State Fault Refusal := stubCommand (some 0x4D#8) s

/-- `m` (R172). -/
def execStubLowerM (s : State) : Host.Outcome State Fault Refusal := stubCommand (some 0x6D#8) s

/-- `X` (R173). -/
def execStubX (s : State) : Host.Outcome State Fault Refusal := stubCommand (some 0x58#8) s

/-- `Q` (R174). -/
def execStubQ (s : State) : Host.Outcome State Fault Refusal := stubCommand (some 0x51#8) s

/-- The empty line, bare CR (R175). -/
def execEmptyLine (s : State) : Host.Outcome State Fault Refusal := stubCommand none s

/-- Any other first byte (R176). -/
def execOtherLine (first : Byte) (s : State) : Host.Outcome State Fault Refusal := stubCommand (some first) s

end Sys2Proof.Machine
end

