-- ==== Sys2Proof/Machine/RxEncode.lean ====
section
/-! DEFINITION. The output forms `t T r R d D b B` of received frames (43_rx_encode.md R180 to R190): the line of the
frame, with the timestamp suffix when the channel's flag is set, handed to the write of phase 1. -/

namespace Sys2Proof.Machine

/-- Output form `t` (R182). -/
def execRxStdData (op : FrameOps) (s : State) : Host.Outcome State Fault Refusal :=
  s.encodeRx (op.toFrame false false false false)

/-- Output form `T` (R183). -/
def execRxExtData (op : FrameOps) (s : State) : Host.Outcome State Fault Refusal :=
  s.encodeRx (op.toFrame true false false false)

/-- Output form `r` (R184). -/
def execRxStdRemote (op : FrameOps) (s : State) : Host.Outcome State Fault Refusal :=
  s.encodeRx (op.toFrame false true false false)

/-- Output form `R` (R185). -/
def execRxExtRemote (op : FrameOps) (s : State) : Host.Outcome State Fault Refusal :=
  s.encodeRx (op.toFrame true true false false)

/-- Output form `d` (R186). -/
def execRxStdFd (op : FrameOps) (s : State) : Host.Outcome State Fault Refusal :=
  s.encodeRx (op.toFrame false false true false)

/-- Output form `D` (R187). -/
def execRxExtFd (op : FrameOps) (s : State) : Host.Outcome State Fault Refusal :=
  s.encodeRx (op.toFrame true false true false)

/-- Output form `b` (R188). -/
def execRxStdFdBrs (op : FrameOps) (s : State) : Host.Outcome State Fault Refusal :=
  s.encodeRx (op.toFrame false false true true)

/-- Output form `B` (R189). -/
def execRxExtFdBrs (op : FrameOps) (s : State) : Host.Outcome State Fault Refusal :=
  s.encodeRx (op.toFrame true false true true)

end Sys2Proof.Machine
end

