-- ==== Sys2Proof/Machine/Transmit.lean ====
section
/-! DEFINITION. The transmit commands `t T r R d D b B` (41_transmit_commands.md R140 to R148): the command returns
`Send(f)`, carried out by the dispatch (R149), or is NACKed with no state change. -/

namespace Sys2Proof.Machine

/-- Step 8 of `TxDecode` (R140), shared by the eight commands: `Send` of the frame, or NACK. -/
def sendFrame (ext rtr fd brs : Bool) (op : Arg FrameOps) (s : State) : Host.Outcome State Fault Refusal :=
  match op with
  | .ok o => .next (s.act (.send (o.toFrame ext rtr fd brs)))
  | .bad why => .next (s.raiseNack why)

/-- `t` (R141). -/
def execTxStdData (op : Arg FrameOps) (s : State) : Host.Outcome State Fault Refusal :=
  sendFrame false false false false op s

/-- `T` (R142). -/
def execTxExtData (op : Arg FrameOps) (s : State) : Host.Outcome State Fault Refusal :=
  sendFrame true false false false op s

/-- `r` (R143). -/
def execTxStdRemote (op : Arg FrameOps) (s : State) : Host.Outcome State Fault Refusal :=
  sendFrame false true false false op s

/-- `R` (R144). -/
def execTxExtRemote (op : Arg FrameOps) (s : State) : Host.Outcome State Fault Refusal :=
  sendFrame true true false false op s

/-- `d` (R145). -/
def execTxStdFd (op : Arg FrameOps) (s : State) : Host.Outcome State Fault Refusal :=
  sendFrame false false true false op s

/-- `D` (R146). -/
def execTxExtFd (op : Arg FrameOps) (s : State) : Host.Outcome State Fault Refusal :=
  sendFrame true false true false op s

/-- `b` (R147). -/
def execTxStdFdBrs (op : Arg FrameOps) (s : State) : Host.Outcome State Fault Refusal :=
  sendFrame false false true true op s

/-- `B` (R148). -/
def execTxExtFdBrs (op : Arg FrameOps) (s : State) : Host.Outcome State Fault Refusal :=
  sendFrame true false true true op s

end Sys2Proof.Machine
end

