-- ==== Sys2Proof/Machine/Dispatch.lean ====
section
/-! DEFINITION. exec: one arm per constructor of Instr, each one call of the instruction's meaning. -/

namespace Sys2Proof.Machine

def exec (i : Instr) (s : State) : Host.Outcome State Fault Refusal :=
  match i with
  | .openChannel => Sys2Proof.Machine.execOpenChannel s
  | .closeChannel => Sys2Proof.Machine.execCloseChannel s
  | .setBitrate arg => Sys2Proof.Machine.execSetBitrate arg s
  | .setDataRate arg => Sys2Proof.Machine.execSetDataRate arg s
  | .setTimestamp arg => Sys2Proof.Machine.execSetTimestamp arg s
  | .txStdData op => Sys2Proof.Machine.execTxStdData op s
  | .txExtData op => Sys2Proof.Machine.execTxExtData op s
  | .txStdRemote op => Sys2Proof.Machine.execTxStdRemote op s
  | .txExtRemote op => Sys2Proof.Machine.execTxExtRemote op s
  | .txStdFd op => Sys2Proof.Machine.execTxStdFd op s
  | .txExtFd op => Sys2Proof.Machine.execTxExtFd op s
  | .txStdFdBrs op => Sys2Proof.Machine.execTxStdFdBrs op s
  | .txExtFdBrs op => Sys2Proof.Machine.execTxExtFdBrs op s
  | .querySoftware => Sys2Proof.Machine.execQuerySoftware s
  | .queryHardware => Sys2Proof.Machine.execQueryHardware s
  | .querySerial => Sys2Proof.Machine.execQuerySerial s
  | .queryStatus => Sys2Proof.Machine.execQueryStatus s
  | .stubL => Sys2Proof.Machine.execStubL s
  | .stubA => Sys2Proof.Machine.execStubA s
  | .stubP => Sys2Proof.Machine.execStubP s
  | .stubU => Sys2Proof.Machine.execStubU s
  | .stubLowerS => Sys2Proof.Machine.execStubLowerS s
  | .stubW => Sys2Proof.Machine.execStubW s
  | .stubM => Sys2Proof.Machine.execStubM s
  | .stubLowerM => Sys2Proof.Machine.execStubLowerM s
  | .stubX => Sys2Proof.Machine.execStubX s
  | .stubQ => Sys2Proof.Machine.execStubQ s
  | .emptyLine => Sys2Proof.Machine.execEmptyLine s
  | .otherLine first => Sys2Proof.Machine.execOtherLine first s
  | .rxStdData op => Sys2Proof.Machine.execRxStdData op s
  | .rxExtData op => Sys2Proof.Machine.execRxExtData op s
  | .rxStdRemote op => Sys2Proof.Machine.execRxStdRemote op s
  | .rxExtRemote op => Sys2Proof.Machine.execRxExtRemote op s
  | .rxStdFd op => Sys2Proof.Machine.execRxStdFd op s
  | .rxExtFd op => Sys2Proof.Machine.execRxExtFd op s
  | .rxStdFdBrs op => Sys2Proof.Machine.execRxStdFdBrs op s
  | .rxExtFdBrs op => Sys2Proof.Machine.execRxExtFdBrs op s

end Sys2Proof.Machine
end

