-- ==== Sys2Proof/Machine/Bridge.lean ====
section
/-! DEFINITION. The bridge loop (46_bridge_loop.md): the micro-steps of `BRIDGE`, the environment's events, and what one
event of the schedule does. -/

namespace Sys2Proof.Machine

/-! ## The sequencer's moves -/

/-- `N_SLOTS` of the channel being served. -/
def State.nSlots (s : State) : Nat := (s.chan s.seq.chan).slots.length

/-- Phase 1 of channel c begins with slot 0 (R240, R242). -/
def State.startPass (s : State) (c : Nat) : State := { s with seq := { chan := c, phase := .p1, slot := 0, sub := .ready } }

/-- Phase 1 goes on with the next slot (R242). -/
def State.nextSlot (s : State) : State := { s with seq := { s.seq with slot := s.seq.slot + 1, sub := .ready } }

/-- Phase 2 begins with `ReadLine` (R243). DESIGN CHOICE (log 44): `slot` keeps its value through phase 2, where no rule
reads it. -/
def State.startPhase2 (s : State) : State := { s with seq := { s.seq with phase := .p2, sub := .ready } }

/-- The pass ends: the next channel in ascending order (R240, `CH_ORDER`), or IDLE after the last (10_state.md R39). DESIGN
CHOICE (log 44): back in IDLE, `chan` and `slot` hold their reset values, where the spec says only that the sequencer
returns to IDLE. -/
def State.endPass (s : State) : State :=
  if s.seq.chan + 1 < s.chans.length then s.startPass (s.seq.chan + 1) else { s with seq := Sequencer.atRest }

/-! ## Phase 1: CAN to serial (R242) -/

/-- Step a: test the flag of the slot; past the last slot, phase 2. -/
def State.p1Test (s : State) : State :=
  if s.seq.slot < s.nSlots then
    if ((s.chan s.seq.chan).slot s.seq.slot).flag then s.withSub .clear else s.nextSlot
  else s.startPhase2

/-- Step b: clear the flag. -/
def State.p1Clear (s : State) : State := (s.modSlot s.seq.chan s.seq.slot RxSlot.clear).withSub (.copy [])

/-- Step c: copy the frame out. -/
def State.p1Copy (s : State) (earlier : List CanFrame) (d : CopyDraw) : State :=
  s.withSub (.encode (copyOut earlier ((s.chan s.seq.chan).slot s.seq.slot).frame d))

/-- Steps d and e: the output form of the frame, executed; a frame with none is refused. -/
def State.p1Encode (s : State) (g : CanFrame) : Host.Outcome State Fault Refusal :=
  match rxInstr g with
  | none => .refused .illFormedFrame
  | some i => exec i s

/-- Step f: write the line, then the next slot. -/
def State.p1Write (s : State) (out : List Byte) : State := (s.reply s.seq.chan out).nextSlot

/-! ## Phase 2: serial to CAN (R243 to R247) -/

/-- One iteration of `ReadLine` (R244). With both queues empty the read returns NoLine and the pass ends; with a
partial line and nothing queued it waits, for a byte or for the timeout. -/
def State.p2Read (s : State) : Host.Outcome State Fault Refusal :=
  match (s.chan s.seq.chan).serq, (s.chan s.seq.chan).lb with
  | b :: rest, lb =>
    if b = cr then .next ((s.setSerq s.seq.chan rest).withSub .decode)
    else if fitsLine (lb.length + 1) then .next ((s.setSerq s.seq.chan rest).setLb s.seq.chan (lb ++ [b]))
    else .refused .lineTooLong
  | [], [] => .next s.endPass
  | [], _ :: _ => .next s

/-- Decode the line in the line buffer and apply its command's rule (R243). -/
def State.p2Decode (s : State) : Host.Outcome State Fault Refusal :=
  match decode (s.chan s.seq.chan).lb with
  | .ok i => exec i s
  | .error .lineTooLong => .refused .lineTooLong

/-- The command is over: `LB[c] <- empty`, and the next `ReadLine` (R243, R246). -/
def State.endCommand (s : State) : State := (s.setLb s.seq.chan []).withSub .ready

/-- `Dispatch(c, act)` (R247). -/
def State.p2Dispatch (s : State) (a : Action) : State :=
  match a with
  | .ack => (s.reply s.seq.chan [cr]).endCommand
  | .nack => (s.reply s.seq.chan [bel]).endCommand
  | .reply bytes => (s.reply s.seq.chan bytes).endCommand
  | .send f => s.txIssue s.seq.chan f

/-- One poll of `TX_WAIT` (44_channel_state_machine.md R206); after the transmit nothing is written
(`ACK_AFTER_SEND`, 41_transmit_commands.md R149). -/
def State.p2TxWait (s : State) : State :=
  if (s.chan s.seq.chan).hw.txBusy then s else if ackAfterSend then s.act .ack else s.endCommand

/-! ## A turn of `BRIDGE` -/

/-- A turn in phase 1. -/
def State.phase1Turn (s : State) (d : CopyDraw) : Host.Outcome State Fault Refusal :=
  match s.seq.sub with
  | .ready => .next s.p1Test
  | .clear => .next s.p1Clear
  | .copy earlier => .next (s.p1Copy earlier d)
  | .encode g => s.p1Encode g
  | .write out => .next (s.p1Write out)
  | .decode => .next s
  | .dispatch _ => .next s
  | .txWait => .next s

/-- A turn in phase 2. -/
def State.phase2Turn (s : State) : Host.Outcome State Fault Refusal :=
  match s.seq.sub with
  | .ready => s.p2Read
  | .decode => s.p2Decode
  | .dispatch a => .next (s.p2Dispatch a)
  | .txWait => .next s.p2TxWait
  | .clear => .next s
  | .copy _ => .next s
  | .encode _ => .next s
  | .write _ => .next s

/-- One micro-step of `BRIDGE` (10_state.md R39): in IDLE it waits for `Sched`. -/
def State.bridgeTurn (s : State) (d : CopyDraw) : Host.Outcome State Fault Refusal :=
  if s.seq.chan < s.chans.length then
    match s.seq.phase with
    | .idle => .next s
    | .p1 => s.phase1Turn d
    | .p2 => s.phase2Turn
  else .fault .sequencerOutOfRange

/-! ## The environment's events -/

/-- `CanRxEvent` (45_frame_store_isr.md R220; contract K1): it occurs only while the interrupt is enabled and with a
view that raises it; the controller presents the view and the handler runs. -/
def State.onCanRx (s : State) (c : Nat) (v : RxView) : State :=
  if (s.chan c).hw.irqEn && v.raises ((s.chan c).slots.length - 2) then (s.modRx c (fun _ => v)).isr c else s

/-- `TxDone` (44_channel_state_machine.md R206): the transmit in flight is over. -/
def State.onTxDone (s : State) (c : Nat) : State :=
  if (s.chan c).hw.txBusy then s.modHw c (fun h => { h with txBusy := false }) else s

/-- `ReadLine(c)` waits with a partial line and nothing queued (46_bridge_loop.md R245). -/
def State.readWaits (s : State) (c : Nat) : Bool :=
  decide (s.seq.chan = c) && decide (s.seq.phase = .p2) && decide (s.seq.sub = .ready) &&
    !(s.chan c).lb.isEmpty && (s.chan c).serq.isEmpty

/-- `LineTimeout` (R245): the partial line is discarded without a reply and the pass ends. -/
def State.onLineTimeout (s : State) (c : Nat) : State := if s.readWaits c then (s.setLb c []).endPass else s

/-- `Sched` (R240): an iteration starts with the first channel; while one runs there is none to start. -/
def State.onSched (s : State) : State := if s.seq.phase = .idle then s.startPass 0 else s

/-- An event of channel c changes a configured channel only. -/
def State.onChannel (s : State) (c : Nat) (f : State → State) : State := if c < s.chans.length then f s else s

/-- What one event of the schedule does. An input its rule does not enable at this moment did not occur (log 2). -/
def takeEvent (e : Event) (s : State) : Host.Outcome State Fault Refusal :=
  match e with
  | .serIn c b => .next (s.onChannel c (fun t => t.setSerq c ((t.chan c).serq ++ [b])))
  | .canRx c v => .next (s.onChannel c (fun t => t.onCanRx c v))
  | .txDone c => .next (s.onChannel c (fun t => t.onTxDone c))
  | .busy c b => .next (s.onChannel c (fun t => t.modChan c (fun x => { x with busy := b })))
  | .tick c => .next (s.onChannel c (fun t => t.modCh c ChannelState.tick))
  | .lineTimeout c => .next (s.onChannel c (fun t => t.onLineTimeout c))
  | .sched => .next s.onSched
  | .setMode c m => .next (s.onChannel c (fun t => t.setMode c m))
  | .bridge d => s.bridgeTurn d

/-- One step: the schedule's first event; with an empty schedule no agent moves (log 1). -/
def stepOnce (s : State) : Host.Outcome State Fault Refusal :=
  match s.sched with
  | [] => .next s
  | e :: rest => takeEvent e { s with sched := rest }

/-- The line put where the next turn decodes it: in the line buffer of the channel served, with the sequencer at the
decode of phase 2 and a turn of `BRIDGE` first in the schedule (log 3). -/
def State.loadLine (s : State) (ln : List Byte) : State :=
  let s1 := s.setLb s.seq.chan ln
  { s1 with seq := { s1.seq with phase := .p2, sub := .decode }, sched := .bridge default :: s1.sched }

end Sys2Proof.Machine
end

