-- ==== Sys2Proof/Machine/Step.lean ====
section
/-! DEFINITION. step, and where it fetches. -/

namespace Sys2Proof.Machine

/-- One step of the machine: one event of the schedule (Bridge.lean). -/
def step (s : State) : Host.Outcome State Fault Refusal := stepOnce s

/-- s with the instruction of a table word where the next step fetches it (log 3). -/
def State.withFetchWord (s : State) (nbits w : Nat) : State := s.loadLine (tableLine nbits w)

end Sys2Proof.Machine
end

