-- ==== Sys2Proof/Safety.lean ====
section
/-! DEFINITION. What holds of every state a run reaches (the invariant the claims use), and the words claims use for
what may differ between two states. -/

namespace Sys2Proof.Machine

/-- The nominal bit rates `CH[c]` may hold (10_state.md R22): 0, never set, or one of the table. -/
def legalNominal (v : BitVec 32) : Prop := v = 0#32 ∨ v ∈ baudTable

/-- The data bit rates `CH[c]` may hold (10_state.md R23): the reset value or one of the four `Y` stores. -/
def legalData (c : Nat) (v : BitVec 32) : Prop := v = Config.fdRateReset c ∨ ∃ r, v = fdRate r

/-- What holds of channel c wherever the sequencer stands. -/
structure ChannelInv (c : Nat) (x : Channel) : Prop where
  /-- The identity is fixed at reset (10_state.md R21). -/
  identity : x.ch.index = c ∧ x.ch.hwHandle = c ∧ x.ch.irqVector = c
  /-- `N_SLOTS` slots (R36). -/
  slotCount : x.slots.length = Config.nSlots
  /-- FD stays enabled (R25). -/
  fdEnabled : x.ch.cfg.fdEnable = true
  /-- `is_open`, `HW.enabled` and `HW.irq_en` agree (44_channel_state_machine.md R207). -/
  openAgrees : x.hw.enabled = x.ch.isOpen ∧ x.hw.irqEn = x.ch.isOpen
  /-- Legal bit rates (10_state.md R22, R23). -/
  rates : legalNominal x.ch.cfg.nominalBitrate ∧ legalData c x.ch.cfg.dataBitrate
  /-- The line buffer holds at most `LINE_MAX` bytes (R38). -/
  lineFits : x.lb.length ≤ Config.lineMax
  /-- A flagged slot holds a frame with the payload its DLC announces (20_memory.md R71 G1; log 10). -/
  flaggedSized : ∀ i, (x.slot i).flag = true → frameSized (x.slot i).frame = true

/-- The sequencer is inside `ReadLine`, `Decode` or `Dispatch` of channel c. -/
def inCommand (q : Sequencer) (c : Nat) : Prop := q.phase = .p2 ∧ q.chan = c

/-- Phase and micro-step fit (10_state.md R39; 46_bridge_loop.md R240 to R243). -/
def sequencerInv (q : Sequencer) (x : Channel) : Prop :=
  match q.phase with
  | .idle => q = Sequencer.atRest
  | .p1 =>
    match q.sub with
    | .ready => True
    | .clear => q.slot < x.slots.length ∧ (x.slot q.slot).flag = true
    | .copy _ => q.slot < x.slots.length ∧ frameSized (x.slot q.slot).frame = true
    | .encode g => q.slot < x.slots.length ∧ frameSized g = true
    | .write _ => q.slot < x.slots.length
    | .decode => False
    | .dispatch _ => False
    | .txWait => False
  | .p2 =>
    match q.sub with
    | .ready => True
    | .decode => True
    | .dispatch _ => True
    | .txWait => True
    | .clear => False
    | .copy _ => False
    | .encode _ => False
    | .write _ => False

/-- The invariant of the machine: true at reset and kept by every step. -/
structure State.Inv (s : State) : Prop where
  /-- `N_CH` channels (10_state.md R20). -/
  chanCount : s.chans.length = Config.nCh
  /-- The sequencer names one of them, and a slot to test up to `N_SLOTS` (R39). -/
  inRange : s.seq.chan < s.chans.length ∧ s.seq.slot ≤ Config.nSlots
  channels : ∀ c, c < s.chans.length → ChannelInv c (s.chan c)
  sequencer : sequencerInv s.seq (s.chan s.seq.chan)
  /-- The line buffer is empty outside `ReadLine`, `Decode` and `Dispatch` of its channel (46_bridge_loop.md R246). -/
  lbEmpty : ∀ c, c < s.chans.length → ¬ inCommand s.seq c → (s.chan c).lb = []
  /-- A transmit is in flight only while `BRIDGE` waits for it (44_channel_state_machine.md R206). -/
  txBusyWaits : ∀ c, c < s.chans.length → (s.chan c).hw.txBusy = true → inCommand s.seq c ∧ s.seq.sub = .txWait

/-- The channel an event acts on: of a turn of `BRIDGE`, the channel the sequencer serves; none for `Sched`. -/
def State.eventChannel (s : State) : Event → Option Nat
  | .serIn c _ => some c
  | .canRx c _ => some c
  | .txDone c => some c
  | .busy c _ => some c
  | .tick c => some c
  | .lineTimeout c => some c
  | .sched => none
  | .setMode c _ => some c
  | .bridge _ => some s.seq.chan

/-- The channel an output belongs to. -/
def Output.channel : Output → Nat
  | .serOut c _ => c
  | .canInit c _ => c
  | .canDeinit c => c
  | .rxIrqClassEnable c => c
  | .rxIrqClassDisable c => c
  | .irqEnable c _ => c
  | .irqDisable c => c
  | .canTx c _ => c
  | .hwRead c _ => c
  | .clearNdat c _ => c
  | .clearIrqFlags c _ => c

/-- The outputs of one run of the handler for a view, in order (45_frame_store_isr.md R221 to R225). -/
def isrOutputs (c : Nat) (v : RxView) : List Output :=
  (if v.pending.f0n then [.hwRead c .fifo0] else []) ++ (if v.pending.f1n then [.hwRead c .fifo1] else []) ++
    (if v.pending.drx then
      (List.range v.ded.length).flatMap
        (fun k => if (v.ded.getD k none).isSome then [.hwRead c (.dedicated k), .clearNdat c k] else [])
    else []) ++ [.clearIrqFlags c v.pending]

/-- Entry by entry, what a mixture of frames may be (20_memory.md R72): every field is that of one of the frames, and
every payload byte is that of one of the frames, or any byte where one of them holds none. -/
def isMixture (frames : List CanFrame) (g : CanFrame) : Prop :=
  (∃ f ∈ frames, g.id = f.id) ∧ (∃ f ∈ frames, g.ext = f.ext) ∧ (∃ f ∈ frames, g.rtr = f.rtr) ∧
    (∃ f ∈ frames, g.fd = f.fd) ∧ (∃ f ∈ frames, g.brs = f.brs) ∧ (∃ f ∈ frames, g.dlc = f.dlc) ∧
    g.data.length = flen g ∧
    ∀ (k : Nat) (b : Byte), g.data[k]? = some b → ∃ f ∈ frames, f.data[k]? = some b ∨ f.data[k]? = none

/-- n steps, stopping at the first fault or refusal. -/
def steps : Nat → State → Host.Outcome State Fault Refusal
  | 0, s => .next s
  | n + 1, s =>
    match step s with
    | .next t => steps n t
    | .fault r => .fault r
    | .refused r => .refused r

/-- The next step is a turn of `BRIDGE` that decodes, on channel c, a line whose first byte is b. -/
def State.decodes (s : State) (c : Nat) (b : Byte) : Prop :=
  (∃ d rest, s.sched = .bridge d :: rest) ∧ s.seq.chan = c ∧ s.seq.phase = .p2 ∧ s.seq.sub = .decode ∧
    (s.chan c).lb.head? = some b

/-- None of the next n steps decodes such a line. -/
def State.noneDecoded (s : State) (n c : Nat) (b : Byte) : Prop := ∀ m < n, ∀ t, steps m s = .next t → ¬ t.decodes c b

/-- `BRIDGE` is at this place: it serves channel c, which is configured and holds x, in this phase, at this micro-step. -/
structure State.atPlace (s : State) (c : Nat) (x : Channel) (p : Phase) (m : Sub) : Prop where
  chan : s.seq.chan = c
  configured : c < s.chans.length
  holds : s.chan c = x
  phase : s.seq.phase = p
  sub : s.seq.sub = m

/-- Channel c holds x instead; every other field is as before. -/
def State.withChan (s : State) (c : Nat) (x : Channel) : State := { s with chans := s.chans.set c x }

/-- The byte is one of `0` to `9`, `A` to `F`. -/
def isUpperHex (b : Byte) : Prop := (0x30 ≤ b.toNat ∧ b.toNat ≤ 0x39) ∨ (0x41 ≤ b.toNat ∧ b.toNat ≤ 0x46)

/-- The transmit command of these tags with this operand (41_transmit_commands.md R141 to R148). -/
def txCommand (ext rtr fd brs : Bool) (op : Arg FrameOps) : Option Instr :=
  match ext, rtr, fd, brs with
  | false, false, false, false => some (.txStdData op)
  | true, false, false, false => some (.txExtData op)
  | false, true, false, false => some (.txStdRemote op)
  | true, true, false, false => some (.txExtRemote op)
  | false, false, true, false => some (.txStdFd op)
  | true, false, true, false => some (.txExtFd op)
  | false, false, true, true => some (.txStdFdBrs op)
  | true, false, true, true => some (.txExtFdBrs op)
  | _, true, true, _ => none
  | _, _, false, true => none

/-- What a line must hold for the operands o under these tags (41_transmit_commands.md R140), each clause one check. -/
structure operandsOf (ln : List Byte) (ext rtr fd : Bool) (o : FrameOps) : Prop where
  /-- Steps 1 to 3: the ID field, within its limit. -/
  id : hexfield ln 1 (if ext then 8 else 3) = some o.id.toNat ∧ o.id.toNat ≤ (if ext then 0x1FFFFFFF else 0x7FF)
  /-- Step 4: the DLC character. -/
  dlc : dlcCode (lineAt ln (if ext then 9 else 4)) = some o.dlc
  /-- Step 5: at most 8 bytes on a classic frame. -/
  classic : fd = false → dlcLen o.dlc ≤ 8
  /-- Step 7: one byte for every two digits, high nibble first; none on a remote frame. -/
  count : o.data.length = if rtr then 0 else dlcLen o.dlc
  digits : ∀ (j : Nat) (b : Byte), o.data[j]? = some b →
    hexval (lineAt ln ((if ext then 10 else 5) + 2 * j)) < 16 ∧
      hexval (lineAt ln ((if ext then 10 else 5) + 2 * j + 1)) < 16 ∧
      b.toNat = hexval (lineAt ln ((if ext then 10 else 5) + 2 * j)) * 16 +
        hexval (lineAt ln ((if ext then 10 else 5) + 2 * j + 1))

/-- The frame the handler writes to slot i for a view, if it writes that slot (45_frame_store_isr.md R222 to R224): FIFO 0
to slot 0, FIFO 1 to slot 1, dedicated buffer k to slot 2 + k. -/
def written (v : RxView) (i : Nat) : Option HwFrame :=
  match i with
  | 0 => if v.pending.f0n then v.fifo0.head? else none
  | 1 => if v.pending.f1n then v.fifo1.head? else none
  | k + 2 => if v.pending.drx then v.ded.getD k none else none

/-- The controller's receive side after the handler has served a view (20_memory.md R67, 45_frame_store_isr.md R225). -/
def served (v : RxView) : RxView :=
  { pending := { f0n := false, f1n := false, drx := false },
    fifo0 := if v.pending.f0n then v.fifo0.tail else v.fifo0,
    fifo1 := if v.pending.f1n then v.fifo1.tail else v.fifo1,
    ded := if v.pending.drx then List.replicate v.ded.length none else v.ded }

end Sys2Proof.Machine
end

