-- ==== Sys2Proof/Certificates/Slice0/Obligations.lean ====
section
/-! DEFINITION. The statements for the provers. A statement whose clauses rest on a decision the spec marks as its own
(D1 to D33), on an inference it marks, or on the model's log says so in its docstring. -/

open Sys2Proof Sys2Proof.Machine

/-! ## The codec -/

/-- 30_encoding.md R101 and R103: the sixteen DLC characters with their codes and byte counts; any other input, lowercase
included, gives the sentinel and has no code; a code is `hexval` restricted to uppercase. -/
def Obligations.DecodeDlcTable : Prop :=
  (∀ row ∈ ([(0x30#8, 0, 0), (0x31#8, 1, 1), (0x32#8, 2, 2), (0x33#8, 3, 3), (0x34#8, 4, 4), (0x35#8, 5, 5),
      (0x36#8, 6, 6), (0x37#8, 7, 7), (0x38#8, 8, 8), (0x39#8, 9, 12), (0x41#8, 10, 16), (0x42#8, 11, 20),
      (0x43#8, 12, 24), (0x44#8, 13, 32), (0x45#8, 14, 48), (0x46#8, 15, 64)] : List (Byte × Nat × Nat)),
    decodeDlc (some row.1) = row.2.2 ∧ dlcCode (some row.1) = some (BitVec.ofNat 4 row.2.1) ∧
      dlcLen (BitVec.ofNat 4 row.2.1) = row.2.2) ∧
  (∀ x : Byte, ¬ isUpperHex x → decodeDlc (some x) = 0xFF ∧ dlcCode (some x) = none) ∧
  (decodeDlc none = 0xFF ∧ dlcCode none = none) ∧
  (∀ (x : Byte) (d : BitVec 4), dlcCode (some x) = some d → hexval (some x) = d.toNat)

/-- 30_encoding.md R102: `EncodeDLC` inverts `DecodeDLC` in both directions, and the character of a code is its uppercase
hex digit. -/
def Obligations.DlcRoundTrip : Prop :=
  (∀ n ∈ [0, 1, 2, 3, 4, 5, 6, 7, 8, 12, 16, 20, 24, 32, 48, 64],
    ∃ x, encodeDlc n = some x ∧ decodeDlc (some x) = n) ∧
  (∀ x : Byte, decodeDlc (some x) ≠ 0xFF → encodeDlc (decodeDlc (some x)) = some x) ∧
  (∀ d : BitVec 4, encodeDlc (dlcLen d) = some (hexDigit d.toNat))

/-- 30_encoding.md R99: `hexval` by its three ranges, 16 for every other byte and for an absent character. R100: a field
of n hex digits reads as the number those digits write, below 16^n; one character that is no digit, or is absent, makes
the field FAIL. That lowercase letters are digits is decision D4 (log 14), that an absent character reads as no digit is
decision D7 (log 43). -/
def Obligations.HexfieldValue : Prop :=
  (∀ x : Byte, hexval (some x) =
    if 0x30 ≤ x.toNat ∧ x.toNat ≤ 0x39 then x.toNat - 0x30
    else if 0x41 ≤ x.toNat ∧ x.toNat ≤ 0x46 then x.toNat - 0x41 + 10
    else if 0x61 ≤ x.toNat ∧ x.toNat ≤ 0x66 then x.toNat - 0x61 + 10
    else 16) ∧
  hexval none = 16 ∧
  ∀ (line : List Byte) (off n : Nat),
    ((∀ k < n, hexval (lineAt line (off + k)) < 16) →
      ∃ v, hexfield line off n = some v ∧ v < 16 ^ n ∧
        ∀ k < n, v / 16 ^ (n - 1 - k) % 16 = hexval (lineAt line (off + k))) ∧
    ((∃ k < n, 16 ≤ hexval (lineAt line (off + k))) → hexfield line off n = none)

/-- 30_encoding.md R105: `HEX(n, v)` has n characters, character k is the digit `(v >> 4(n-1-k)) mod 16`, and reading the
string as a hex field gives v mod 16^n back. The case of the letters is decision D17. -/
def Obligations.HexString : Prop :=
  ∀ (n v : Nat), (hexStr n v).length = n ∧
    (∀ (k : Nat) (b : Byte), (hexStr n v)[k]? = some b →
      isUpperHex b ∧ hexval (some b) = (v >>> (4 * (n - 1 - k))) % 16) ∧
    hexfield (hexStr n v) 0 n = some (v % 16 ^ n)

/-- 30_encoding.md R104: n payload bytes from offset p, byte j from the characters at p + 2j and p + 2j + 1, high nibble
first; none when one of them is no digit or is absent. -/
def Obligations.PayloadAssembly : Prop :=
  ∀ (line : List Byte) (p n : Nat),
    (∀ data, payloadAt line p n = some data → data.length = n ∧ ∀ (j : Nat) (b : Byte), data[j]? = some b →
      b.toNat = hexval (lineAt line (p + 2 * j)) * 16 + hexval (lineAt line (p + 2 * j + 1))) ∧
    (payloadAt line p n = none ↔
      ∃ j < n, 16 ≤ hexval (lineAt line (p + 2 * j)) ∨ 16 ≤ hexval (lineAt line (p + 2 * j + 1)))

/-- The command map of 30_encoding.md R92 for the commands without operands, whatever follows the first byte (R110,
decision D8), and for every first byte no row names (42_query_stub_commands.md R176). -/
def Obligations.CommandMap : Prop :=
  (∀ row ∈ ([(0x4F#8, .openChannel), (0x43#8, .closeChannel), (0x56#8, .querySoftware), (0x76#8, .queryHardware),
      (0x4E#8, .querySerial), (0x46#8, .queryStatus), (0x4C#8, .stubL), (0x41#8, .stubA), (0x50#8, .stubP),
      (0x55#8, .stubU), (0x73#8, .stubLowerS), (0x57#8, .stubW), (0x4D#8, .stubM), (0x6D#8, .stubLowerM),
      (0x58#8, .stubX), (0x51#8, .stubQ)] : List (Byte × Instr)),
    ∀ rest : List Byte, rest.length + 1 ≤ Config.lineMax → decode (row.1 :: rest) = .ok row.2) ∧
  (∀ (b : Byte) (rest : List Byte), b ∉ namedBytes → rest.length + 1 ≤ Config.lineMax →
    decode (b :: rest) = .ok (.otherLine b)) ∧
  decode [] = .ok .emptyLine

/-- The arguments of `S`, `Y`, `Z` (40_control_commands.md R132 to R134): the characters that are one, with what they
stand for; any other character, or none, is malformed, which is decisions D9 and D7 (log 43); the bytes after the argument are
ignored, which is decision D8 (log 17). The polarity of `Z` is decision D10 (log 20). -/
def Obligations.ControlArguments : Prop :=
  (∀ (a : Byte) (rest : List Byte), rest.length + 2 ≤ Config.lineMax →
    (∀ k : Fin 9, a.toNat = 0x30 + k.val → decode (0x53#8 :: a :: rest) = .ok (.setBitrate (.ok k))) ∧
    (a.toNat < 0x30 ∨ 0x38 < a.toNat → decode (0x53#8 :: a :: rest) = .ok (.setBitrate (.bad .arg))) ∧
    (∀ row ∈ ([(0x32#8, .m2), (0x34#8, .m4), (0x35#8, .m5), (0x38#8, .m8)] : List (Byte × FdRate)),
      a = row.1 → decode (0x59#8 :: a :: rest) = .ok (.setDataRate (.ok row.2))) ∧
    (a ∉ [0x32#8, 0x34#8, 0x35#8, 0x38#8] → decode (0x59#8 :: a :: rest) = .ok (.setDataRate (.bad .arg))) ∧
    (a = 0x31#8 → decode (0x5A#8 :: a :: rest) = .ok (.setTimestamp (.ok true))) ∧
    (a = 0x30#8 → decode (0x5A#8 :: a :: rest) = .ok (.setTimestamp (.ok false))) ∧
    (a ≠ 0x31#8 → a ≠ 0x30#8 → decode (0x5A#8 :: a :: rest) = .ok (.setTimestamp (.bad .arg)))) ∧
  decode [0x53#8] = .ok (.setBitrate (.bad .arg)) ∧ decode [0x59#8] = .ok (.setDataRate (.bad .arg)) ∧
  decode [0x5A#8] = .ok (.setTimestamp (.bad .arg))

/-- `TxDecode` (41_transmit_commands.md R140 to R148): a line of a transmit command decodes to the operands o exactly
when each check of R140 holds of them, and otherwise to a malformed operand. The limits of steps 3 and 5 and the
treatment of missing characters are decisions D5, D6, D7 (log 15, 16, 43); lowercase digits are decision D4 (log 14); that
bytes after the fields are ignored (R110) is decision D8 (log 17). -/
def Obligations.TransmitDecodeExact : Prop :=
  ∀ (ext rtr fd brs : Bool) (ch : Byte), cmdChar ext rtr fd brs = some ch →
    ∀ rest : List Byte, rest.length + 1 ≤ Config.lineMax →
      (∀ (o : FrameOps) (i : Instr), txCommand ext rtr fd brs (.ok o) = some i →
        (decode (ch :: rest) = .ok i ↔ operandsOf (ch :: rest) ext rtr fd o)) ∧
      ((∀ o, ¬ operandsOf (ch :: rest) ext rtr fd o) →
        ∃ why i, txCommand ext rtr fd brs (.bad why) = some i ∧ decode (ch :: rest) = .ok i)

/-- 10_state.md R32: every frame the decoder hands to `Send` is well formed, and holds the payload its DLC announces.
The spec derives it from decisions D5 and D6. -/
def Obligations.DecodedFramesWellFormed : Prop :=
  ∀ (line : List Byte) (i : Instr) (s t : State) (f : CanFrame),
    decode line = .ok i → exec i s = .next t → t.seq.sub = .dispatch (.send f) →
      frameWf f = true ∧ f.data.length = flen f

/-- 30_encoding.md R109, 46_bridge_loop.md R251: every line that fits the line buffer decodes to a command, never to an
output form, and its execution returns an action; only what the command's rule names is left open here. The
classes I6 and I7 are decisions D5 and D6. -/
def Obligations.EveryLineIsAnswered : Prop :=
  ∀ line : List Byte, line.length ≤ Config.lineMax →
    ∃ i, decode line = .ok i ∧ i.isOutput = false ∧
      ∀ s, ∃ a t, exec i s = .next t ∧ t.seq = { s.seq with sub := .dispatch a } ∧ t.sched = s.sched

/-- A few lines written out byte by byte from 30_encoding.md and 95_test_vectors.md, one per family. -/
def Obligations.DecodeAgreesOnWords : Prop :=
  decode [0x4F#8] = .ok .openChannel ∧
  decode [0x53#8, 0x36#8] = .ok (.setBitrate (.ok 6)) ∧
  decode [0x74#8, 0x31#8, 0x32#8, 0x33#8, 0x34#8, 0x44#8, 0x45#8, 0x41#8, 0x44#8, 0x42#8, 0x45#8, 0x45#8, 0x46#8] =
    .ok (.txStdData (.ok { id := 0x123#29, dlc := 4#4, data := [0xDE#8, 0xAD#8, 0xBE#8, 0xEF#8] })) ∧
  decode [0x52#8, 0x31#8, 0x41#8, 0x42#8, 0x43#8, 0x44#8, 0x45#8, 0x46#8, 0x30#8, 0x30#8] =
    .ok (.txExtRemote (.ok { id := 0x1ABCDEF0#29, dlc := 0#4, data := [] })) ∧
  decode [0x62#8, 0x37#8, 0x45#8, 0x38#8, 0x32#8, 0x31#8, 0x31#8, 0x46#8, 0x46#8] =
    .ok (.txStdFdBrs (.ok { id := 0x7E8#29, dlc := 2#4, data := [0x11#8, 0xFF#8] })) ∧
  decode [0x56#8] = .ok .querySoftware ∧ decode [0x4C#8] = .ok .stubL ∧ decode [] = .ok .emptyLine ∧
  encodeFrame { id := 0x7E8#29, ext := false, rtr := false, fd := true, brs := true, dlc := 2#4, data := [0x11#8, 0xFF#8] }
      true 0x0003FFFE =
    [0x62#8, 0x37#8, 0x45#8, 0x38#8, 0x32#8, 0x31#8, 0x31#8, 0x46#8, 0x46#8, 0x46#8, 0x46#8, 0x46#8, 0x45#8, 0x0D#8]

/-- Decode and encode agree: the canonical line of every well-formed command decodes to that command, with every operand
at every value the encoding admits (30_encoding.md R92 to R96). -/
def Obligations.DecodeEncodeAgree : Prop :=
  ∀ i : Instr, i.wellFormed = true → i.isOutput = false → decode (encode i) = .ok i

/-- 41_transmit_commands.md R150, first law: the line written for a well-formed frame, CR removed, decodes to a command
that sends the same frame; with the timestamp flag set this needs the longer line to fit the line buffer, and the
digits of the suffix to be trailing bytes (decision D8). -/
def Obligations.EncodedFrameDecodesToItself : Prop :=
  ∀ (f : CanFrame) (tsflag : Bool) (ts : Nat), frameWf f = true → f.data.length = flen f →
    (tsflag = true → (encodeFrame f tsflag ts).length ≤ Config.lineMax + 1) →
    ∃ i g, decode (encodeFrame f tsflag ts).dropLast = .ok i ∧ sameFrame g f = true ∧
      ∀ s, exec i s = .next { s with seq := { s.seq with sub := .dispatch (.send g) } }

/-- 41_transmit_commands.md R150, second law: a line with uppercase digits and no trailing bytes that decodes to `Send(f)`
is, with a CR, the line the encoder writes for f with the timestamp flag clear. -/
def Obligations.CanonicalLineEncodesBack : Prop :=
  ∀ (line : List Byte) (i : Instr) (f : CanFrame) (s t : State) (ts : Nat),
    decode line = .ok i → exec i s = .next t → t.seq.sub = .dispatch (.send f) →
    (∀ b ∈ line.tail, isUpperHex b) → line.length = (if f.ext then 10 else 5) + 2 * flen f →
    encodeFrame f false ts = line ++ [cr]

/-- 43_rx_encode.md R191 (a) to (c): what every line written for a well-formed frame is made of. The rule is an inference
of the spec. -/
def Obligations.EncodedLineProperties : Prop :=
  ∀ (f : CanFrame) (tsflag : Bool) (ts : Nat), frameWf f = true → f.data.length = flen f →
    (encodeFrame f tsflag ts).getLast? = some cr ∧ cr ∉ (encodeFrame f tsflag ts).dropLast ∧
      bel ∉ encodeFrame f tsflag ts ∧
      (∀ b ∈ (encodeFrame f tsflag ts).tail.dropLast, isUpperHex b) ∧
      (encodeFrame f tsflag ts).length =
        1 + (if f.ext then 8 else 3) + 1 + 2 * flen f + (if tsflag then 4 else 0) + 1

/-! ## Control commands -/

/-- `O` (40_control_commands.md R130, 44_channel_state_machine.md R201): the whole next state. The mode becomes NORMAL on a
closed channel (decision D14); an open channel is closed first; a bit rate of 0 becomes 500000 (decision D15); the
controller is configured and its interrupt enabled; the action is Ack (D13). -/
def Obligations.OpenCommand : Prop :=
  ∀ (s : State) (c : Nat) (x : Channel) (g : ChannelConfig),
    s.seq.chan = c → c < s.chans.length → s.chan c = x →
    g = { x.ch.cfg with
      nominalBitrate := if x.ch.cfg.nominalBitrate = 0#32 then 500000#32 else x.ch.cfg.nominalBitrate,
      mode := if x.ch.isOpen then x.ch.cfg.mode else .normal } →
    exec .openChannel s = .next
      { s with
        chans := s.chans.set c
          { x with ch := { x.ch with cfg := g, isOpen := true }, hw := { x.hw with enabled := true, irqEn := true } },
        seq := { s.seq with sub := .dispatch .ack },
        trace := s.trace ++ (if x.ch.isOpen then [.canDeinit c, .rxIrqClassDisable c, .irqDisable c] else []) ++
          [.canInit c g, .rxIrqClassEnable c, .irqEnable c Config.irqPriority] }

/-- `C` (40_control_commands.md R131, 44_channel_state_machine.md R202): the whole next state, on an open channel as on a
closed one (decision D22). -/
def Obligations.CloseCommand : Prop :=
  ∀ (s : State) (c : Nat) (x : Channel), s.seq.chan = c → c < s.chans.length → s.chan c = x →
    exec .closeChannel s = .next
      { s with
        chans := s.chans.set c
          { x with ch := { x.ch with isOpen := false }, hw := { x.hw with enabled := false, irqEn := false } },
        seq := { s.seq with sub := .dispatch .ack },
        trace := s.trace ++ [.canDeinit c, .rxIrqClassDisable c, .irqDisable c] }

/-- `S` (40_control_commands.md R132, 30_encoding.md R106, 44_channel_state_machine.md R203): the rate of the index is stored
whether or not the channel is open (decision D12); a malformed argument changes nothing and is NACKed (D9). -/
def Obligations.BitrateCommand : Prop :=
  ∀ (s : State) (c : Nat) (x : Channel), s.seq.chan = c → c < s.chans.length → s.chan c = x →
    (∀ k : Fin 9, exec (.setBitrate (.ok k)) s = .next
      { s with
        chans := s.chans.set c { x with ch := { x.ch with cfg := { x.ch.cfg with nominalBitrate :=
          [10000#32, 20000#32, 50000#32, 100000#32, 125000#32, 250000#32, 500000#32, 800000#32, 1000000#32].getD k.val 0#32 } } },
        seq := { s.seq with sub := .dispatch .ack } }) ∧
    (∀ why, exec (.setBitrate (.bad why)) s = .next { s with seq := { s.seq with sub := .dispatch .nack } })

/-- `Y` (40_control_commands.md R133, 30_encoding.md R107, 44_channel_state_machine.md R204): the data rate is stored in bits
per second whether or not the channel is open (decision D12); a malformed argument is NACKed (D9). -/
def Obligations.DataRateCommand : Prop :=
  ∀ (s : State) (c : Nat) (x : Channel), s.seq.chan = c → c < s.chans.length → s.chan c = x →
    (∀ row ∈ ([(.m2, 2000000#32), (.m4, 4000000#32), (.m5, 5000000#32), (.m8, 8000000#32)] : List (FdRate × BitVec 32)),
      exec (.setDataRate (.ok row.1)) s = .next
        { s with
          chans := s.chans.set c { x with ch := { x.ch with cfg := { x.ch.cfg with dataBitrate := row.2 } } },
          seq := { s.seq with sub := .dispatch .ack } }) ∧
    (∀ why, exec (.setDataRate (.bad why)) s = .next { s with seq := { s.seq with sub := .dispatch .nack } })

/-- `Z` (40_control_commands.md R134): the timestamp flag, and nothing else, in particular not the counter; a malformed
argument is NACKed (decision D9). -/
def Obligations.TimestampCommand : Prop :=
  ∀ (s : State) (c : Nat) (x : Channel), s.seq.chan = c → c < s.chans.length → s.chan c = x →
    (∀ on : Bool, exec (.setTimestamp (.ok on)) s = .next
      { s with
        chans := s.chans.set c { x with ch := { x.ch with flags := { timestamp := on } } },
        seq := { s.seq with sub := .dispatch .ack } }) ∧
    (∀ why, exec (.setTimestamp (.bad why)) s = .next { s with seq := { s.seq with sub := .dispatch .nack } })

/-- 44_channel_state_machine.md R201, R203, R204, R208: a rate that `S` or `Y` stores on a channel, open or not, emits
nothing and persists: after any run of n steps in which no turn decodes another `S` (for `Y`: another `Y`) on that
channel, an `O` on it emits a `CanInit` with that rate, the last but two of its outputs, and keeps it; no default replaces
a nominal rate. The other rate is the one held before (a nominal one, if it was ever set), unless its own command came
between. That a rate is stored on an
open channel is decision D12 (log 19), the default of `O` decision D15 (log 21). -/
def Obligations.StoredRateReachesNextOpen : Prop :=
  ∀ (s t u w : State) (c n : Nat), s.seq.chan = c → c < s.chans.length →
    steps n t = .next u → u.seq.chan = c → exec .openChannel u = .next w →
    (∀ k : Fin 9, exec (.setBitrate (.ok k)) s = .next t → t.noneDecoded n c 0x53#8 →
      t.trace = s.trace ∧
      ∃ pre g, w.trace = pre ++ [.canInit c g, .rxIrqClassEnable c, .irqEnable c Config.irqPriority] ∧
        g.nominalBitrate = baud k ∧ g.nominalBitrate ≠ 0#32 ∧
        (t.noneDecoded n c 0x59#8 → g.dataBitrate = (s.chan c).ch.cfg.dataBitrate) ∧
        (w.chan c).ch.cfg = g ∧ (w.chan c).ch.isOpen = true) ∧
    (∀ r : FdRate, exec (.setDataRate (.ok r)) s = .next t → t.noneDecoded n c 0x59#8 →
      t.trace = s.trace ∧
      ∃ pre g, w.trace = pre ++ [.canInit c g, .rxIrqClassEnable c, .irqEnable c Config.irqPriority] ∧
        g.dataBitrate = fdRate r ∧
        (t.noneDecoded n c 0x53#8 → (s.chan c).ch.cfg.nominalBitrate ≠ 0#32 →
          g.nominalBitrate = (s.chan c).ch.cfg.nominalBitrate) ∧
        (w.chan c).ch.cfg = g ∧ (w.chan c).ch.isOpen = true)

/-- `SetMode` (44_channel_state_machine.md R205), from outside the command set (decision D33): stored on a closed channel,
an explicit no-op on an open one; no output either way. -/
def Obligations.SetModeGuard : Prop :=
  ∀ (s : State) (c : Nat) (m : Mode) (x : Channel) (rest : List Event), s.sched = .setMode c m :: rest →
    c < s.chans.length → s.chan c = x →
    (x.ch.isOpen = false → step s = .next
      { s with sched := rest, chans := s.chans.set c { x with ch := { x.ch with cfg := { x.ch.cfg with mode := m } } } }) ∧
    (x.ch.isOpen = true → step s = .next { s with sched := rest })

/-! ## Transmit commands -/

/-- The eight transmit commands (41_transmit_commands.md R141 to R148) write no state of the block: the action is `Send` of
the frame of the operands under the command's four tags, whether or not the channel is open; a malformed operand is
NACKed. -/
def Obligations.TransmitCommandsSend : Prop :=
  ∀ (s : State) (o : FrameOps) (why : NackCause),
    (∀ row ∈ ([(.txStdData, false, false, false, false), (.txExtData, true, false, false, false),
        (.txStdRemote, false, true, false, false), (.txExtRemote, true, true, false, false),
        (.txStdFd, false, false, true, false), (.txExtFd, true, false, true, false),
        (.txStdFdBrs, false, false, true, true), (.txExtFdBrs, true, false, true, true)] :
          List ((Arg FrameOps → Instr) × Bool × Bool × Bool × Bool)),
      exec (row.1 (.ok o)) s = .next
        { s with seq := { s.seq with sub := .dispatch (.send
          { id := o.id, ext := row.2.1, rtr := row.2.2.1, fd := row.2.2.2.1, brs := row.2.2.2.2, dlc := o.dlc,
            data := o.data }) } } ∧
      exec (row.1 (.bad why)) s = .next { s with seq := { s.seq with sub := .dispatch .nack } })

/-- Carrying out `Send` (41_transmit_commands.md R149, 44_channel_state_machine.md R206), whatever `is_open` is: one `CanTx`;
when the controller's `TxDone` comes the next turn ends the command, with the line buffer reset and no byte written
(`ACK_AFTER_SEND` false, decision D30; completion is the environment's, D24). -/
def Obligations.SendIsCarriedOut : Prop :=
  ∀ (s : State) (c : Nat) (x : Channel) (f : CanFrame) (d e : CopyDraw) (rest : List Event),
    s.atPlace c x .p2 (.dispatch (.send f)) → s.sched = .bridge d :: .txDone c :: .bridge e :: rest →
    steps 3 s = .next
      { s with
        chans := s.chans.set c { x with lb := [], hw := { x.hw with txBusy := false } },
        seq := { s.seq with sub := .ready }, sched := rest, trace := s.trace ++ [.canTx c f] }

/-- The transmit wait (44_channel_state_machine.md R206 (i), 46_bridge_loop.md R248): while the transmit is in flight any
number of turns of `BRIDGE` change nothing, so no channel is served. -/
def Obligations.TransmitWaitStalls : Prop :=
  ∀ (s : State) (c : Nat) (x : Channel) (ds : List CopyDraw) (rest : List Event),
    s.atPlace c x .p2 .txWait → x.hw.txBusy = true → s.sched = ds.map .bridge ++ rest →
    steps ds.length s = .next { s with sched := rest }

/-- `TxDone` and the transport's answer (10_state.md R40 (b), (f)): `TxDone` ends the transmit in flight; the busy flag is
whatever the transport answers. Nothing else of the machine changes. That `Busy` is a flag of the channel which an event
sets is the model's choice (log 37), and that a `TxDone` with no transmit in flight did not occur is log 2. -/
def Obligations.CollaboratorAnswers : Prop :=
  ∀ (s : State) (c : Nat) (x : Channel) (rest : List Event), c < s.chans.length → s.chan c = x →
    (s.sched = .txDone c :: rest → x.hw.txBusy = true → step s = .next
      { s with sched := rest, chans := s.chans.set c { x with hw := { x.hw with txBusy := false } } }) ∧
    (s.sched = .txDone c :: rest → x.hw.txBusy = false → step s = .next { s with sched := rest }) ∧
    (∀ b, s.sched = .busy c b :: rest → step s = .next { s with sched := rest, chans := s.chans.set c { x with busy := b } })

/-! ## Queries, stubs, dispatch -/

/-- `V`, `v`, `N`, `F` (42_query_stub_commands.md R160 to R163): the fixed reply, in every state and whatever bytes follow
the command character; no state is written; two turns of `BRIDGE` decode the line and write the reply, or drop it
whole when the transport is busy. That the bytes after the character are ignored is decision D8 (log 17), the busy flag is
the model's form of decision D26 (log 37), and the two turns are the model's grain (log 23). -/
def Obligations.QueryCommandsReply : Prop :=
  ∀ row ∈ ([(.querySoftware, 0x56#8, [0x56#8, 0x32#8, 0x34#8, 0x30#8, 0x31#8, 0x0D#8]),
      (.queryHardware, 0x76#8, [0x76#8, 0x32#8, 0x34#8, 0x30#8, 0x31#8, 0x0D#8]),
      (.querySerial, 0x4E#8, [0x4E#8, 0x30#8, 0x30#8, 0x30#8, 0x31#8, 0x0D#8]),
      (.queryStatus, 0x46#8, [0x46#8, 0x30#8, 0x30#8, 0x0D#8])] : List (Instr × Byte × List Byte)),
    (∀ s, exec row.1 s = .next { s with seq := { s.seq with sub := .dispatch (.reply row.2.2) } }) ∧
    (∀ (s : State) (c : Nat) (x : Channel) (trailing : List Byte) (d e : CopyDraw) (rest : List Event),
      s.atPlace c x .p2 .decode → x.lb = row.2.1 :: trailing → x.lb.length ≤ Config.lineMax →
      s.sched = .bridge d :: .bridge e :: rest →
      steps 2 s = .next
        { s with
          chans := s.chans.set c { x with lb := [] }, seq := { s.seq with sub := .ready }, sched := rest,
          trace := s.trace ++ if x.busy then [] else [.serOut c row.2.2] })

/-- The stub class (42_query_stub_commands.md R164 to R176): no state of the block changes and no controller call is made;
the action is `STUB_REPLY`, NACK for every one of them (decision D11, log 18). -/
def Obligations.StubCommandsNack : Prop :=
  ∀ s : State,
    (∀ i ∈ [Instr.stubL, .stubA, .stubP, .stubU, .stubLowerS, .stubW, .stubM, .stubLowerM, .stubX, .stubQ, .emptyLine],
      exec i s = .next { s with seq := { s.seq with sub := .dispatch .nack } }) ∧
    (∀ b, exec (.otherLine b) s = .next { s with seq := { s.seq with sub := .dispatch .nack } })

/-- `Dispatch` and `reply` (46_bridge_loop.md R246, R247, R249): CR, BEL or the reply is written whole, or dropped whole
when the transport is busy (decision D26); the line buffer is reset and `ReadLine` starts again. -/
def Obligations.DispatchReplies : Prop :=
  ∀ (s : State) (c : Nat) (x : Channel) (d : CopyDraw) (rest : List Event) (bytes : List Byte),
    ∀ row ∈ [(Action.ack, [0x0D#8]), (.nack, [0x07#8]), (.reply bytes, bytes)],
      s.atPlace c x .p2 (.dispatch row.1) → s.sched = .bridge d :: rest →
      step s = .next
        { s with
          chans := s.chans.set c { x with lb := [] }, seq := { s.seq with sub := .ready }, sched := rest,
          trace := s.trace ++ if x.busy then [] else [.serOut c row.2] }

/-! ## Output forms and phase 1 -/

/-- The eight output forms (43_rx_encode.md R181 to R189) of a well-formed frame: the leading character, 3 or 8 ID digits,
the DLC character, two digits a byte unless the frame is remote, the suffix when the flag is set, CR. No channel, no
output and no event changes: the line is handed to the write of phase 1. -/
def Obligations.OutputForms : Prop :=
  ∀ (s : State) (o : FrameOps) (y : Channel) (suffix : List Byte), s.chan s.seq.chan = y →
    suffix = (if y.ch.flags.timestamp then hexStr 4 (y.ch.timestamp.toNat % 65536) else []) →
    (∀ row ∈ ([(.rxStdData, 0x74#8, 3, false, false, false, false), (.rxExtData, 0x54#8, 8, true, false, false, false),
        (.rxStdRemote, 0x72#8, 3, false, true, false, false), (.rxExtRemote, 0x52#8, 8, true, true, false, false),
        (.rxStdFd, 0x64#8, 3, false, false, true, false), (.rxExtFd, 0x44#8, 8, true, false, true, false),
        (.rxStdFdBrs, 0x62#8, 3, false, false, true, true), (.rxExtFdBrs, 0x42#8, 8, true, false, true, true)] :
          List ((FrameOps → Instr) × Byte × Nat × Bool × Bool × Bool × Bool)),
      o.wf row.2.2.2.1 row.2.2.2.2.1 row.2.2.2.2.2.1 row.2.2.2.2.2.2 = true →
      exec (row.1 o) s = .next
        (s.withSub (.write ([row.2.1] ++ hexStr row.2.2.1 o.id.toNat ++ [hexDigit o.dlc.toNat] ++
          (if row.2.2.2.2.1 then [] else o.data.flatMap (fun b => hexStr 2 b.toNat)) ++ suffix ++ [0x0D#8]))))

/-- A frame that is not well formed has no encoding: the turn that would encode it is refused (43_rx_encode.md R180,
46_bridge_loop.md R242 d, 93_implementation_defined.md U5; decision D18, log 12), and so is its output form. -/
def Obligations.IllFormedFrameRefused : Prop :=
  (∀ (s : State) (c : Nat) (x : Channel) (g : CanFrame) (d : CopyDraw) (rest : List Event),
    s.atPlace c x .p1 (.encode g) → s.sched = .bridge d :: rest → frameWf g = false →
    step s = .refused .illFormedFrame) ∧
  (∀ (f : CanFrame) (i : Instr) (s : State), rxInstr f = some i → frameWf f = false → exec i s = .refused .illFormedFrame)

/-- Phase 1 on one slot with no other event between its turns (46_bridge_loop.md R242, 20_memory.md R69): a clear flag costs
one turn and changes nothing; a set flag with a well-formed frame is cleared, and the frame's line is written, or
dropped whole, in five turns; the frame itself stays in the slot. And step f by itself, whatever the handler did to the
slot since the copy-out: the bytes obtained at step e are written whole, or dropped whole, and the next slot follows. The
five turns are the model's grain (log 23), the busy flag is the model's form of decision D26 (log 37). -/
def Obligations.Phase1ServesSlot : Prop :=
  (∀ (s : State) (c : Nat) (x : Channel) (i : Nat) (f : CanFrame) (rest : List Event),
    s.atPlace c x .p1 .ready → s.seq.slot = i → i < x.slots.length →
    (∀ d, x.slots[i]? = some { flag := false, frame := f } → s.sched = .bridge d :: rest →
      step s = .next { s with seq := { s.seq with slot := i + 1 }, sched := rest }) ∧
    (∀ d₁ d₂ d₃ d₄ d₅, x.slots[i]? = some { flag := true, frame := f } → frameWf f = true → f.data.length = flen f →
      s.sched = .bridge d₁ :: .bridge d₂ :: .bridge d₃ :: .bridge d₄ :: .bridge d₅ :: rest →
      steps 5 s = .next
        { s with
          chans := s.chans.set c { x with slots := x.slots.set i { flag := false, frame := f } },
          seq := { s.seq with slot := i + 1 }, sched := rest,
          trace := s.trace ++ if x.busy then [] else
            [.serOut c (encodeFrame f x.ch.flags.timestamp x.ch.timestamp.toNat)] })) ∧
  (∀ (s : State) (c : Nat) (x : Channel) (out : List Byte) (d : CopyDraw) (rest : List Event),
    s.atPlace c x .p1 (.write out) → s.sched = .bridge d :: rest →
    step s = .next
      { s with
        seq := { s.seq with slot := s.seq.slot + 1, sub := .ready }, sched := rest,
        trace := s.trace ++ if x.busy then [] else [.serOut c out] })

/-- The copy-out (20_memory.md R72, decision D19): with no handler in the window the consumer obtains the slot's frame; with
one, every field and payload byte is that of a frame the slot held since the clear, or any byte where one of them holds
none. -/
def Obligations.CopyOutIsMixture : Prop :=
  ∀ (s : State) (c : Nat) (x : Channel) (earlier : List CanFrame) (d : CopyDraw) (rest : List Event),
    s.atPlace c x .p1 (.copy earlier) → s.sched = .bridge d :: rest →
    ∃ g, step s = .next { s with seq := { s.seq with sub := .encode g }, sched := rest } ∧
      (earlier = [] → g = (x.slot s.seq.slot).frame) ∧
      (earlier ≠ [] → isMixture (earlier ++ [(x.slot s.seq.slot).frame]) g)

/-- 20_memory.md R72, "A model must admit all of these outcomes": every mixture of the frames the slot held in the window
is the outcome of some turn (decision D19). -/
def Obligations.EveryMixtureIsAdmitted : Prop :=
  ∀ (s : State) (c : Nat) (x : Channel) (earlier : List CanFrame) (g : CanFrame) (rest : List Event),
    s.atPlace c x .p1 (.copy earlier) → earlier ≠ [] → isMixture (earlier ++ [(x.slot s.seq.slot).frame]) g →
    ∃ d, step { s with sched := .bridge d :: rest } = .next { s with seq := { s.seq with sub := .encode g }, sched := rest }

/-! ## The receive interrupt -/

/-- The handler (45_frame_store_isr.md R220 to R228): while the channel's interrupt is enabled, a view the controller may
raise writes exactly the slots of its sources, each with the frame field for field and its flag set, whatever the flag
was; reads each source once, in the order FIFO 0, FIFO 1, dedicated buffers (decision D27, log 36); clears what it
consumed; and touches no other channel and nothing else of its own. Slot numbers are decision D3 (log 28); that a FIFO arm
reads exactly one frame is decision D31 (log 42). -/
def Obligations.HandlerFillsSlots : Prop :=
  ∀ (s : State) (c : Nat) (x : Channel) (v : RxView) (rest : List Event),
    s.sched = .canRx c v :: rest → c < s.chans.length → s.chan c = x → 2 ≤ x.slots.length → x.hw.irqEn = true →
    v.raises (x.slots.length - 2) = true →
    ∃ t slots, step s = .next t ∧ t.sched = rest ∧ t.trace = s.trace ++ isrOutputs c v ∧
      t.chans = s.chans.set c { x with slots := slots, hw := { x.hw with rx := served v } } ∧
      slots.length = x.slots.length ∧
      (∀ i < slots.length, slots[i]? =
        match written v i with
        | some h => some { flag := true, frame :=
            { id := h.id, ext := h.ext, rtr := h.rtr, fd := h.fd, brs := h.brs, dlc := h.dlc,
              data := h.payload.take (if h.rtr then 0 else dlcLen h.dlc) } }
        | none => x.slots[i]?)

/-- The handler and a copy-out in progress (20_memory.md R70, R72; 60_exceptions.md R281, R282): `BRIDGE` resumes exactly
where it was; only where it stands at the copy-out of a slot the handler writes is the overwritten frame remembered as
one of those the copy may be torn from. That it is remembered with the copy is the model's own mechanism (log 11) for the
mixtures of decision D19. -/
def Obligations.HandlerReturnsToBridge : Prop :=
  ∀ (s t : State) (c : Nat) (v : RxView) (rest : List Event),
    s.sched = .canRx c v :: rest → c < s.chans.length → (s.chan c).hw.irqEn = true → 2 ≤ (s.chan c).slots.length →
    v.raises ((s.chan c).slots.length - 2) = true → step s = .next t →
    (∀ earlier, s.seq.phase = .p1 → s.seq.sub = .copy earlier → s.seq.chan = c → (written v s.seq.slot).isSome = true →
      t.seq = { s.seq with sub := .copy (earlier ++ [((s.chan c).slot s.seq.slot).frame]) }) ∧
    ((s.seq.phase ≠ .p1 ∨ (∀ earlier, s.seq.sub ≠ .copy earlier) ∨ s.seq.chan ≠ c ∨ written v s.seq.slot = none) →
      t.seq = s.seq)

/-- 45_frame_store_isr.md R220, 60_exceptions.md R277 and contract K1: while the interrupt is disabled, or with a view that
raises nothing, the event does not occur: no slot is written and nothing else changes (log 2). -/
def Obligations.InterruptOnlyWhileEnabled : Prop :=
  ∀ (s : State) (c : Nat) (v : RxView) (rest : List Event), s.sched = .canRx c v :: rest → c < s.chans.length →
    (s.chan c).hw.irqEn = false ∨ v.raises ((s.chan c).slots.length - 2) = false →
    step s = .next { s with sched := rest }

/-- Overwrite (45_frame_store_isr.md R227): of two runs of the handler in a row, every slot that both write holds the newer
frame, with the flag set, wherever `BRIDGE` stands. Where the second writes all that the first wrote, and no copy-out of
such a slot is in progress, the machine is the one the second run alone leaves, but for the trace: nothing else shows the
older frames. Slot numbers are decision D3 (log 28); one read of a FIFO for each run is decision D31 (log 42). -/
def Obligations.OverwriteKeepsNewer : Prop :=
  ∀ (s : State) (c : Nat) (x : Channel) (v w : RxView) (rest : List Event),
    s.sched = .canRx c v :: .canRx c w :: rest → c < s.chans.length → s.chan c = x → 2 ≤ x.slots.length →
    x.hw.irqEn = true → v.raises (x.slots.length - 2) = true → w.raises (x.slots.length - 2) = true →
    ∃ t, steps 2 s = .next t ∧ t.trace = s.trace ++ isrOutputs c v ++ isrOutputs c w ∧
      (∀ i h k, written v i = some h → written w i = some k →
        (t.chan c).slots[i]? = some { flag := true, frame := frameOf k }) ∧
      ((∀ i, (written v i).isSome = true → (written w i).isSome = true) →
        (s.seq.phase ≠ .p1 ∨ (∀ earlier, s.seq.sub ≠ .copy earlier) ∨ s.seq.chan ≠ c ∨ written w s.seq.slot = none) →
        ∃ alone, step { s with sched := .canRx c w :: rest } = .next alone ∧ t = { alone with trace := t.trace })

/-! ## Serial input, the tick, the bridge loop -/

/-- `SerIn` (00_scope.md R8, 20_memory.md R77): bytes join the end of the serial queue in arrival order, and nothing else
changes. -/
def Obligations.SerInAppends : Prop :=
  ∀ (s : State) (c : Nat) (x : Channel) (bytes : List Byte) (rest : List Event), c < s.chans.length → s.chan c = x →
    s.sched = bytes.map (fun b => .serIn c b) ++ rest →
    steps bytes.length s = .next
      { s with sched := rest, chans := s.chans.set c { x with serq := x.serq ++ bytes } }

/-- `ReadLine` (46_bridge_loop.md R244, 20_memory.md R76): as many turns as there are bytes up to and with CR move the line
into the line buffer, CR excluded, and leave the bytes after the CR in the queue; nothing else changes. -/
def Obligations.ReadLineAssembles : Prop :=
  ∀ (s : State) (c : Nat) (x : Channel) (line more : List Byte) (ds : List CopyDraw) (rest : List Event),
    s.atPlace c x .p2 .ready → x.serq = line ++ cr :: more → cr ∉ line → x.lb.length + line.length ≤ Config.lineMax →
    ds.length = line.length + 1 → s.sched = ds.map .bridge ++ rest →
    steps ds.length s = .next
      { s with
        chans := s.chans.set c { x with lb := x.lb ++ line, serq := more },
        seq := { s.seq with sub := .decode }, sched := rest }

/-- The read timeout (46_bridge_loop.md R245): while `ReadLine` waits with a partial line and nothing queued, `BRIDGE`
stands still; the timeout empties the line buffer, writes nothing, and ends the pass. Anywhere else, in particular while a
byte is queued, the event is taken off the schedule and changes nothing: that it may occur only there is decision D21 (log
29), that it then did not occur is log 2. That channel c + 1 is next is decision D23 (log 28); what `chan` and `slot` hold
in IDLE is log 44. -/
def Obligations.LineTimeoutDiscards : Prop :=
  (∀ (s : State) (c : Nat) (x : Channel) (rest : List Event),
    s.atPlace c x .p2 .ready → x.lb ≠ [] → x.serq = [] →
    (∀ d, s.sched = .bridge d :: rest → step s = .next { s with sched := rest }) ∧
    (s.sched = .lineTimeout c :: rest → step s = .next
      { s with
        chans := s.chans.set c { x with lb := [] }, sched := rest,
        seq := if c + 1 < s.chans.length then { chan := c + 1, phase := .p1, slot := 0, sub := .ready }
          else { chan := 0, phase := .idle, slot := 0, sub := .ready } })) ∧
  (∀ (s : State) (c : Nat) (rest : List Event), s.sched = .lineTimeout c :: rest →
    (s.seq.chan ≠ c ∨ s.seq.phase ≠ .p2 ∨ s.seq.sub ≠ .ready ∨ (s.chan c).lb = [] ∨ (s.chan c).serq ≠ []) →
    step s = .next { s with sched := rest })

/-- A line longer than `LINE_MAX` has no meaning (30_encoding.md R113, 46_bridge_loop.md R244; decision D20, log 13): the
byte that does not fit is refused; a CR at that point still ends the line. -/
def Obligations.OverlongLineRefused : Prop :=
  ∀ (s : State) (c : Nat) (x : Channel) (b : Byte) (more : List Byte) (d : CopyDraw) (rest : List Event),
    s.atPlace c x .p2 .ready → x.serq = b :: more → x.lb.length = Config.lineMax → s.sched = .bridge d :: rest →
    (b ≠ cr → step s = .refused .lineTooLong) ∧
    (b = cr → step s = .next
      { s with chans := s.chans.set c { x with serq := more }, seq := { s.seq with sub := .decode }, sched := rest })

/-- The tick (46_bridge_loop.md R250, 10_state.md R28): n ticks add n modulo 2^TS_WIDTH while the flag is set and change
nothing while it is clear; they may fall at any place of `BRIDGE`. The reading of "when enabled" is decision D17. -/
def Obligations.TickCounts : Prop :=
  ∀ (s : State) (c n : Nat) (x : Channel) (rest : List Event), c < s.chans.length → s.chan c = x →
    s.sched = List.replicate n (.tick c) ++ rest →
    (x.ch.flags.timestamp = true → steps n s = .next
      { s with
        sched := rest,
        chans := s.chans.set c { x with ch := { x.ch with timestamp := x.ch.timestamp + BitVec.ofNat Config.tsWidth n } } }) ∧
    (x.ch.flags.timestamp = false → steps n s = .next { s with sched := rest })

/-- A step runs the decoded instruction: a turn of `BRIDGE` at the decode of phase 2 is `exec` of what the line buffer
decodes to, with that turn taken off the schedule (log 1, log 23). -/
def Obligations.StepRunsDecoded : Prop :=
  ∀ (s : State) (c : Nat) (x : Channel) (i : Instr) (d : CopyDraw) (rest : List Event),
    s.atPlace c x .p2 .decode → s.sched = .bridge d :: rest → decode x.lb = .ok i →
    step s = exec i { s with sched := rest }

/-- A step runs the output form of the captured frame: a turn at steps d and e of phase 1 is `exec` of the form that the
frame's tags select (log 1, log 23); the table of 43_rx_encode.md R180 says which form that is. -/
def Obligations.StepRunsOutputForm : Prop :=
  (∀ (s : State) (c : Nat) (x : Channel) (g : CanFrame) (i : Instr) (d : CopyDraw) (rest : List Event),
    s.atPlace c x .p1 (.encode g) → s.sched = .bridge d :: rest → rxInstr g = some i →
    step s = exec i { s with sched := rest }) ∧
  (∀ f : CanFrame, frameWf f = true →
    (f.fd = false → f.rtr = false → rxInstr f = some (if f.ext then .rxExtData f.ops else .rxStdData f.ops)) ∧
    (f.fd = false → f.rtr = true → rxInstr f = some (if f.ext then .rxExtRemote f.ops else .rxStdRemote f.ops)) ∧
    (f.fd = true → f.brs = false → rxInstr f = some (if f.ext then .rxExtFd f.ops else .rxStdFd f.ops)) ∧
    (f.fd = true → f.brs = true → rxInstr f = some (if f.ext then .rxExtFdBrs f.ops else .rxStdFdBrs f.ops)))

/-- The order of a main-loop iteration (46_bridge_loop.md R240 to R243, decision D23, log 28): `Sched` starts with channel 0 at slot
0 of phase 1, and only in IDLE; phase 2 follows when every slot was tested; a pass ends when the queue and the line
buffer are both empty, and the next channel in ascending order follows, or IDLE after the last. That a `Sched` during
an iteration did not occur is log 2; that `slot` stays in phase 2, and what `chan` and `slot` hold in IDLE, is log 44. -/
def Obligations.PassOrder : Prop :=
  ∀ (s : State) (c : Nat) (x : Channel) (d : CopyDraw) (rest : List Event),
    (s.sched = .sched :: rest → s.seq.phase = .idle → step s = .next
      { s with sched := rest, seq := { chan := 0, phase := .p1, slot := 0, sub := .ready } }) ∧
    (s.sched = .sched :: rest → s.seq.phase ≠ .idle → step s = .next { s with sched := rest }) ∧
    (s.sched = .bridge d :: rest → s.atPlace c x .p1 .ready → s.seq.slot = x.slots.length → step s = .next
      { s with sched := rest, seq := { s.seq with phase := .p2, sub := .ready } }) ∧
    (s.sched = .bridge d :: rest → s.atPlace c x .p2 .ready → x.serq = [] → x.lb = [] → step s = .next
      { s with
        sched := rest,
        seq := if c + 1 < s.chans.length then { chan := c + 1, phase := .p1, slot := 0, sub := .ready }
          else { chan := 0, phase := .idle, slot := 0, sub := .ready } })

/-- An iteration with nothing to do ends (46_bridge_loop.md R240 to R244): with no flag set and no byte waiting on any
channel, `Sched` and as many turns as there are slots to test and phases to leave bring the machine back to where it
was, with no output. The number of turns is the model's grain (log 23); what `chan` and `slot` hold in IDLE is log 44. -/
def Obligations.EmptyIterationEnds : Prop :=
  ∀ (s : State) (n : Nat) (ds : List CopyDraw) (rest : List Event),
    s.seq = { chan := 0, phase := .idle, slot := 0, sub := .ready } → 0 < s.chans.length →
    (∀ x ∈ s.chans, x.slots.length = n ∧ (∀ y ∈ x.slots, y.flag = false) ∧ x.serq = [] ∧ x.lb = []) →
    ds.length = s.chans.length * (n + 2) → s.sched = .sched :: (ds.map .bridge ++ rest) →
    steps (ds.length + 1) s = .next { s with sched := rest }

/-! ## Reset, the invariant, whole-machine rules -/

/-- What reset leaves (10_state.md R42): N_CH channels, each with the values of the table; the sequencer at IDLE; no output
made. `data_bitrate`, `timestamp` and the slots' frames are unspecified there and not stated here. The mode, the flags
and the queue are decision D16 (log 38); N_CH is 1 to 4 (D2), N_SLOTS 2 + N_DED (D3). The numbers in `hwHandle` and
`irqVector` are the model's names (log 9). -/
def Obligations.ResetValues : Prop :=
  State.reset.chans.length = Config.nCh ∧ 1 ≤ Config.nCh ∧ Config.nCh ≤ 4 ∧
  State.reset.seq = { chan := 0, phase := .idle, slot := 0, sub := .ready } ∧ State.reset.trace = [] ∧
  ∀ c < Config.nCh, ∃ x, State.reset.chans[c]? = some x ∧
    x.ch.index = c ∧ x.ch.hwHandle = c ∧ x.ch.irqVector = c ∧ x.ch.cfg.nominalBitrate = 0#32 ∧ x.ch.cfg.mode = .normal ∧
    x.ch.cfg.fdEnable = true ∧ x.ch.isOpen = false ∧ x.ch.flags.timestamp = false ∧
    x.slots.length = Config.nDed + 2 ∧ (∀ y ∈ x.slots, y.flag = false) ∧ x.lb = [] ∧ x.serq = [] ∧
    x.hw.enabled = false ∧ x.hw.irqEn = false ∧ x.hw.txBusy = false

/-- The invariant holds at reset. It rests on the model's names for `hw_handle` and `irq_vector` (log 9). -/
def Obligations.ResetInv : Prop := State.reset.Inv

/-- Every step keeps the invariant: identity and FD enable constant (10_state.md R21, R25), legal rates (R22, R23),
`is_open` with `HW.enabled` and `HW.irq_en` (44_channel_state_machine.md R207), the line buffer within its capacity and
empty outside `ReadLine`, `Decode` and `Dispatch` of its channel (46_bridge_loop.md R246), a flagged slot with a whole
frame (20_memory.md R71 G1), a transmit in flight only in the wait (R206). Log 9 and log 10 name the model's own parts. -/
def Obligations.StepKeepsInv : Prop := ∀ s t : State, s.Inv → step s = .next t → t.Inv

/-- 60_exceptions.md R270: no fatal error. A state with the invariant never faults (the one fault is the model's own, log
33). -/
def Obligations.NoFault : Prop := ∀ (s : State) (r : Fault), s.Inv → step s ≠ .fault r

/-- 46_bridge_loop.md R251: the only inputs with no meaning are a line longer than `LINE_MAX` and a frame that is not well
formed. From a state with the invariant a step is refused for nothing else, and only in a turn of `BRIDGE` (decisions
D18, D20; log 12, log 13). -/
def Obligations.RefusalCauses : Prop :=
  ∀ (s : State) (r : Refusal), s.Inv → step s = .refused r →
    (∃ d rest, s.sched = .bridge d :: rest) ∧
    ((r = .illFormedFrame ∧ s.seq.phase = .p1 ∧ ∃ g, s.seq.sub = .encode g ∧ frameWf g = false) ∨
      (r = .lineTooLong ∧ s.seq.phase = .p2 ∧ s.seq.sub = .ready ∧ (s.chan s.seq.chan).lb.length = Config.lineMax ∧
        ∃ b more, (s.chan s.seq.chan).serq = b :: more ∧ b ≠ cr))

/-- 44_channel_state_machine.md R200: no other event changes `is_open`. If a step changes it, the step was a turn of
`BRIDGE` that decoded, on that channel, a line whose first byte is `O`, which sets it, or `C`, which clears it. -/
def Obligations.OnlyOpenCloseChangeIsOpen : Prop :=
  ∀ (s t : State) (c : Nat), step s = .next t → (t.chan c).ch.isOpen ≠ (s.chan c).ch.isOpen →
    (∃ d rest, s.sched = .bridge d :: rest) ∧ s.seq.chan = c ∧ s.seq.phase = .p2 ∧ s.seq.sub = .decode ∧
      (((s.chan c).lb.head? = some 0x4F#8 ∧ (t.chan c).ch.isOpen = true) ∨
        ((s.chan c).lb.head? = some 0x43#8 ∧ (t.chan c).ch.isOpen = false))

/-- 10_state.md R37, 60_exceptions.md R284: only the handler of the channel writes a slot's frame or sets its flag, and only
`BRIDGE`, at step b of phase 1 of that slot, clears a flag. -/
def Obligations.SlotOwnership : Prop :=
  ∀ (s t : State) (c i : Nat), step s = .next t →
    ((((t.chan c).slot i).frame ≠ ((s.chan c).slot i).frame ∨
        (((s.chan c).slot i).flag = false ∧ ((t.chan c).slot i).flag = true)) →
      ∃ v rest, s.sched = .canRx c v :: rest ∧ (s.chan c).hw.irqEn = true) ∧
    ((((s.chan c).slot i).flag = true ∧ ((t.chan c).slot i).flag = false) →
      (∃ d rest, s.sched = .bridge d :: rest) ∧ s.seq.chan = c ∧ s.seq.phase = .p1 ∧ s.seq.sub = .clear ∧ s.seq.slot = i)

/-- 10_state.md R29, R25, R21: the control registers of a channel other than its counter change only in a turn of `BRIDGE`
that decodes a line of that channel, or in a Set mode event of it (decision D33); its identity and FD enable never
change. -/
def Obligations.ControlStateWriters : Prop :=
  ∀ (s t : State) (c : Nat), step s = .next t →
    ((t.chan c).ch.index = (s.chan c).ch.index ∧ (t.chan c).ch.hwHandle = (s.chan c).ch.hwHandle ∧
      (t.chan c).ch.irqVector = (s.chan c).ch.irqVector ∧ (t.chan c).ch.cfg.fdEnable = (s.chan c).ch.cfg.fdEnable) ∧
    (((t.chan c).ch.cfg ≠ (s.chan c).ch.cfg ∨ (t.chan c).ch.flags ≠ (s.chan c).ch.flags) →
      ((∃ d rest, s.sched = .bridge d :: rest) ∧ s.seq.chan = c ∧ s.seq.phase = .p2 ∧ s.seq.sub = .decode) ∨
        ∃ m rest, s.sched = .setMode c m :: rest ∧ (s.chan c).ch.isOpen = false)

/-- 10_state.md R28, 46_bridge_loop.md R250: the timestamp counter is written only by the tick of its channel, with the flag
set, and then by one more (decision D17). -/
def Obligations.TimestampOnlyByTick : Prop :=
  ∀ (s t : State) (c : Nat), step s = .next t → (t.chan c).ch.timestamp ≠ (s.chan c).ch.timestamp →
    (∃ rest, s.sched = .tick c :: rest) ∧ (s.chan c).ch.flags.timestamp = true ∧
      (t.chan c).ch.timestamp = (s.chan c).ch.timestamp + 1

/-- 10_state.md R20: no state is shared between channels. A step changes at most the channel its event acts on, adds only
outputs of that channel to the trace, and takes exactly its event off the schedule; the number of channels stays. -/
def Obligations.StepChangesOneChannel : Prop :=
  ∀ (s t : State) (e : Event) (rest : List Event), s.sched = e :: rest → step s = .next t →
    t.sched = rest ∧ t.chans.length = s.chans.length ∧
    (∀ c, s.eventChannel e ≠ some c → t.chan c = s.chan c) ∧
    ∃ outputs, t.trace = s.trace ++ outputs ∧ ∀ o ∈ outputs, s.eventChannel e = some o.channel

/-- 10_state.md R20: a step reads at most the channel its event acts on. Two states that agree on that channel, on the
sequencer and on the number of channels step alike: the same new channel, the same sequencer, the same outputs,
whatever the other channels hold. -/
def Obligations.StepReadsOneChannel : Prop :=
  ∀ (s s' t : State) (e : Event) (rest : List Event) (c : Nat), s.sched = e :: rest → s'.sched = e :: rest →
    s.eventChannel e = some c → s'.seq = s.seq → s'.chans.length = s.chans.length → s'.chan c = s.chan c →
    step s = .next t →
    ∃ t' outputs, step s' = .next t' ∧ t'.chan c = t.chan c ∧ t'.seq = t.seq ∧
      t.trace = s.trace ++ outputs ∧ t'.trace = s'.trace ++ outputs
end

