-- ==== Sys2Proof/Laws/Codec.lean ====
section
/-! SUPPORT. Lemmas of the codec primitives (30_encoding.md): a digit read back, a field read back, a payload read back,
and what every encoded line is made of. -/

namespace Sys2Proof.Machine

/-! ## Digits -/

/-- The four bytes of a digit's range, checked over all sixteen digits. -/
theorem hexval_hexDigit {v : Nat} (h : v < 16) : hexval (some (hexDigit v)) = v := by
  interval_cases v <;> decide

theorem dlcCode_hexDigit (d : BitVec 4) : dlcCode (some (hexDigit d.toNat)) = some d := by
  revert d; decide

theorem hexDigit_ne_cr {v : Nat} (h : v < 16) : hexDigit v ≠ cr := by
  interval_cases v <;> decide

@[simp] theorem hexStr_length (n v : Nat) : (hexStr n v).length = n := by
  induction n with
  | zero => rfl
  | succ n ih => simp [hexStr, ih]

/-- Every character `HEX` writes is a digit's (30_encoding.md R105). -/
theorem hexStr_digits (n v : Nat) : ∀ b ∈ hexStr n v, ∃ d < 16, b = hexDigit d := by
  induction n with
  | zero => simp [hexStr]
  | succ n ih =>
    intro b hb
    rcases List.mem_cons.mp hb with rfl | hb
    · exact ⟨_, Nat.mod_lt _ (by decide), rfl⟩
    · exact ih b hb

/-- The DLC table has no byte count above 64 (30_encoding.md R103). -/
theorem dlcLen_le (d : BitVec 4) : dlcLen d ≤ 64 := by
  revert d; decide

/-- A byte count of at most 8 is a code of at most 8 (30_encoding.md R103). -/
theorem dlcLen_gt_eight (d : BitVec 4) : 8 < dlcLen d ↔ 8 < d.toNat := by
  revert d; decide

/-! ## Reading a line -/

theorem lineAt_append_right (p q : List Byte) (k : Nat) : lineAt (p ++ q) (p.length + k) = lineAt q k := by
  simp [lineAt, List.getElem?_append_right]

/-- The accumulator reads back what `HEX` wrote. -/
theorem hexfieldFrom_hexStr (n : Nat) : ∀ (p q : List Byte) (v acc : Nat),
    hexfieldFrom (p ++ hexStr n v ++ q) p.length n acc = some (acc * 16 ^ n + v % 16 ^ n) := by
  induction n with
  | zero => intro p q v acc; simp [hexfieldFrom, Nat.mod_one]
  | succ n ih =>
    intro p q v acc
    have hd : (v >>> (4 * n)) % 16 < 16 := Nat.mod_lt _ (by decide)
    have hat : lineAt (p ++ hexStr (n + 1) v ++ q) p.length = some (hexDigit ((v >>> (4 * n)) % 16)) := by
      rw [List.append_assoc]
      simp [hexStr, lineAt]
    have hshift : p ++ hexStr (n + 1) v ++ q = (p ++ [hexDigit ((v >>> (4 * n)) % 16)]) ++ hexStr n v ++ q := by
      simp [hexStr]
    unfold hexfieldFrom
    rw [hat, hexval_hexDigit hd, if_neg (by omega), hshift]
    have := ih (p ++ [hexDigit ((v >>> (4 * n)) % 16)]) q v (acc * 16 + v >>> (4 * n) % 16)
    rw [List.length_append, List.length_singleton] at this
    rw [this]
    congr 1
    have h16 : v >>> (4 * n) = v / 16 ^ n := by rw [Nat.shiftRight_eq_div_pow, Nat.pow_mul]
    rw [h16, pow_succ, Nat.mod_mul]
    ring

/-- A hex field reads back (30_encoding.md R100, R105). -/
theorem hexfield_hexStr (n : Nat) (p q : List Byte) (v : Nat) (h : v < 16 ^ n) :
    hexfield (p ++ hexStr n v ++ q) p.length n = some v := by
  rw [hexfield, hexfieldFrom_hexStr]
  simp [Nat.mod_eq_of_lt h]

theorem hexStr_two (b : Byte) : hexStr 2 b.toNat = [hexDigit (b.toNat / 16), hexDigit (b.toNat % 16)] := by
  have : b.toNat < 256 := b.isLt
  have h : b.toNat / 16 % 16 = b.toNat / 16 := Nat.mod_eq_of_lt (by omega)
  simp [hexStr, Nat.shiftRight_eq_div_pow, h]

/-- A payload reads back (30_encoding.md R104). -/
theorem payloadAt_hex (data : List Byte) : ∀ (p q : List Byte),
    payloadAt (p ++ data.flatMap (fun b => hexStr 2 b.toNat) ++ q) p.length data.length = some data := by
  induction data with
  | nil => intro p q; rfl
  | cons b rest ih =>
    intro p q
    have hb : b.toNat < 256 := b.isLt
    have e : p ++ (b :: rest).flatMap (fun b => hexStr 2 b.toNat) ++ q
        = (p ++ [hexDigit (b.toNat / 16), hexDigit (b.toNat % 16)]) ++ rest.flatMap (fun b => hexStr 2 b.toNat) ++ q := by
      simp [hexStr_two]
    have h0 : lineAt (p ++ (b :: rest).flatMap (fun b => hexStr 2 b.toNat) ++ q) p.length
        = some (hexDigit (b.toNat / 16)) := by
      rw [e]; simp [lineAt]
    have h1 : lineAt (p ++ (b :: rest).flatMap (fun b => hexStr 2 b.toNat) ++ q) (p.length + 1)
        = some (hexDigit (b.toNat % 16)) := by
      rw [e]; simp [lineAt]
    have hi : b.toNat / 16 < 16 := by omega
    have lo : b.toNat % 16 < 16 := by omega
    unfold payloadAt
    rw [List.length_cons]
    simp only
    rw [h0, h1, hexval_hexDigit hi, hexval_hexDigit lo, if_neg (by omega), e]
    have := ih (p ++ [hexDigit (b.toNat / 16), hexDigit (b.toNat % 16)]) q
    simp only [List.length_append, List.length_cons, List.length_nil] at this
    rw [show p.length + 2 = p.length + (0 + 1 + 1) from rfl, this]
    have : b.toNat / 16 * 16 + b.toNat % 16 = b.toNat := by omega
    simp [this]

/-! ## The fields of a frame line -/

/-- The length of the fields of a frame line (43_rx_encode.md R191 (c), less suffix and CR). -/
theorem frameLine_length (f : CanFrame) (c : Byte) (hc : cmdChar f.ext f.rtr f.fd f.brs = some c)
    (hs : frameSized f = true) : (frameLine f).length = idDigits f.ext + 2 + 2 * flen f := by
  have hd : f.data.length = flen f := by simpa [frameSized] using hs
  have hf : (f.data.flatMap (fun b => hexStr 2 b.toNat)).length = 2 * f.data.length := by
    simp [List.length_flatMap, Nat.mul_comm]
  unfold frameLine
  rw [hc]
  cases hr : f.rtr
  · simp [hf, hd]; omega
  · simp [flen, hr]

/-- Beyond its leading character a frame line holds uppercase hex digits only (43_rx_encode.md R191 (b)). -/
theorem frameLine_digits (f : CanFrame) : ∀ b ∈ (frameLine f).tail, ∃ d < 16, b = hexDigit d := by
  intro b hb
  unfold frameLine at hb
  split at hb
  · simp at hb
  · simp only [List.tail_cons, List.mem_append, List.mem_cons] at hb
    rcases hb with hb | rfl | hb
    · exact hexStr_digits _ _ b hb
    · exact ⟨_, f.dlc.isLt, rfl⟩
    · split at hb
      · simp at hb
      · obtain ⟨x, -, hx⟩ := List.mem_flatMap.mp hb
        exact hexStr_digits _ _ b hx

theorem cmdChar_ne_cr (ext rtr fd brs : Bool) (c : Byte) (h : cmdChar ext rtr fd brs = some c) : c ≠ cr := by
  revert h; cases ext <;> cases rtr <;> cases fd <;> cases brs <;> simp [cmdChar] <;> rintro rfl <;> decide

/-- No frame line holds a CR before its terminator (43_rx_encode.md R191 (a)). -/
theorem frameLine_no_cr (f : CanFrame) : cr ∉ frameLine f := by
  intro h
  have hd := frameLine_digits f
  unfold frameLine at h hd
  split at h
  · simp at h
  · next c hc =>
    rcases List.mem_cons.mp h with h | h
    · exact cmdChar_ne_cr _ _ _ _ c hc h.symm
    · rw [hc] at hd
      obtain ⟨d, hd16, he⟩ := hd cr h
      exact hexDigit_ne_cr hd16 he.symm

end Sys2Proof.Machine
end

