-- ==== Sys2Proof/Laws/State.lean ====
section
/-! SUPPORT. The small lemmas of the state's accessors and updates: one per field per update, and the two laws of a
channel's update (read after write, and every other channel left alone). -/

namespace Sys2Proof.Machine

/-! ## The number of channels and the fields beside `chans` -/

@[simp] theorem modChan_seq (s : State) (c : Nat) (f : Channel → Channel) : (s.modChan c f).seq = s.seq := rfl
@[simp] theorem modChan_sched (s : State) (c : Nat) (f : Channel → Channel) : (s.modChan c f).sched = s.sched := rfl
@[simp] theorem modChan_trace (s : State) (c : Nat) (f : Channel → Channel) : (s.modChan c f).trace = s.trace := rfl
@[simp] theorem modChan_length (s : State) (c : Nat) (f : Channel → Channel) :
    (s.modChan c f).chans.length = s.chans.length := by simp [State.modChan]

@[simp] theorem emit_seq (s : State) (o : Output) : (s.emit o).seq = s.seq := rfl
@[simp] theorem emit_sched (s : State) (o : Output) : (s.emit o).sched = s.sched := rfl
@[simp] theorem emit_trace (s : State) (o : Output) : (s.emit o).trace = s.trace ++ [o] := rfl
@[simp] theorem emit_chans (s : State) (o : Output) : (s.emit o).chans = s.chans := rfl
@[simp] theorem emit_chan (s : State) (o : Output) (c : Nat) : (s.emit o).chan c = s.chan c := rfl

@[simp] theorem withSub_chans (s : State) (m : Sub) : (s.withSub m).chans = s.chans := rfl
@[simp] theorem withSub_chan (s : State) (m : Sub) (c : Nat) : (s.withSub m).chan c = s.chan c := rfl
@[simp] theorem withSub_sched (s : State) (m : Sub) : (s.withSub m).sched = s.sched := rfl
@[simp] theorem withSub_trace (s : State) (m : Sub) : (s.withSub m).trace = s.trace := rfl
@[simp] theorem withSub_sub (s : State) (m : Sub) : (s.withSub m).seq.sub = m := rfl
@[simp] theorem withSub_seqChan (s : State) (m : Sub) : (s.withSub m).seq.chan = s.seq.chan := rfl
@[simp] theorem withSub_phase (s : State) (m : Sub) : (s.withSub m).seq.phase = s.seq.phase := rfl
@[simp] theorem withSub_slot (s : State) (m : Sub) : (s.withSub m).seq.slot = s.seq.slot := rfl

@[simp] theorem act_chans (s : State) (a : Action) : (s.act a).chans = s.chans := rfl
@[simp] theorem act_chan (s : State) (a : Action) (c : Nat) : (s.act a).chan c = s.chan c := rfl
@[simp] theorem act_sched (s : State) (a : Action) : (s.act a).sched = s.sched := rfl
@[simp] theorem act_trace (s : State) (a : Action) : (s.act a).trace = s.trace := rfl
@[simp] theorem act_seq (s : State) (a : Action) : (s.act a).seq = { s.seq with sub := .dispatch a } := rfl

@[simp] theorem raiseNack_eq (s : State) (why : NackCause) : s.raiseNack why = s.act .nack := rfl

/-- Popping the schedule changes no other field. -/
@[simp] theorem withSched_chan (s : State) (l : List Event) (c : Nat) : ({ s with sched := l } : State).chan c = s.chan c := rfl
@[simp] theorem withSeq_chan (s : State) (q : Sequencer) (c : Nat) : ({ s with seq := q } : State).chan c = s.chan c := rfl

/-! ## Read after write -/

/-- Reading a channel after its own update. -/
@[simp] theorem chan_modChan_same (s : State) (c : Nat) (f : Channel → Channel) (h : c < s.chans.length) :
    (s.modChan c f).chan c = f (s.chan c) := by
  simp [State.chan, State.modChan, List.getD_eq_getElem?_getD, h]

/-- An update of channel c leaves every other channel alone. -/
theorem chan_modChan_other (s : State) (c d : Nat) (f : Channel → Channel) (h : d ≠ c) :
    (s.modChan c f).chan d = s.chan d := by
  simp [State.chan, State.modChan, List.getD_eq_getElem?_getD, Ne.symm h]

/-- An update where no channel is configured changes nothing. -/
theorem modChan_outOfRange (s : State) (c : Nat) (f : Channel → Channel) (h : s.chans.length ≤ c) : s.modChan c f = s := by
  cases s; simp [State.modChan, List.set_eq_of_length_le, h]

/-- Reading any channel after an update of a configured one. -/
theorem chan_modChan (s : State) (c d : Nat) (f : Channel → Channel) (h : c < s.chans.length) :
    (s.modChan c f).chan d = if d = c then f (s.chan c) else s.chan d := by
  by_cases hd : d = c
  · subst hd; simp [h]
  · simp [hd, chan_modChan_other s c d f hd]

/-- Two updates of one channel in a row are one. -/
theorem modChan_modChan (s : State) (c : Nat) (f g : Channel → Channel) (h : c < s.chans.length) :
    (s.modChan c f).modChan c g = s.modChan c (fun x => g (f x)) := by
  have : ((s.modChan c f).chan c) = f (s.chan c) := chan_modChan_same s c f h
  simp only [State.modChan] at this ⊢
  rw [this, List.set_set]

/-! ## The updates of a channel's parts are updates of the channel -/

theorem modCh_eq (s : State) (c : Nat) (f : ChannelState → ChannelState) :
    s.modCh c f = s.modChan c (fun x => { x with ch := f x.ch }) := rfl
theorem modCfg_eq (s : State) (c : Nat) (f : ChannelConfig → ChannelConfig) :
    s.modCfg c f = s.modChan c (fun x => { x with ch := { x.ch with cfg := f x.ch.cfg } }) := rfl
theorem modHw_eq (s : State) (c : Nat) (f : Hw → Hw) : s.modHw c f = s.modChan c (fun x => { x with hw := f x.hw }) := rfl
theorem modRx_eq (s : State) (c : Nat) (f : RxView → RxView) :
    s.modRx c f = s.modChan c (fun x => { x with hw := { x.hw with rx := f x.hw.rx } }) := rfl
theorem modSlot_eq (s : State) (c i : Nat) (f : RxSlot → RxSlot) :
    s.modSlot c i f = s.modChan c (fun x => { x with slots := x.slots.set i (f (x.slot i)) }) := rfl
theorem setLb_eq (s : State) (c : Nat) (l : List Byte) : s.setLb c l = s.modChan c (fun x => { x with lb := l }) := rfl
theorem setSerq_eq (s : State) (c : Nat) (l : List Byte) : s.setSerq c l = s.modChan c (fun x => { x with serq := l }) := rfl

/-- Reading slot j after slot i was written. -/
theorem slot_set (x : Channel) (i j : Nat) (v : RxSlot) (h : i < x.slots.length) :
    ({ x with slots := x.slots.set i v } : Channel).slot j = if j = i then v else x.slot j := by
  by_cases hj : j = i
  · subst hj; simp [Channel.slot, List.getD_eq_getElem?_getD, h]
  · simp [Channel.slot, List.getD_eq_getElem?_getD, hj, Ne.symm hj]

/-! ## Flags -/

@[simp] theorem capture_flag (x : RxSlot) (f : CanFrame) : (x.capture f).flag = true := rfl
@[simp] theorem capture_frame (x : RxSlot) (f : CanFrame) : (x.capture f).frame = f := rfl
@[simp] theorem clear_flag (x : RxSlot) : x.clear.flag = false := rfl
@[simp] theorem clear_frame (x : RxSlot) : x.clear.frame = x.frame := rfl

end Sys2Proof.Machine
end

