-- ==== Sys2Proof/Laws/Ops.lean ====
section
/-! SUPPORT. One lemma per shared operation that says what it does to each channel, to the trace, to the sequencer and to
the schedule; cited instead of unfolding the operation. -/

namespace Sys2Proof.Machine

/-! ## The serial write -/

@[simp] theorem reply_chan (s : State) (c d : Nat) (b : List Byte) : (s.reply c b).chan d = s.chan d := by
  unfold State.reply; split <;> rfl
@[simp] theorem reply_chans (s : State) (c : Nat) (b : List Byte) : (s.reply c b).chans = s.chans := by
  unfold State.reply; split <;> rfl
@[simp] theorem reply_seq (s : State) (c : Nat) (b : List Byte) : (s.reply c b).seq = s.seq := by
  unfold State.reply; split <;> rfl
@[simp] theorem reply_sched (s : State) (c : Nat) (b : List Byte) : (s.reply c b).sched = s.sched := by
  unfold State.reply; split <;> rfl
/-- A write is whole or nothing (20_memory.md R78). -/
theorem reply_trace (s : State) (c : Nat) (b : List Byte) :
    (s.reply c b).trace = s.trace ++ (if (s.chan c).busy then [] else [.serOut c b]) := by
  unfold State.reply; split <;> simp_all

/-! ## The channel state machine -/

/-- What `Close` makes of a channel (44_channel_state_machine.md R202). -/
def closedChannel (x : Channel) : Channel :=
  { x with ch := { x.ch with isOpen := false }, hw := { x.hw with enabled := false, irqEn := false } }

/-- What the rest of `Open` makes of a channel (R201). -/
def openedChannel (x : Channel) : Channel :=
  { x with ch := { x.ch with isOpen := true, cfg := x.ch.cfg.withDefaultRate },
           hw := { x.hw with enabled := true, irqEn := true } }

/-- The outputs of `Close`, in order (R202). -/
def closeOutputs (c : Nat) : List Output := [.canDeinit c, .rxIrqClassDisable c, .irqDisable c]

/-- The outputs of the rest of `Open`, in order (R201). -/
def openOutputs (c : Nat) (g : ChannelConfig) : List Output :=
  [.canInit c g.withDefaultRate, .rxIrqClassEnable c, .irqEnable c Config.irqPriority]

theorem closeOp_eq (s : State) (c : Nat) (h : c < s.chans.length) :
    s.closeOp c = { s.modChan c closedChannel with trace := s.trace ++ closeOutputs c } := by
  simp [State.closeOp, State.modHw, State.modCh, State.modChan, State.emit, State.chan, closedChannel, closeOutputs, h]

theorem openClosed_eq (s : State) (c : Nat) (h : c < s.chans.length) :
    s.openClosed c = { s.modChan c openedChannel with trace := s.trace ++ openOutputs c (s.chan c).ch.cfg } := by
  simp [State.openClosed, State.modCfg, State.modHw, State.modCh, State.modChan, State.emit, State.chan, openedChannel,
    openOutputs, h]

@[simp] theorem closeOp_seq (s : State) (c : Nat) : (s.closeOp c).seq = s.seq := rfl
@[simp] theorem closeOp_sched (s : State) (c : Nat) : (s.closeOp c).sched = s.sched := rfl
@[simp] theorem closeOp_length (s : State) (c : Nat) : (s.closeOp c).chans.length = s.chans.length := by
  simp [State.closeOp, modHw_eq, modCh_eq]
theorem closeOp_chan (s : State) (c d : Nat) (h : c < s.chans.length) :
    (s.closeOp c).chan d = if d = c then closedChannel (s.chan c) else s.chan d := by
  rw [closeOp_eq s c h]; exact chan_modChan s c d _ h
theorem closeOp_trace (s : State) (c : Nat) : (s.closeOp c).trace = s.trace ++ closeOutputs c := by
  simp [State.closeOp, modHw_eq, modCh_eq, closeOutputs]

@[simp] theorem openClosed_seq (s : State) (c : Nat) : (s.openClosed c).seq = s.seq := rfl
@[simp] theorem openClosed_sched (s : State) (c : Nat) : (s.openClosed c).sched = s.sched := rfl
@[simp] theorem openClosed_length (s : State) (c : Nat) : (s.openClosed c).chans.length = s.chans.length := by
  simp [State.openClosed, modHw_eq, modCh_eq, modCfg_eq]
theorem openClosed_chan (s : State) (c d : Nat) (h : c < s.chans.length) :
    (s.openClosed c).chan d = if d = c then openedChannel (s.chan c) else s.chan d := by
  rw [openClosed_eq s c h]; exact chan_modChan s c d _ h

@[simp] theorem openOp_seq (s : State) (c : Nat) : (s.openOp c).seq = s.seq := by unfold State.openOp; split <;> simp
@[simp] theorem openOp_sched (s : State) (c : Nat) : (s.openOp c).sched = s.sched := by unfold State.openOp; split <;> simp
@[simp] theorem openOp_length (s : State) (c : Nat) : (s.openOp c).chans.length = s.chans.length := by
  unfold State.openOp; split <;> simp

/-- `Open` ends with the channel opened whether or not it was open before (R201, R207). -/
theorem openOp_chan (s : State) (c d : Nat) (h : c < s.chans.length) :
    (s.openOp c).chan d = if d = c then openedChannel (s.chan c) else s.chan d := by
  unfold State.openOp
  split
  · rw [openClosed_chan _ c d (by simpa using h), closeOp_chan s c c h, closeOp_chan s c d h]
    by_cases hd : d = c
    · subst hd; simp [openedChannel, closedChannel]
    · simp [hd]
  · exact openClosed_chan s c d h

/-- The outputs of `Open`: the close sequence first when the channel was open (R201). -/
theorem openOp_trace (s : State) (c : Nat) (h : c < s.chans.length) :
    (s.openOp c).trace =
      s.trace ++ (if (s.chan c).ch.isOpen then closeOutputs c else []) ++ openOutputs c (s.chan c).ch.cfg := by
  unfold State.openOp
  split
  · next ho =>
    rw [openClosed_eq _ c (by simpa using h)]
    simp only [closeOp_trace, closeOp_chan s c c h, if_true, closedChannel]
  · rw [openClosed_eq s c h]
    simp

/-- The whole of `Open` (R201): one update of the channel and the outputs. -/
theorem openOp_eq (s : State) (c : Nat) (h : c < s.chans.length) :
    s.openOp c = { s.modChan c openedChannel with
      trace := s.trace ++ (if (s.chan c).ch.isOpen then closeOutputs c else []) ++ openOutputs c (s.chan c).ch.cfg } := by
  unfold State.openOp
  split
  · rw [openClosed_eq _ c (by simpa using h), closeOp_chan s c c h, closeOp_trace, closeOp_eq s c h]
    simp [State.modChan, State.chan, List.getD_eq_getElem?_getD, h, openedChannel, closedChannel]
  · rw [openClosed_eq s c h]; simp

@[simp] theorem setMode_seq (s : State) (c : Nat) (m : Mode) : (s.setMode c m).seq = s.seq := by
  unfold State.setMode; split <;> rfl
@[simp] theorem setMode_sched (s : State) (c : Nat) (m : Mode) : (s.setMode c m).sched = s.sched := by
  unfold State.setMode; split <;> rfl
@[simp] theorem setMode_trace (s : State) (c : Nat) (m : Mode) : (s.setMode c m).trace = s.trace := by
  unfold State.setMode; split <;> rfl
@[simp] theorem setMode_length (s : State) (c : Nat) (m : Mode) : (s.setMode c m).chans.length = s.chans.length := by
  unfold State.setMode; split <;> simp [modCfg_eq]
/-- `SetMode` stores on a closed channel only (R205). -/
theorem setMode_chan (s : State) (c d : Nat) (m : Mode) (h : c < s.chans.length) :
    (s.setMode c m).chan d =
      if d = c ∧ (s.chan c).ch.isOpen = false then
        { s.chan c with ch := { (s.chan c).ch with cfg := { (s.chan c).ch.cfg with mode := m } } }
      else s.chan d := by
  unfold State.setMode
  split
  · next ho => simp [ho]
  · next ho =>
    rw [modCfg_eq, chan_modChan s c d _ h]
    simp [ho]

/-- The rate setters store in either state (R203, R204; `RATE_SET_WHILE_OPEN` = `store`). -/
@[simp] theorem storesRate_eq (s : State) (c : Nat) : s.storesRate c = true := rfl
theorem setBitrate_eq (s : State) (c : Nat) (v : BitVec 32) :
    s.setBitrate c v = s.modCfg c (fun x => { x with nominalBitrate := v }) := rfl
theorem setFdBitrate_eq (s : State) (c : Nat) (v : BitVec 32) :
    s.setFdBitrate c v = s.modCfg c (fun x => { x with dataBitrate := v }) := rfl

/-! ## The receive interrupt -/

/-- `noteOverwrite` touches only the micro-step, and that only where it is a copy-out. -/
theorem noteOverwrite_eq (s : State) (c i : Nat) :
    s.noteOverwrite c i = s ∨
      ∃ earlier, s.seq.phase = .p1 ∧ s.seq.sub = .copy earlier ∧ s.seq.chan = c ∧ s.seq.slot = i ∧
        s.noteOverwrite c i = s.withSub (.copy (earlier ++ [((s.chan c).slot i).frame])) := by
  unfold State.noteOverwrite
  split
  · next earlier hp hs =>
    split
    · next hc => exact .inr ⟨earlier, hp, hs, hc.1, hc.2, rfl⟩
    · exact .inl rfl
  · exact .inl rfl

@[simp] theorem noteOverwrite_chans (s : State) (c i : Nat) : (s.noteOverwrite c i).chans = s.chans := by
  rcases noteOverwrite_eq s c i with h | ⟨_, -, -, -, -, h⟩ <;> rw [h]; rfl
@[simp] theorem noteOverwrite_chan (s : State) (c i d : Nat) : (s.noteOverwrite c i).chan d = s.chan d := by
  simp [State.chan]
@[simp] theorem noteOverwrite_trace (s : State) (c i : Nat) : (s.noteOverwrite c i).trace = s.trace := by
  rcases noteOverwrite_eq s c i with h | ⟨_, -, -, -, -, h⟩ <;> rw [h]; rfl
@[simp] theorem noteOverwrite_sched (s : State) (c i : Nat) : (s.noteOverwrite c i).sched = s.sched := by
  rcases noteOverwrite_eq s c i with h | ⟨_, -, -, -, -, h⟩ <;> rw [h]; rfl

@[simp] theorem capture_trace (s : State) (c i : Nat) (f : CanFrame) : (s.capture c i f).trace = s.trace := by
  simp [State.capture, modSlot_eq]
@[simp] theorem capture_sched (s : State) (c i : Nat) (f : CanFrame) : (s.capture c i f).sched = s.sched := by
  simp [State.capture, modSlot_eq]
@[simp] theorem capture_length (s : State) (c i : Nat) (f : CanFrame) :
    (s.capture c i f).chans.length = s.chans.length := by
  simp [State.capture, modSlot_eq]
@[simp] theorem capture_seq (s : State) (c i : Nat) (f : CanFrame) : (s.capture c i f).seq = (s.noteOverwrite c i).seq := rfl
theorem capture_chan (s : State) (c i d : Nat) (f : CanFrame) (h : c < s.chans.length) :
    (s.capture c i f).chan d =
      if d = c then { s.chan c with slots := (s.chan c).slots.set i { flag := true, frame := f } } else s.chan d := by
  unfold State.capture
  rw [modSlot_eq, chan_modChan _ c d _ (by simpa using h)]
  simp [RxSlot.capture]

/-! ## The copy-out -/

/-- With no handler in the window the consumer obtains the slot's frame (46_bridge_loop.md R242 c). -/
@[simp] theorem copyOut_nil (now : CanFrame) (d : CopyDraw) : copyOut [] now d = now := rfl

theorem pickFrame_mem (frames : List CanFrame) (k : Nat) (h : frames ≠ []) : pickFrame frames k ∈ frames := by
  have hl : k % frames.length < frames.length := Nat.mod_lt _ (List.length_pos_iff.mpr h)
  simp [pickFrame, List.getD_eq_getElem?_getD, List.getElem?_eq_getElem hl]

/-- A torn copy holds exactly the payload its own DLC announces. -/
theorem tornCopy_sized (frames : List CanFrame) (d : CopyDraw) : frameSized (tornCopy frames d) = true := by
  simp only [frameSized, tornCopy, decide_eq_true_eq, List.length_map, List.length_range]; rfl

/-! ## Encoding -/

theorem encodeRx_next (s t : State) (f : CanFrame) (h : s.encodeRx f = .next t) :
    encodable f = true ∧ t = s.withSub (.write (encodeFrame f (s.chan s.seq.chan).ch.flags.timestamp
      (s.chan s.seq.chan).ch.timestamp.toNat)) := by
  unfold State.encodeRx at h
  split at h
  · next he => exact ⟨he, by simpa using h.symm⟩
  · cases h

/-! ## The end of a pass -/

@[simp] theorem endPass_chans (s : State) : s.endPass.chans = s.chans := by unfold State.endPass; split <;> rfl
@[simp] theorem endPass_chan (s : State) (c : Nat) : s.endPass.chan c = s.chan c := by simp [State.chan]
@[simp] theorem endPass_trace (s : State) : s.endPass.trace = s.trace := by unfold State.endPass; split <;> rfl
@[simp] theorem endPass_sched (s : State) : s.endPass.sched = s.sched := by unfold State.endPass; split <;> rfl

end Sys2Proof.Machine
end

