-- ==== Sys2Proof/Laws/Step.lean ====
section
/-! SUPPORT. What one step is for each kind of event, and how steps add up; cited instead of unfolding `step`. -/

namespace Sys2Proof.Machine

@[simp] theorem steps_zero (s : State) : steps 0 s = .next s := rfl

theorem steps_succ (n : Nat) (s : State) :
    steps (n + 1) s =
      match step s with
      | .next t => steps n t
      | .fault r => .fault r
      | .refused r => .refused r := rfl

/-- A first step that answers a next state is taken off a run. -/
theorem steps_succ_next (n : Nat) (s t : State) (h : step s = .next t) : steps (n + 1) s = steps n t := by
  rw [steps_succ, h]

/-- A channel does not depend on the sequencer, the schedule or the trace. -/
@[simp] theorem chan_mk (s : State) (q : Sequencer) (es : List Event) (tr : List Output) (c : Nat) :
    ({ chans := s.chans, seq := q, sched := es, trace := tr } : State).chan c = s.chan c := rfl

/-- The channel put into a place of the list is the one read there. -/
theorem chan_set (l : List Channel) (q : Sequencer) (es : List Event) (tr : List Output) (c : Nat) (x : Channel)
    (h : c < l.length) : ({ chans := l.set c x, seq := q, sched := es, trace := tr } : State).chan c = x := by
  simp [State.chan, List.getD_eq_getElem?_getD, h]

/-- Putting a channel back into its place changes nothing. -/
theorem set_chan_self (s : State) (c : Nat) (h : c < s.chans.length) : s.chans.set c (s.chan c) = s.chans := by
  simp [State.chan, List.getD_eq_getElem?_getD, h]

/-- Two states with the same channels one by one and the same other fields are equal. -/
theorem state_ext (s t : State) (hl : s.chans.length = t.chans.length)
    (hc : ∀ c, c < s.chans.length → s.chan c = t.chan c) (hq : s.seq = t.seq) (he : s.sched = t.sched)
    (ht : s.trace = t.trace) : s = t := by
  cases s; cases t
  simp only at hl hc hq he ht
  subst hq he ht
  congr 1
  refine List.ext_getElem hl (fun i h1 h2 => ?_)
  simpa [State.chan, List.getD_eq_getElem?_getD, h1, h2] using hc i h1

/-- An event of a configured channel other than a turn of `BRIDGE`. -/
theorem onChannel_of_lt (s : State) (c : Nat) (f : State → State) (h : c < s.chans.length) : s.onChannel c f = f s :=
  if_pos h

theorem step_cons (s : State) (e : Event) (rest : List Event) (h : s.sched = e :: rest) :
    step s = takeEvent e { s with sched := rest } := by
  unfold step stepOnce; rw [h]

/-- A turn of `BRIDGE` in phase 1. -/
theorem step_p1 (s : State) (c : Nat) (x : Channel) (m : Sub) (d : CopyDraw) (rest : List Event)
    (h : s.atPlace c x .p1 m) (hs : s.sched = .bridge d :: rest) :
    step s = ({ s with sched := rest } : State).phase1Turn d := by
  rw [step_cons s _ _ hs]
  simp only [takeEvent, State.bridgeTurn, h.chan, h.phase, if_pos h.configured]

/-- A turn of `BRIDGE` in phase 2. -/
theorem step_p2 (s : State) (c : Nat) (x : Channel) (m : Sub) (d : CopyDraw) (rest : List Event)
    (h : s.atPlace c x .p2 m) (hs : s.sched = .bridge d :: rest) :
    step s = ({ s with sched := rest } : State).phase2Turn := by
  rw [step_cons s _ _ hs]
  simp only [takeEvent, State.bridgeTurn, h.chan, h.phase, if_pos h.configured]

/-! What a turn is at each micro-step of its phase. -/

theorem phase1Turn_ready (s : State) (d : CopyDraw) (h : s.seq.sub = .ready) : s.phase1Turn d = .next s.p1Test := by
  unfold State.phase1Turn; rw [h]
theorem phase1Turn_clear (s : State) (d : CopyDraw) (h : s.seq.sub = .clear) : s.phase1Turn d = .next s.p1Clear := by
  unfold State.phase1Turn; rw [h]
theorem phase1Turn_copy (s : State) (d : CopyDraw) (earlier : List CanFrame) (h : s.seq.sub = .copy earlier) :
    s.phase1Turn d = .next (s.p1Copy earlier d) := by
  unfold State.phase1Turn; rw [h]
theorem phase1Turn_encode (s : State) (d : CopyDraw) (g : CanFrame) (h : s.seq.sub = .encode g) :
    s.phase1Turn d = s.p1Encode g := by
  unfold State.phase1Turn; rw [h]
theorem phase1Turn_write (s : State) (d : CopyDraw) (out : List Byte) (h : s.seq.sub = .write out) :
    s.phase1Turn d = .next (s.p1Write out) := by
  unfold State.phase1Turn; rw [h]
theorem phase2Turn_ready (s : State) (h : s.seq.sub = .ready) : s.phase2Turn = s.p2Read := by
  unfold State.phase2Turn; rw [h]
theorem phase2Turn_decode (s : State) (h : s.seq.sub = .decode) : s.phase2Turn = s.p2Decode := by
  unfold State.phase2Turn; rw [h]
theorem phase2Turn_dispatch (s : State) (a : Action) (h : s.seq.sub = .dispatch a) :
    s.phase2Turn = .next (s.p2Dispatch a) := by
  unfold State.phase2Turn; rw [h]
theorem phase2Turn_txWait (s : State) (h : s.seq.sub = .txWait) : s.phase2Turn = .next s.p2TxWait := by
  unfold State.phase2Turn; rw [h]

/-- A step with no event left changes nothing. -/
theorem step_nil (s : State) (h : s.sched = []) : step s = .next s := by
  unfold step stepOnce; rw [h]

end Sys2Proof.Machine
end

