-- ==== Sys2Proof/Laws/Isr.lean ====
section
/-! SUPPORT. What the receive interrupt does (45_frame_store_isr.md): one read, one dedicated buffer, all of them, and the
whole handler, each with the channel, the trace and the sequencer it leaves. -/

namespace Sys2Proof.Machine

/-- The frame a hardware frame becomes, as a captured slot (R222 to R226). -/
def captured (h : HwFrame) : RxSlot := { flag := true, frame := frameOf h }

/-- The sequencer after the handler wrote slot i of channel c, which held `old` (20_memory.md R72). -/
def overwritten (q : Sequencer) (c i : Nat) (old : CanFrame) : Sequencer :=
  match q.phase, q.sub with
  | .p1, .copy earlier => if q.chan = c ∧ q.slot = i then { q with sub := .copy (earlier ++ [old]) } else q
  | _, _ => q

theorem noteOverwrite_seq (s : State) (c i : Nat) :
    (s.noteOverwrite c i).seq = overwritten s.seq c i ((s.chan c).slot i).frame := by
  rcases s with ⟨chans, ⟨qc, ph, sl, sb⟩, es, tr⟩
  unfold State.noteOverwrite overwritten
  cases ph <;> cases sb <;> first | rfl | (simp only; split <;> rfl)

@[simp] theorem overwritten_chan (q : Sequencer) (c i : Nat) (old : CanFrame) : (overwritten q c i old).chan = q.chan := by
  unfold overwritten; split
  · split <;> rfl
  · rfl
@[simp] theorem overwritten_slot (q : Sequencer) (c i : Nat) (old : CanFrame) : (overwritten q c i old).slot = q.slot := by
  unfold overwritten; split
  · split <;> rfl
  · rfl
@[simp] theorem overwritten_phase (q : Sequencer) (c i : Nat) (old : CanFrame) :
    (overwritten q c i old).phase = q.phase := by
  unfold overwritten; split
  · split <;> rfl
  · rfl

/-- A write of a slot that is not being copied leaves the sequencer. -/
theorem overwritten_other (q : Sequencer) (c i : Nat) (old : CanFrame) (h : q.chan ≠ c ∨ q.slot ≠ i) :
    overwritten q c i old = q := by
  unfold overwritten
  split
  · rw [if_neg (by rintro ⟨a, b⟩; rcases h with h | h <;> contradiction)]
  · rfl

/-- `HwRead` of a source with a frame, and the write of its slot (R222, R223). -/
theorem armRead_eq (s : State) (c : Nat) (src : RxSource) (h : HwFrame) (hc : c < s.chans.length)
    (hf : (s.chan c).hw.rx.front src = some h) :
    s.armRead c src =
      { chans := s.chans.set c
          { s.chan c with
            slots := (s.chan c).slots.set (slotOf src) (captured h),
            hw := { (s.chan c).hw with rx := (s.chan c).hw.rx.afterRead src } },
        seq := overwritten s.seq c (slotOf src) ((s.chan c).slot (slotOf src)).frame,
        sched := s.sched, trace := s.trace ++ [.hwRead c src] } := by
  unfold State.armRead
  rw [hf]
  have hx : ((s.emit (.hwRead c src)).modRx c (fun v => v.afterRead src)).chan c =
      { s.chan c with hw := { (s.chan c).hw with rx := (s.chan c).hw.rx.afterRead src } } := by
    rw [modRx_eq, chan_modChan_same _ _ _ (by simpa using hc)]; rfl
  have hs : ∀ i, ({ s.chan c with hw := { (s.chan c).hw with rx := (s.chan c).hw.rx.afterRead src } } : Channel).slot i =
      (s.chan c).slot i := fun _ => rfl
  refine state_ext _ _ ?_ ?_ ?_ ?_ ?_
  · simp [modRx_eq]
  · intro d hd
    have hd' : d < s.chans.length := by simpa [modRx_eq] using hd
    rw [capture_chan _ _ _ _ _ (by simpa [modRx_eq] using hc), hx]
    by_cases e : d = c
    · subst e; rw [if_pos rfl, chan_set _ _ _ _ _ _ hc]; rfl
    · rw [if_neg e, modRx_eq, chan_modChan_other _ _ _ _ e]
      simp [State.chan, List.getD_eq_getElem?_getD, Ne.symm e]
  · rw [capture_seq, noteOverwrite_seq, hx, hs]; rfl
  · rw [capture_sched]; rfl
  · rw [capture_trace]; rfl

/-- One dedicated buffer with data (R224). -/
theorem armDedicated_eq (s : State) (c k : Nat) (h : HwFrame) (hc : c < s.chans.length)
    (hf : (s.chan c).hw.rx.ded.getD k none = some h) :
    s.armDedicated c k =
      { chans := s.chans.set c
          { s.chan c with
            slots := (s.chan c).slots.set (2 + k) (captured h),
            hw := { (s.chan c).hw with rx := (s.chan c).hw.rx.clearNdat k } },
        seq := overwritten s.seq c (2 + k) ((s.chan c).slot (2 + k)).frame,
        sched := s.sched, trace := s.trace ++ [.hwRead c (.dedicated k), .clearNdat c k] } := by
  unfold State.armDedicated
  rw [armRead_eq s c (.dedicated k) h hc hf]
  simp [State.emit, modRx_eq, State.modChan, chan_set, hc, RxView.afterRead, slotOf]

/-- The frames the dedicated arm captures: buffer j's, for j from k on, n of them. -/
def dedicatedFrame (ded : List (Option HwFrame)) (k n i : Nat) : Option HwFrame :=
  if 2 + k ≤ i ∧ i < 2 + k + n then ded.getD (i - 2) none else none

/-- The outputs of the dedicated arm over n buffers from k. -/
def dedicatedOutputs (c : Nat) (ded : List (Option HwFrame)) (k n : Nat) : List Output :=
  (List.range' k n).flatMap
    (fun j => if (ded.getD j none).isSome then [.hwRead c (.dedicated j), .clearNdat c j] else [])

/-- The dedicated arm over n buffers from k (R224). -/
theorem armAllDedicated_spec (n : Nat) : ∀ (s : State) (c k : Nat), c < s.chans.length →
    (s.chan c).hw.rx.ded.length + 2 ≤ (s.chan c).slots.length →
    ∃ slots ded q, s.armAllDedicated c k n =
        { chans := s.chans.set c
            { s.chan c with
              slots := slots, hw := { (s.chan c).hw with rx := { (s.chan c).hw.rx with ded := ded } } },
          seq := q, sched := s.sched, trace := s.trace ++ dedicatedOutputs c (s.chan c).hw.rx.ded k n } ∧
      slots.length = (s.chan c).slots.length ∧ ded.length = (s.chan c).hw.rx.ded.length ∧
      (∀ i < slots.length, slots[i]? =
        match dedicatedFrame (s.chan c).hw.rx.ded k n i with
        | some h => some (captured h)
        | none => (s.chan c).slots[i]?) ∧
      (∀ j, ded.getD j none = if k ≤ j ∧ j < k + n then none else (s.chan c).hw.rx.ded.getD j none) ∧
      q = (if s.seq.chan = c ∧ (dedicatedFrame (s.chan c).hw.rx.ded k n s.seq.slot).isSome then
          overwritten s.seq c s.seq.slot ((s.chan c).slot s.seq.slot).frame else s.seq) := by
  induction n with
  | zero =>
    intro s c k hc hl
    refine ⟨(s.chan c).slots, (s.chan c).hw.rx.ded, s.seq, ?_, rfl, rfl, ?_, ?_, ?_⟩
    · show s = _
      rw [set_chan_self s c hc]
      simp [dedicatedOutputs]
    · intro i _
      rw [dedicatedFrame, if_neg (by omega)]
    · intro j; rw [if_neg (by omega)]
    · have : dedicatedFrame (s.chan c).hw.rx.ded k 0 s.seq.slot = none := by
        unfold dedicatedFrame; rw [if_neg (by omega)]
      simp [this]
  | succ n ih =>
    intro s c k hc hl
    unfold State.armAllDedicated
    cases hk : (s.chan c).hw.rx.ded.getD k none with
    | none =>
      simp only [Option.isSome_none, Bool.false_eq_true, if_false]
      obtain ⟨slots, ded, q, he, h1, h2, h3, h4, h5⟩ := ih s c (k + 1) hc hl
      have hfr : ∀ i, dedicatedFrame (s.chan c).hw.rx.ded (k + 1) n i = dedicatedFrame (s.chan c).hw.rx.ded k (n + 1) i := by
        intro i
        unfold dedicatedFrame
        by_cases e : i = 2 + k
        · subst e
          rw [if_neg (by omega), if_pos (by omega), show 2 + k - 2 = k by omega, hk]
        · by_cases e2 : 2 + (k + 1) ≤ i ∧ i < 2 + (k + 1) + n
          · rw [if_pos e2, if_pos (by omega)]
          · rw [if_neg e2, if_neg (by omega)]
      refine ⟨slots, ded, q, ?_, h1, h2, ?_, ?_, ?_⟩
      · rw [he]
        rw [dedicatedOutputs, dedicatedOutputs, List.range'_succ, List.flatMap_cons, hk]
        rfl
      · intro i hi; rw [h3 i hi, hfr]
      · intro j
        rw [h4 j]
        by_cases e : j = k
        · subst e; rw [if_neg (by omega), if_pos (by omega), hk]
        · by_cases e2 : k + 1 ≤ j ∧ j < k + 1 + n
          · rw [if_pos e2, if_pos (by omega)]
          · rw [if_neg e2, if_neg (by omega)]
      · rw [h5, hfr]
    | some h =>
      simp only [Option.isSome_some, if_true]
      rw [armDedicated_eq s c k h hc hk]
      have hkl : k < (s.chan c).hw.rx.ded.length := by
        by_contra hn
        rw [List.getD_eq_getElem?_getD, List.getElem?_eq_none (by omega)] at hk
        cases hk
      obtain ⟨slots, ded, q, he, h1, h2, h3, h4, h5⟩ := ih
        { chans := s.chans.set c
            { s.chan c with
              slots := (s.chan c).slots.set (2 + k) (captured h),
              hw := { (s.chan c).hw with rx := (s.chan c).hw.rx.clearNdat k } },
          seq := overwritten s.seq c (2 + k) ((s.chan c).slot (2 + k)).frame,
          sched := s.sched, trace := s.trace ++ [.hwRead c (.dedicated k), .clearNdat c k] } c (k + 1)
        (by simpa using hc) (by simpa [chan_set, hc, RxView.clearNdat] using hl)
      simp only [chan_set _ _ _ _ _ _ hc, RxView.clearNdat, List.length_set] at he h1 h2 h3 h4 h5
      have hset : ∀ j, ((s.chan c).hw.rx.ded.set k none).getD j none =
          if j = k then none else (s.chan c).hw.rx.ded.getD j none := by
        intro j
        by_cases e : j = k
        · subst e; simp [List.getD_eq_getElem?_getD, hkl]
        · simp [List.getD_eq_getElem?_getD, e, Ne.symm e]
      have hfr : ∀ i, i ≠ 2 + k → dedicatedFrame ((s.chan c).hw.rx.ded.set k none) (k + 1) n i =
          dedicatedFrame (s.chan c).hw.rx.ded k (n + 1) i := by
        intro i e
        unfold dedicatedFrame
        by_cases e2 : 2 + (k + 1) ≤ i ∧ i < 2 + (k + 1) + n
        · rw [if_pos e2, if_pos (by omega), hset, if_neg (by omega)]
        · rw [if_neg e2, if_neg (by omega)]
      have hfk : dedicatedFrame ((s.chan c).hw.rx.ded.set k none) (k + 1) n (2 + k) = none := by
        unfold dedicatedFrame; rw [if_neg (by omega)]
      have hfk' : dedicatedFrame (s.chan c).hw.rx.ded k (n + 1) (2 + k) = some h := by
        unfold dedicatedFrame; rw [if_pos (by omega), show 2 + k - 2 = k by omega, hk]
      refine ⟨slots, ded, q, ?_, h1, h2, ?_, ?_, ?_⟩
      · refine Eq.trans he ?_
        have hout : dedicatedOutputs c ((s.chan c).hw.rx.ded.set k none) (k + 1) n =
            dedicatedOutputs c (s.chan c).hw.rx.ded (k + 1) n := by
          unfold dedicatedOutputs
          refine List.flatMap_congr (fun j hj => ?_)
          rw [List.mem_range'_1] at hj
          have hj' : ((s.chan c).hw.rx.ded.set k none).getD j none = (s.chan c).hw.rx.ded.getD j none := by
            rw [hset, if_neg (by omega)]
          rw [hj']
        have hsucc : dedicatedOutputs c (s.chan c).hw.rx.ded k (n + 1) =
            [.hwRead c (.dedicated k), .clearNdat c k] ++ dedicatedOutputs c (s.chan c).hw.rx.ded (k + 1) n := by
          rw [dedicatedOutputs, List.range'_succ, List.flatMap_cons, hk]; rfl
        simp only [hout, hsucc, List.set_set, List.append_assoc]
      · intro i hi
        rw [h3 i hi]
        by_cases e : i = 2 + k
        · subst e
          rw [hfk, hfk']
          simp [List.getElem?_set, show 2 + k < (s.chan c).slots.length by omega]
        · rw [hfr i e]
          simp [List.getElem?_set, Ne.symm e]
      · intro j
        rw [h4 j, hset]
        by_cases e : j = k
        · subst e; rw [if_neg (by omega), if_pos rfl, if_pos (by omega)]
        · by_cases e2 : k + 1 ≤ j ∧ j < k + 1 + n
          · rw [if_pos e2, if_pos (by omega)]
          · rw [if_neg e2, if_neg e, if_neg (by omega)]
      · rw [h5]
        simp only [overwritten_chan, overwritten_slot]
        by_cases e : s.seq.slot = 2 + k
        · rw [e, hfk, hfk']
          simp only [Option.isSome_none, Option.isSome_some, and_true, and_false, Bool.false_eq_true, if_false]
          by_cases e2 : s.seq.chan = c
          · rw [if_pos e2]
          · rw [if_neg e2, overwritten_other _ _ _ _ (.inl e2)]
        · rw [hfr _ e, overwritten_other s.seq c (2 + k) _ (.inr e)]
          by_cases e2 : s.seq.chan = c ∧
              (dedicatedFrame (s.chan c).hw.rx.ded k (n + 1) s.seq.slot).isSome = true
          · rw [if_pos e2, if_pos e2]
            congr 1
            unfold Channel.slot
            simp [List.getD_eq_getElem?_getD, List.getElem?_set, Ne.symm e]
          · rw [if_neg e2, if_neg e2]

end Sys2Proof.Machine
end

