-- ==== Sys2Proof/Laws/PerInstr.lean ====
section
/-! SUPPORT. Statements for all instructions, proved constructor by constructor. EncodeFits: the canonical line of a
well-formed instruction has at most 138 bytes (30_encoding.md R108) and holds no CR (R91). -/

namespace Sys2Proof.Laws

open Sys2Proof.Machine

/-- The canonical line fits every line buffer and is one line. -/
def EncodeFits.Statement (i : Instr) : Prop := i.wellFormed = true → (encode i).length ≤ 138 ∧ cr ∉ encode i

/-- The shared argument for the sixteen frame forms. -/
theorem encodeOps_fits (ext rtr fd brs : Bool) (o : FrameOps) (c : Byte) (hc : cmdChar ext rtr fd brs = some c)
    (h : o.wf ext rtr fd brs = true) : (encodeOps ext rtr fd brs o).length ≤ 138 ∧ cr ∉ encodeOps ext rtr fd brs o := by
  have hs : frameSized (o.toFrame ext rtr fd brs) = true := (Bool.and_eq_true_iff.mp h).2
  refine ⟨?_, frameLine_no_cr _⟩
  rw [encodeOps, frameLine_length _ c hc hs]
  have h1 : idDigits (o.toFrame ext rtr fd brs).ext ≤ 8 := by unfold idDigits; split <;> omega
  have h2 : flen (o.toFrame ext rtr fd brs) ≤ 64 := by unfold flen; split; · omega
                                                       · exact dlcLen_le _
  omega

theorem encodeTx_fits (ext rtr fd brs : Bool) (a : Arg FrameOps) (c : Byte) (hc : cmdChar ext rtr fd brs = some c)
    (h : txArgWf ext rtr fd brs a = true) : (encodeTx ext rtr fd brs a).length ≤ 138 ∧ cr ∉ encodeTx ext rtr fd brs a := by
  cases a with
  | ok o => exact encodeOps_fits ext rtr fd brs o c hc h
  | bad w => cases h

theorem EncodeFits.openChannel : EncodeFits.Statement .openChannel := fun _ => by decide

theorem EncodeFits.closeChannel : EncodeFits.Statement .closeChannel := fun _ => by decide

theorem EncodeFits.setBitrate (arg : Arg (Fin 9)) : EncodeFits.Statement (.setBitrate arg) := by
  cases arg with
  | ok k => intro _; revert k; decide
  | bad w => intro h; cases h

theorem EncodeFits.setDataRate (arg : Arg FdRate) : EncodeFits.Statement (.setDataRate arg) := by
  cases arg with
  | ok r => intro _; cases r <;> decide
  | bad w => intro h; cases h

theorem EncodeFits.setTimestamp (arg : Arg Bool) : EncodeFits.Statement (.setTimestamp arg) := by
  cases arg with
  | ok on => intro _; cases on <;> decide
  | bad w => intro h; cases h

theorem EncodeFits.txStdData (op : Arg FrameOps) : EncodeFits.Statement (.txStdData op) := encodeTx_fits false false false false op _ rfl

theorem EncodeFits.txExtData (op : Arg FrameOps) : EncodeFits.Statement (.txExtData op) := encodeTx_fits true false false false op _ rfl

theorem EncodeFits.txStdRemote (op : Arg FrameOps) : EncodeFits.Statement (.txStdRemote op) := encodeTx_fits false true false false op _ rfl

theorem EncodeFits.txExtRemote (op : Arg FrameOps) : EncodeFits.Statement (.txExtRemote op) := encodeTx_fits true true false false op _ rfl

theorem EncodeFits.txStdFd (op : Arg FrameOps) : EncodeFits.Statement (.txStdFd op) := encodeTx_fits false false true false op _ rfl

theorem EncodeFits.txExtFd (op : Arg FrameOps) : EncodeFits.Statement (.txExtFd op) := encodeTx_fits true false true false op _ rfl

theorem EncodeFits.txStdFdBrs (op : Arg FrameOps) : EncodeFits.Statement (.txStdFdBrs op) := encodeTx_fits false false true true op _ rfl

theorem EncodeFits.txExtFdBrs (op : Arg FrameOps) : EncodeFits.Statement (.txExtFdBrs op) := encodeTx_fits true false true true op _ rfl

theorem EncodeFits.querySoftware : EncodeFits.Statement .querySoftware := fun _ => by decide

theorem EncodeFits.queryHardware : EncodeFits.Statement .queryHardware := fun _ => by decide

theorem EncodeFits.querySerial : EncodeFits.Statement .querySerial := fun _ => by decide

theorem EncodeFits.queryStatus : EncodeFits.Statement .queryStatus := fun _ => by decide

theorem EncodeFits.stubL : EncodeFits.Statement .stubL := fun _ => by decide

theorem EncodeFits.stubA : EncodeFits.Statement .stubA := fun _ => by decide

theorem EncodeFits.stubP : EncodeFits.Statement .stubP := fun _ => by decide

theorem EncodeFits.stubU : EncodeFits.Statement .stubU := fun _ => by decide

theorem EncodeFits.stubLowerS : EncodeFits.Statement .stubLowerS := fun _ => by decide

theorem EncodeFits.stubW : EncodeFits.Statement .stubW := fun _ => by decide

theorem EncodeFits.stubM : EncodeFits.Statement .stubM := fun _ => by decide

theorem EncodeFits.stubLowerM : EncodeFits.Statement .stubLowerM := fun _ => by decide

theorem EncodeFits.stubX : EncodeFits.Statement .stubX := fun _ => by decide

theorem EncodeFits.stubQ : EncodeFits.Statement .stubQ := fun _ => by decide

theorem EncodeFits.emptyLine : EncodeFits.Statement .emptyLine := fun _ => by decide

theorem EncodeFits.otherLine (first : Byte) : EncodeFits.Statement (.otherLine first) := by
  intro h
  have hc : first ≠ cr := by simpa using (Bool.and_eq_true_iff.mp h).2
  simp [encode, Ne.symm hc]

theorem EncodeFits.rxStdData (op : FrameOps) : EncodeFits.Statement (.rxStdData op) := encodeOps_fits false false false false op _ rfl

theorem EncodeFits.rxExtData (op : FrameOps) : EncodeFits.Statement (.rxExtData op) := encodeOps_fits true false false false op _ rfl

theorem EncodeFits.rxStdRemote (op : FrameOps) : EncodeFits.Statement (.rxStdRemote op) := encodeOps_fits false true false false op _ rfl

theorem EncodeFits.rxExtRemote (op : FrameOps) : EncodeFits.Statement (.rxExtRemote op) := encodeOps_fits true true false false op _ rfl

theorem EncodeFits.rxStdFd (op : FrameOps) : EncodeFits.Statement (.rxStdFd op) := encodeOps_fits false false true false op _ rfl

theorem EncodeFits.rxExtFd (op : FrameOps) : EncodeFits.Statement (.rxExtFd op) := encodeOps_fits true false true false op _ rfl

theorem EncodeFits.rxStdFdBrs (op : FrameOps) : EncodeFits.Statement (.rxStdFdBrs op) := encodeOps_fits false false true true op _ rfl

theorem EncodeFits.rxExtFdBrs (op : FrameOps) : EncodeFits.Statement (.rxExtFdBrs op) := encodeOps_fits true false true true op _ rfl

end Sys2Proof.Laws
end

