-- ==== Sys2Proof/Laws/Reset.lean ====
section
/-! SUPPORT. The reset state's channels and slots one by one, and states beside it that have the invariant (for the tests'
witnesses). -/

namespace Sys2Proof.Machine

theorem resetChans_get (c n i : Nat) (h : i < n) : (resetChans c n)[i]? = some (Channel.reset (c + i)) := by
  induction n generalizing c i with
  | zero => omega
  | succ n ih =>
    cases i with
    | zero => rfl
    | succ i =>
      rw [resetChans, List.getElem?_cons_succ, ih (c + 1) i (by omega)]
      congr 2; omega

@[simp] theorem resetChans_length (c n : Nat) : (resetChans c n).length = n := by
  induction n generalizing c with
  | zero => rfl
  | succ n ih => simp [resetChans, ih]

@[simp] theorem resetSlots_length (c i n : Nat) : (resetSlots c i n).length = n := by
  induction n generalizing i with
  | zero => rfl
  | succ n ih => simp [resetSlots, ih]

theorem resetSlots_flag (c i n : Nat) : ∀ y ∈ resetSlots c i n, y.flag = false := by
  induction n generalizing i with
  | zero => simp [resetSlots]
  | succ n ih =>
    intro y hy
    rcases List.mem_cons.mp hy with rfl | hy
    · rfl
    · exact ih (i + 1) y hy

/-- No slot of a channel at reset is flagged, a slot that does not exist included. -/
theorem reset_slot_flag (c i : Nat) : ((Channel.reset c).slot i).flag = false := by
  unfold Channel.slot
  rw [List.getD_eq_getElem?_getD]
  cases h : (Channel.reset c).slots[i]? with
  | none => rfl
  | some y => exact resetSlots_flag c 0 Config.nSlots y (List.mem_of_getElem? h)

theorem reset_channelInv (c : Nat) : ChannelInv c (Channel.reset c) where
  identity := ⟨rfl, rfl, rfl⟩
  slotCount := resetSlots_length c 0 _
  fdEnabled := rfl
  openAgrees := ⟨rfl, rfl⟩
  rates := ⟨.inl rfl, .inl rfl⟩
  lineFits := Nat.zero_le _
  flaggedSized i h := by rw [reset_slot_flag] at h; cases h

/-- The reset state's channels with another schedule and sequencer have the invariant wherever the sequencer's place fits
channels at reset. -/
theorem reset_at_inv (q : Sequencer) (es : List Event) (hc : q.chan < Config.nCh) (hs : q.slot ≤ Config.nSlots)
    (hq : sequencerInv q (Channel.reset q.chan)) : ({ State.reset with seq := q, sched := es } : State).Inv := by
  have hlen : State.reset.chans.length = Config.nCh := resetChans_length 0 _
  have hchan : ∀ c, c < Config.nCh → ({ State.reset with seq := q, sched := es } : State).chan c = Channel.reset c := by
    intro c h
    show (resetChans 0 Config.nCh).getD c default = _
    rw [List.getD_eq_getElem?_getD, resetChans_get 0 _ c h, Nat.zero_add]; rfl
  exact
    { chanCount := hlen
      inRange := ⟨by rw [hlen]; exact hc, hs⟩
      channels := fun c h => by rw [hchan c (by simpa [hlen] using h)]; exact reset_channelInv c
      sequencer := by rw [hchan _ hc]; exact hq
      lbEmpty := fun c h _ => by rw [hchan c (by simpa [hlen] using h)]; rfl
      txBusyWaits := fun c h hb => by rw [hchan c (by simpa [hlen] using h)] at hb; cases hb }

/-- Another line buffer and serial queue for the channel whose line is being read keep the invariant. -/
theorem inv_reading (s : State) (lb serq : List Byte) (h : s.Inv) (hp : s.seq.phase = .p2) (hm : s.seq.sub = .ready)
    (hl : lb.length ≤ Config.lineMax) :
    (s.modChan s.seq.chan (fun x => { x with lb := lb, serq := serq })).Inv := by
  have hc := h.inRange.1
  have key := chan_modChan s s.seq.chan
  have hx := h.channels _ hc
  exact
    { chanCount := by simpa using h.chanCount
      inRange := by simpa using h.inRange
      channels := fun c hlt => by
        rw [key c _ hc]
        split
        · next e => subst e; exact { hx with lineFits := hl, flaggedSized := hx.flaggedSized }
        · exact h.channels c (by simpa using hlt)
      sequencer := by
        simp only [sequencerInv, modChan_seq, hp, hm]
      lbEmpty := fun c hlt hn => by
        rw [key c _ hc]
        split
        · next e => subst e; exact absurd ⟨hp, rfl⟩ hn
        · exact h.lbEmpty c (by simpa using hlt) hn
      txBusyWaits := fun c hlt hb => by
        rw [key c _ hc] at hb
        split at hb
        · next e => subst e; exact h.txBusyWaits _ hc hb
        · exact h.txBusyWaits c (by simpa using hlt) hb }

end Sys2Proof.Machine
end

