-- ==== Sys2Proof/Tests/Slice0.lean ====
section
/-! SUPPORT. Tests: the WellFormed smoke, a decoded word for every constructor (its bytes written out from
30_encoding.md), one step of each instruction and event (expected values from the rules and from 95_test_vectors.md),
and a witness for the hypotheses of every statement of Certificates/Slice0/Obligations.lean. -/

namespace Sys2Proof.Tests

open Sys2Proof Sys2Proof.Machine

/-! ## Helpers -/

/-- fA of 95_test_vectors.md 2.7. -/
def fA : CanFrame := { id := 0x100#29, ext := false, rtr := false, fd := false, brs := false, dlc := 0#4, data := [] }

/-- fB of 95_test_vectors.md 2.7. -/
def fB : CanFrame := { fA with id := 0x200#29, dlc := 1#4, data := [0x7F#8] }

/-- fA and fB as the controller presents them. -/
def hA : HwFrame := { id := 0x100#29, ext := false, rtr := false, fd := false, brs := false, dlc := 0#4, payload := [] }
def hB : HwFrame := { hA with id := 0x200#29, dlc := 1#4, payload := [0x7F#8, 0xEE#8] }

/-- A frame that breaks W4 of 10_state.md R32: classic with DLC 9, and the 12 bytes the DLC announces. -/
def fBad : CanFrame := { fA with dlc := 9#4, data := List.replicate 12 0#8 }

/-- A receive view: these causes, these frames. -/
def view (f0n f1n drx : Bool) (f0 f1 : List HwFrame) (ded : List (Option HwFrame)) : RxView :=
  { pending := { f0n := f0n, f1n := f1n, drx := drx }, fifo0 := f0, fifo1 := f1, ded := ded }

/-- A closed channel 0 with a flagged slot 0, a clear slot 1 and one dedicated buffer's slot. -/
def closedCh : Channel :=
  { ch := { index := 0, hwHandle := 0, irqVector := 0,
            cfg := { nominalBitrate := 0#32, dataBitrate := 2000000#32, mode := .listenOnly, fdEnable := true },
            isOpen := false, flags := { timestamp := false }, timestamp := 7#Config.tsWidth },
    slots := [{ flag := true, frame := fA }, { flag := false, frame := fA }, { flag := false, frame := fA }],
    lb := [], serq := [], busy := false,
    hw := { enabled := false, irqEn := false, txBusy := false, rx := view false false false [] [] [none] } }

/-- The same channel open at 500 kbps. -/
def openCh : Channel :=
  { closedCh with
    ch := { closedCh.ch with isOpen := true, cfg := { closedCh.ch.cfg with nominalBitrate := 500000#32 } },
    hw := { closedCh.hw with enabled := true, irqEn := true } }

/-- A machine of one channel with `BRIDGE` at this place and this schedule. -/
def place (x : Channel) (p : Phase) (m : Sub) (es : List Event) : State :=
  { chans := [x], seq := { chan := 0, phase := p, slot := 0, sub := m }, sched := es, trace := [] }

/-- A machine about to execute a command. -/
def ready (x : Channel) : State := place x .p2 .decode []

/-- The payload 00 to 0B. -/
def twelve : List Byte := [0x00#8, 0x01#8, 0x02#8, 0x03#8, 0x04#8, 0x05#8, 0x06#8, 0x07#8, 0x08#8, 0x09#8, 0x0A#8, 0x0B#8]

def turn : Event := .bridge default

/-- One field of the next state, if there is one. -/
def after {α : Type} (o : Host.Outcome State Fault Refusal) (f : State → α) : Option α :=
  match o with
  | .next s => some (f s)
  | .fault _ => none
  | .refused _ => none

/-- The refusal, if the step is refused. -/
def refusal (o : Host.Outcome State Fault Refusal) : Option Refusal :=
  match o with
  | .next _ => none
  | .fault _ => none
  | .refused r => some r

def subOf (s : State) : Sub := s.seq.sub
def cfgOf (s : State) : ChannelConfig := (s.chan 0).ch.cfg

/-! ## WellFormed smoke: each check refuses an ill-formed term -/

def ops (id : BitVec 29) (dlc : BitVec 4) (data : List Byte) : FrameOps := { id := id, dlc := dlc, data := data }

theorem test_wellFormed_refuses_bitrate_argument : (Instr.wellFormed (.setBitrate (.bad .arg))) = false := by decide
theorem test_wellFormed_refuses_dataRate_argument : (Instr.wellFormed (.setDataRate (.bad .arg))) = false := by decide
theorem test_wellFormed_refuses_timestamp_argument :
    (Instr.wellFormed (.setTimestamp (.bad .arg))) = false := by decide
theorem test_wellFormed_refuses_malformed_transmit : (Instr.wellFormed (.txStdData (.bad .dlc))) = false := by decide
theorem test_wellFormed_refuses_standard_id :
    (Instr.wellFormed (.txStdData (.ok (ops 0x800#29 0#4 [])))) = false := by decide
theorem test_wellFormed_refuses_classic_dlc :
    (Instr.wellFormed (.txExtData (.ok (ops 0x800#29 9#4 (List.replicate 12 0#8))))) = false := by decide
theorem test_wellFormed_refuses_missing_payload :
    (Instr.wellFormed (.txStdFd (.ok (ops 0x7FF#29 2#4 [0x11#8])))) = false := by decide
theorem test_wellFormed_refuses_remote_payload :
    (Instr.wellFormed (.txStdRemote (.ok (ops 0x100#29 1#4 [0x11#8])))) = false := by decide
theorem test_wellFormed_refuses_named_other_byte : (Instr.wellFormed (.otherLine 0x4F#8)) = false := by decide
theorem test_wellFormed_refuses_cr_other_byte : (Instr.wellFormed (.otherLine 0x0D#8)) = false := by decide
theorem test_wellFormed_refuses_output_id :
    (Instr.wellFormed (.rxStdFdBrs (ops 0x800#29 0#4 []))) = false := by decide
theorem test_wellFormed_refuses_output_dlc :
    (Instr.wellFormed (.rxExtRemote (ops 0x100#29 9#4 []))) = false := by decide
theorem test_wellFormed_refuses_output_payload :
    (Instr.wellFormed (.rxExtFd (ops 0x100#29 9#4 []))) = false := by decide
theorem test_frameWf_refuses_remote_fd : frameWf { fA with rtr := true, fd := true } = false := by decide
theorem test_frameWf_refuses_brs_classic : frameWf { fA with brs := true } = false := by decide

/-! ## A decoded word for every constructor -/

theorem test_decode_openChannel : (decode [0x4F#8]).toOption =
    some (.openChannel) := by decide
theorem test_decode_closeChannel : (decode [0x43#8]).toOption =
    some (.closeChannel) := by decide
theorem test_decode_setBitrate :
    (decode [0x53#8, 0x36#8, 0x31#8]).toOption =
    some (.setBitrate (.ok 6)) := by decide
theorem test_decode_setBitrate_bad :
    (decode [0x53#8, 0x39#8]).toOption =
    some (.setBitrate (.bad .arg)) := by decide
theorem test_decode_setDataRate : (decode [0x59#8, 0x35#8]).toOption =
    some (.setDataRate (.ok .m5)) := by decide
theorem test_decode_setDataRate_bad :
    (decode [0x59#8, 0x33#8]).toOption =
    some (.setDataRate (.bad .arg)) := by decide
theorem test_decode_setTimestamp :
    (decode [0x5A#8, 0x31#8]).toOption =
    some (.setTimestamp (.ok true)) := by decide
theorem test_decode_setTimestamp_bad : (decode [0x5A#8]).toOption =
    some (.setTimestamp (.bad .arg)) := by decide
theorem test_decode_txStdData :
    (decode [0x74#8, 0x31#8, 0x32#8, 0x33#8, 0x34#8, 0x44#8, 0x45#8, 0x41#8, 0x44#8, 0x42#8, 0x45#8, 0x45#8, 0x46#8]).toOption =
    some (.txStdData (.ok (ops 0x123#29 4#4 [0xDE#8, 0xAD#8, 0xBE#8, 0xEF#8]))) := by decide
theorem test_decode_txStdData_idRange :
    (decode [0x74#8, 0x38#8, 0x30#8, 0x30#8, 0x30#8]).toOption =
    some (.txStdData (.bad .idRange)) := by decide
theorem test_decode_txStdData_dlcLower :
    (decode [0x74#8, 0x31#8, 0x32#8, 0x33#8, 0x61#8]).toOption =
    some (.txStdData (.bad .dlc)) := by decide
theorem test_decode_txStdData_lowerId :
    (decode [0x74#8, 0x37#8, 0x66#8, 0x66#8, 0x30#8]).toOption =
    some (.txStdData (.ok (ops 0x7FF#29 0#4 []))) := by decide
theorem test_decode_txExtData :
    (decode [0x54#8, 0x31#8, 0x38#8, 0x44#8, 0x41#8, 0x46#8, 0x31#8, 0x31#8, 0x30#8, 0x33#8, 0x30#8, 0x31#8, 0x30#8, 0x32#8, 0x46#8, 0x46#8]).toOption =
    some (.txExtData (.ok (ops 0x18DAF110#29 3#4 [0x01#8, 0x02#8, 0xFF#8]))) := by decide
theorem test_decode_txExtData_idRange :
    (decode [0x54#8, 0x32#8, 0x30#8, 0x30#8, 0x30#8, 0x30#8, 0x30#8, 0x30#8, 0x30#8, 0x30#8]).toOption =
    some (.txExtData (.bad .idRange)) := by decide
theorem test_decode_txStdRemote :
    (decode [0x72#8, 0x31#8, 0x32#8, 0x33#8, 0x38#8, 0x41#8, 0x41#8, 0x42#8, 0x42#8]).toOption =
    some (.txStdRemote (.ok (ops 0x123#29 8#4 []))) := by decide
theorem test_decode_txStdRemote_dlc8 :
    (decode [0x72#8, 0x31#8, 0x32#8, 0x33#8, 0x39#8]).toOption =
    some (.txStdRemote (.bad .dlc8)) := by decide
theorem test_decode_txExtRemote :
    (decode [0x52#8, 0x31#8, 0x41#8, 0x42#8, 0x43#8, 0x44#8, 0x45#8, 0x46#8, 0x30#8, 0x30#8]).toOption =
    some (.txExtRemote (.ok (ops 0x1ABCDEF0#29 0#4 []))) := by decide
theorem test_decode_txExtRemote_idHex :
    (decode [0x52#8, 0x31#8, 0x41#8, 0x42#8, 0x43#8, 0x44#8, 0x45#8, 0x47#8, 0x30#8, 0x30#8]).toOption =
    some (.txExtRemote (.bad .idHex)) := by decide
theorem test_decode_txStdFd :
    (decode [0x64#8, 0x31#8, 0x32#8, 0x33#8, 0x39#8, 0x30#8, 0x30#8, 0x30#8, 0x31#8, 0x30#8, 0x32#8, 0x30#8, 0x33#8, 0x30#8, 0x34#8, 0x30#8, 0x35#8, 0x30#8, 0x36#8, 0x30#8, 0x37#8, 0x30#8, 0x38#8, 0x30#8, 0x39#8, 0x30#8, 0x41#8, 0x30#8, 0x42#8]).toOption =
    some (.txStdFd (.ok (ops 0x123#29 9#4 twelve))) := by decide
theorem test_decode_txStdFd_dataHex :
    (decode [0x64#8, 0x31#8, 0x32#8, 0x33#8, 0x32#8, 0x30#8, 0x41#8, 0x30#8]).toOption =
    some (.txStdFd (.bad .dataHex)) := by decide
theorem test_decode_txExtFd :
    (decode [0x44#8, 0x30#8, 0x30#8, 0x30#8, 0x30#8, 0x30#8, 0x30#8, 0x30#8, 0x31#8, 0x31#8, 0x41#8, 0x41#8]).toOption =
    some (.txExtFd (.ok (ops 0x1#29 1#4 [0xAA#8]))) := by decide
theorem test_decode_txStdFdBrs :
    (decode [0x62#8, 0x37#8, 0x45#8, 0x38#8, 0x32#8, 0x31#8, 0x31#8, 0x46#8, 0x46#8]).toOption =
    some (.txStdFdBrs (.ok (ops 0x7E8#29 2#4 [0x11#8, 0xFF#8]))) := by decide
theorem test_decode_txExtFdBrs :
    (decode [0x42#8, 0x31#8, 0x46#8, 0x46#8, 0x46#8, 0x46#8, 0x46#8, 0x46#8, 0x46#8, 0x30#8]).toOption =
    some (.txExtFdBrs (.ok (ops 0x1FFFFFFF#29 0#4 []))) := by decide
theorem test_decode_querySoftware : (decode [0x56#8]).toOption =
    some (.querySoftware) := by decide
theorem test_decode_queryHardware : (decode [0x76#8]).toOption =
    some (.queryHardware) := by decide
theorem test_decode_querySerial : (decode [0x4E#8]).toOption =
    some (.querySerial) := by decide
theorem test_decode_queryStatus : (decode [0x46#8]).toOption =
    some (.queryStatus) := by decide
theorem test_decode_stubL : (decode [0x4C#8]).toOption =
    some (.stubL) := by decide
theorem test_decode_stubA : (decode [0x41#8, 0x31#8]).toOption =
    some (.stubA) := by decide
theorem test_decode_stubP : (decode [0x50#8]).toOption =
    some (.stubP) := by decide
theorem test_decode_stubU : (decode [0x55#8, 0x31#8]).toOption =
    some (.stubU) := by decide
theorem test_decode_stubLowerS :
    (decode [0x73#8, 0x30#8, 0x33#8, 0x31#8, 0x43#8]).toOption =
    some (.stubLowerS) := by decide
theorem test_decode_stubW : (decode [0x57#8, 0x32#8]).toOption =
    some (.stubW) := by decide
theorem test_decode_stubM : (decode [0x4D#8]).toOption =
    some (.stubM) := by decide
theorem test_decode_stubLowerM : (decode [0x6D#8]).toOption =
    some (.stubLowerM) := by decide
theorem test_decode_stubX : (decode [0x58#8, 0x31#8]).toOption =
    some (.stubX) := by decide
theorem test_decode_stubQ : (decode [0x51#8, 0x30#8]).toOption =
    some (.stubQ) := by decide
theorem test_decode_emptyLine : (decode []).toOption =
    some (.emptyLine) := by decide
theorem test_decode_otherLine :
    (decode [0x68#8, 0x65#8, 0x6C#8, 0x6C#8, 0x6F#8]).toOption =
    some (.otherLine 0x68#8) := by decide
theorem test_decode_otherLine_lineFeed :
    (decode [0x0A#8, 0x4F#8]).toOption =
    some (.otherLine 0x0A#8) := by decide

/-! ## The line of every output form -/

theorem test_encode_rxStdData :
    encodeFrame { fA with id := 0x123#29, dlc := 4#4, data := [0xDE#8, 0xAD#8, 0xBE#8, 0xEF#8] } true 0x00012A3F = [0x74#8, 0x31#8, 0x32#8, 0x33#8, 0x34#8, 0x44#8, 0x45#8, 0x41#8, 0x44#8, 0x42#8, 0x45#8, 0x45#8, 0x46#8, 0x32#8, 0x41#8, 0x33#8, 0x46#8, 0x0D#8] := by decide
theorem test_encode_rxExtData :
    encodeFrame { fA with id := 0x18DAF110#29, ext := true, dlc := 3#4, data := [0x01#8, 0x02#8, 0xFF#8] } false 5 = [0x54#8, 0x31#8, 0x38#8, 0x44#8, 0x41#8, 0x46#8, 0x31#8, 0x31#8, 0x30#8, 0x33#8, 0x30#8, 0x31#8, 0x30#8, 0x32#8, 0x46#8, 0x46#8, 0x0D#8] := by decide
theorem test_encode_rxStdRemote :
    encodeFrame { fA with rtr := true, dlc := 8#4 } false 0 = [0x72#8, 0x31#8, 0x30#8, 0x30#8, 0x38#8, 0x0D#8] := by decide
theorem test_encode_rxExtRemote :
    encodeFrame { fA with id := 0x1ABCDEF0#29, ext := true, rtr := true } false 0 = [0x52#8, 0x31#8, 0x41#8, 0x42#8, 0x43#8, 0x44#8, 0x45#8, 0x46#8, 0x30#8, 0x30#8, 0x0D#8] := by decide
theorem test_encode_rxStdFd :
    encodeFrame { fA with id := 0x123#29, fd := true, dlc := 9#4, data := twelve } false 0 = [0x64#8, 0x31#8, 0x32#8, 0x33#8, 0x39#8, 0x30#8, 0x30#8, 0x30#8, 0x31#8, 0x30#8, 0x32#8, 0x30#8, 0x33#8, 0x30#8, 0x34#8, 0x30#8, 0x35#8, 0x30#8, 0x36#8, 0x30#8, 0x37#8, 0x30#8, 0x38#8, 0x30#8, 0x39#8, 0x30#8, 0x41#8, 0x30#8, 0x42#8, 0x0D#8] := by decide
theorem test_encode_rxExtFd :
    encodeFrame { fA with id := 1#29, ext := true, fd := true, dlc := 1#4, data := [0xAA#8] } false 0 = [0x44#8, 0x30#8, 0x30#8, 0x30#8, 0x30#8, 0x30#8, 0x30#8, 0x30#8, 0x31#8, 0x31#8, 0x41#8, 0x41#8, 0x0D#8] := by decide
theorem test_encode_rxStdFdBrs :
    encodeFrame { fA with id := 0x7E8#29, fd := true, brs := true, dlc := 2#4, data := [0x11#8, 0xFF#8] } true 0x0003FFFE = [0x62#8, 0x37#8, 0x45#8, 0x38#8, 0x32#8, 0x31#8, 0x31#8, 0x46#8, 0x46#8, 0x46#8, 0x46#8, 0x46#8, 0x45#8, 0x0D#8] := by decide
theorem test_encode_rxExtFdBrs :
    encodeFrame { fA with id := 0x1FFFFFFF#29, ext := true, fd := true, brs := true } false 0 = [0x42#8, 0x31#8, 0x46#8, 0x46#8, 0x46#8, 0x46#8, 0x46#8, 0x46#8, 0x46#8, 0x30#8, 0x0D#8] := by decide
theorem test_form_rxStdData :
    rxInstr { fA with id := 0x123#29, dlc := 4#4, data := [0xDE#8, 0xAD#8, 0xBE#8, 0xEF#8] } =
    some (.rxStdData (CanFrame.ops { fA with id := 0x123#29, dlc := 4#4, data := [0xDE#8, 0xAD#8, 0xBE#8, 0xEF#8] })) := by decide
theorem test_form_rxExtData :
    rxInstr { fA with id := 0x18DAF110#29, ext := true, dlc := 3#4, data := [0x01#8, 0x02#8, 0xFF#8] } =
    some (.rxExtData (CanFrame.ops { fA with id := 0x18DAF110#29, ext := true, dlc := 3#4, data := [0x01#8, 0x02#8, 0xFF#8] })) := by decide
theorem test_form_rxStdRemote :
    rxInstr { fA with rtr := true, dlc := 8#4 } =
    some (.rxStdRemote (CanFrame.ops { fA with rtr := true, dlc := 8#4 })) := by decide
theorem test_form_rxExtRemote :
    rxInstr { fA with id := 0x1ABCDEF0#29, ext := true, rtr := true } =
    some (.rxExtRemote (CanFrame.ops { fA with id := 0x1ABCDEF0#29, ext := true, rtr := true })) := by decide
theorem test_form_rxStdFd :
    rxInstr { fA with id := 0x123#29, fd := true, dlc := 9#4, data := twelve } =
    some (.rxStdFd (CanFrame.ops { fA with id := 0x123#29, fd := true, dlc := 9#4, data := twelve })) := by decide
theorem test_form_rxExtFd :
    rxInstr { fA with id := 1#29, ext := true, fd := true, dlc := 1#4, data := [0xAA#8] } =
    some (.rxExtFd (CanFrame.ops { fA with id := 1#29, ext := true, fd := true, dlc := 1#4, data := [0xAA#8] })) := by decide
theorem test_form_rxStdFdBrs :
    rxInstr { fA with id := 0x7E8#29, fd := true, brs := true, dlc := 2#4, data := [0x11#8, 0xFF#8] } =
    some (.rxStdFdBrs (CanFrame.ops { fA with id := 0x7E8#29, fd := true, brs := true, dlc := 2#4, data := [0x11#8, 0xFF#8] })) := by decide
theorem test_form_rxExtFdBrs :
    rxInstr { fA with id := 0x1FFFFFFF#29, ext := true, fd := true, brs := true } =
    some (.rxExtFdBrs (CanFrame.ops { fA with id := 0x1FFFFFFF#29, ext := true, fd := true, brs := true })) := by decide

/-! ## One step of each instruction -/

theorem test_open_closed : after (exec .openChannel (ready closedCh)) (fun s => (cfgOf s, subOf s)) =
    some ({ nominalBitrate := 500000#32, dataBitrate := 2000000#32, mode := .normal, fdEnable := true },
      .dispatch .ack) := by decide
theorem test_open_open_keeps_mode : after (exec .openChannel (ready openCh)) (fun s => ((cfgOf s).mode, s.trace.length)) =
    some (.listenOnly, 6) := by decide
theorem test_close_emits : after (exec .closeChannel (ready closedCh)) (fun s => s.trace) =
    some [.canDeinit 0, .rxIrqClassDisable 0, .irqDisable 0] := by decide
theorem test_setBitrate_open : after (exec (.setBitrate (.ok 4)) (ready openCh)) (fun s => ((cfgOf s).nominalBitrate, s.trace)) =
    some (125000#32, []) := by decide
theorem test_setBitrate_bad : after (exec (.setBitrate (.bad .arg)) (ready openCh)) (fun s => ((cfgOf s).nominalBitrate, subOf s)) =
    some (500000#32, .dispatch .nack) := by decide
theorem test_setDataRate : after (exec (.setDataRate (.ok .m5)) (ready openCh)) (fun s => (cfgOf s).dataBitrate) =
    some 5000000#32 := by decide
theorem test_setTimestamp : after (exec (.setTimestamp (.ok true)) (ready closedCh)) (fun s => (s.chan 0).ch.flags) =
    some { timestamp := true } := by decide
theorem test_txStdData :
    after (exec (.txStdData (.ok (ops 0x7E8#29 0#4 []))) (ready closedCh)) subOf =
    some (.dispatch (.send { fA with id := 0x7E8#29 })) := by decide
theorem test_txExtData :
    after (exec (.txExtData (.ok (ops 0x7E8#29 0#4 []))) (ready closedCh)) subOf =
    some (.dispatch (.send { fA with id := 0x7E8#29, ext := true })) := by decide
theorem test_txStdRemote :
    after (exec (.txStdRemote (.ok (ops 0x7E8#29 0#4 []))) (ready closedCh)) subOf =
    some (.dispatch (.send { fA with id := 0x7E8#29, rtr := true })) := by decide
theorem test_txExtRemote :
    after (exec (.txExtRemote (.ok (ops 0x7E8#29 0#4 []))) (ready closedCh)) subOf =
    some (.dispatch (.send { fA with id := 0x7E8#29, ext := true, rtr := true })) := by decide
theorem test_txStdFd :
    after (exec (.txStdFd (.ok (ops 0x7E8#29 0#4 []))) (ready closedCh)) subOf =
    some (.dispatch (.send { fA with id := 0x7E8#29, fd := true })) := by decide
theorem test_txExtFd :
    after (exec (.txExtFd (.ok (ops 0x7E8#29 0#4 []))) (ready closedCh)) subOf =
    some (.dispatch (.send { fA with id := 0x7E8#29, ext := true, fd := true })) := by decide
theorem test_txStdFdBrs :
    after (exec (.txStdFdBrs (.ok (ops 0x7E8#29 0#4 []))) (ready closedCh)) subOf =
    some (.dispatch (.send { fA with id := 0x7E8#29, fd := true, brs := true })) := by decide
theorem test_txExtFdBrs :
    after (exec (.txExtFdBrs (.ok (ops 0x7E8#29 0#4 []))) (ready closedCh)) subOf =
    some (.dispatch (.send { fA with id := 0x7E8#29, ext := true, fd := true, brs := true })) := by decide
theorem test_tx_bad :
    after (exec (.txStdData (.bad .dlc)) (ready openCh)) (fun s => (subOf s, s.trace)) = some (.dispatch .nack, []) := by decide
theorem test_querySoftware :
    after (exec .querySoftware (ready closedCh)) subOf = some (.dispatch (.reply [0x56#8, 0x32#8, 0x34#8, 0x30#8, 0x31#8, 0x0D#8])) := by decide
theorem test_queryHardware :
    after (exec .queryHardware (ready closedCh)) subOf = some (.dispatch (.reply [0x76#8, 0x32#8, 0x34#8, 0x30#8, 0x31#8, 0x0D#8])) := by decide
theorem test_querySerial :
    after (exec .querySerial (ready closedCh)) subOf = some (.dispatch (.reply [0x4E#8, 0x30#8, 0x30#8, 0x30#8, 0x31#8, 0x0D#8])) := by decide
theorem test_queryStatus :
    after (exec .queryStatus (ready closedCh)) subOf = some (.dispatch (.reply [0x46#8, 0x30#8, 0x30#8, 0x0D#8])) := by decide
theorem test_stubs :
    ([.stubL, .stubA, .stubP, .stubU, .stubLowerS, .stubW, .stubM, .stubLowerM, .stubX, .stubQ, .emptyLine,
    .otherLine 0xFF#8] : List Instr).all (fun i => after (exec i (ready openCh)) subOf = some (.dispatch .nack)) = true := by decide
theorem test_rxStdData :
    after (exec (.rxStdData (ops 0x7E8#29 1#4 [0xAA#8])) (place openCh .p1 .ready [])) subOf =
    some (.write [0x74#8, 0x37#8, 0x45#8, 0x38#8, 0x31#8, 0x41#8, 0x41#8, 0x0D#8]) := by decide
theorem test_rxExtData :
    after (exec (.rxExtData (ops 0x7E8#29 1#4 [0xAA#8])) (place openCh .p1 .ready [])) subOf =
    some (.write [0x54#8, 0x30#8, 0x30#8, 0x30#8, 0x30#8, 0x30#8, 0x37#8, 0x45#8, 0x38#8, 0x31#8, 0x41#8, 0x41#8, 0x0D#8]) := by decide
theorem test_rxStdRemote :
    after (exec (.rxStdRemote (ops 0x7E8#29 8#4 [])) (place openCh .p1 .ready [])) subOf =
    some (.write [0x72#8, 0x37#8, 0x45#8, 0x38#8, 0x38#8, 0x0D#8]) := by decide
theorem test_rxExtRemote :
    after (exec (.rxExtRemote (ops 0x7E8#29 8#4 [])) (place openCh .p1 .ready [])) subOf =
    some (.write [0x52#8, 0x30#8, 0x30#8, 0x30#8, 0x30#8, 0x30#8, 0x37#8, 0x45#8, 0x38#8, 0x38#8, 0x0D#8]) := by decide
theorem test_rxStdFd :
    after (exec (.rxStdFd (ops 0x7E8#29 1#4 [0xAA#8])) (place openCh .p1 .ready [])) subOf =
    some (.write [0x64#8, 0x37#8, 0x45#8, 0x38#8, 0x31#8, 0x41#8, 0x41#8, 0x0D#8]) := by decide
theorem test_rxExtFd :
    after (exec (.rxExtFd (ops 0x7E8#29 1#4 [0xAA#8])) (place openCh .p1 .ready [])) subOf =
    some (.write [0x44#8, 0x30#8, 0x30#8, 0x30#8, 0x30#8, 0x30#8, 0x37#8, 0x45#8, 0x38#8, 0x31#8, 0x41#8, 0x41#8, 0x0D#8]) := by decide
theorem test_rxStdFdBrs :
    after (exec (.rxStdFdBrs (ops 0x7E8#29 1#4 [0xAA#8])) (place openCh .p1 .ready [])) subOf =
    some (.write [0x62#8, 0x37#8, 0x45#8, 0x38#8, 0x31#8, 0x41#8, 0x41#8, 0x0D#8]) := by decide
theorem test_rxExtFdBrs :
    after (exec (.rxExtFdBrs (ops 0x7E8#29 1#4 [0xAA#8])) (place openCh .p1 .ready [])) subOf =
    some (.write [0x42#8, 0x30#8, 0x30#8, 0x30#8, 0x30#8, 0x30#8, 0x37#8, 0x45#8, 0x38#8, 0x31#8, 0x41#8, 0x41#8, 0x0D#8]) := by decide
theorem test_rx_ill_formed :
    refusal (exec (.rxStdData (fBad.ops)) (place openCh .p1 .ready [])) = some .illFormedFrame := by decide

/-! ## One step of each event -/

theorem test_step_decodes : after (step (place { closedCh with lb := [0x4F#8, 0x31#8] } .p2 .decode [turn])) subOf =
    some (.dispatch .ack) := by decide
theorem test_step_reply : after (step (place closedCh .p2 (.dispatch .nack) [turn])) (fun s => (s.trace, subOf s)) =
    some ([.serOut 0 [0x07#8]], .ready) := by decide
theorem test_step_reply_busy : after (step (place { closedCh with busy := true } .p2 (.dispatch .nack) [turn]))
    (fun s => (s.trace, subOf s)) = some ([], .ready) := by decide
theorem test_step_send : after (step (place closedCh .p2 (.dispatch (.send fA)) [turn])) (fun s => (s.trace, subOf s)) =
    some ([.canTx 0 fA], .txWait) := by decide
theorem test_phase1_delivers : after (core.run 5 (place closedCh .p1 .ready [turn, turn, turn, turn, turn]))
    (fun s => s.trace) = some [.serOut 0 [0x74#8, 0x31#8, 0x30#8, 0x30#8, 0x30#8, 0x0D#8]] := by decide
theorem test_overwrite_in_window : after (core.run 3 (place openCh .p1 .ready
    [turn, turn, .canRx 0 (view true false false [hB] [] [none])])) (fun s => (subOf s, (s.chan 0).slot 0)) =
    some (.copy [fA], { flag := true, frame := fB }) := by decide
/-- V-ISR5: the three causes at once. -/
theorem test_handler : after (step (place openCh .idle .ready
    [.canRx 0 (view true true true [hA] [hB] [some hB])])) (fun s => (s.trace, (s.chan 0).slots.map RxSlot.frame)) =
    some ([.hwRead 0 .fifo0, .hwRead 0 .fifo1, .hwRead 0 (.dedicated 0), .clearNdat 0 0,
      .clearIrqFlags 0 { f0n := true, f1n := true, drx := true }], [fA, fB, fB]) := by decide
theorem test_handler_disabled : after (step (place closedCh .idle .ready
    [.canRx 0 (view true false false [hB] [] [none])])) (fun s => (s.trace, (s.chan 0).slots)) =
    some ([], closedCh.slots) := by decide
theorem test_serIn : after (step (place closedCh .idle .ready [.serIn 0 0x4F#8])) (fun s => (s.chan 0).serq) =
    some [0x4F#8] := by decide
theorem test_txDone : after (step (place { openCh with hw := { openCh.hw with txBusy := true } } .p2 .txWait [.txDone 0]))
    (fun s => (s.chan 0).hw.txBusy) = some false := by decide
theorem test_busy : after (step (place closedCh .idle .ready [.busy 0 true])) (fun s => (s.chan 0).busy) =
    some true := by decide
theorem test_lineTimeout : after (step (place { closedCh with lb := [0x74#8] } .p2 .ready [.lineTimeout 0]))
    (fun s => ((s.chan 0).lb, s.seq, s.trace)) = some ([], Sequencer.atRest, []) := by decide
theorem test_sched : after (step (place closedCh .idle .ready [.sched])) (fun s => s.seq) =
    some { chan := 0, phase := .p1, slot := 0, sub := .ready } := by decide
theorem test_setMode_closed : after (step (place closedCh .idle .ready [.setMode 0 .loopbackExternal]))
    (fun s => (cfgOf s).mode) = some .loopbackExternal := by decide
theorem test_setMode_open : after (step (place openCh .idle .ready [.setMode 0 .loopbackExternal]))
    (fun s => (cfgOf s).mode) = some .listenOnly := by decide
/-- V-SM7: the operations Set mode and Open in a row, not the command `O`. -/
theorem test_setMode_then_open :
    (((place closedCh .idle .ready []).modCfg 0 (fun g => { g with mode := .normal })).setMode 0 .listenOnly |>.openOp 0).trace =
    [.canInit 0 { nominalBitrate := 500000#32, dataBitrate := 2000000#32, mode := .listenOnly, fdEnable := true },
      .rxIrqClassEnable 0, .irqEnable 0 Config.irqPriority] := rfl
/-- V-BL8, and one tick with the flag set. -/
theorem test_tick_clear : (closedCh.ch.tick).timestamp = closedCh.ch.timestamp := rfl
theorem test_tick_set : ((closedCh.ch.setTimestampFlag true).tick).timestamp = 7#Config.tsWidth + 1 := rfl
theorem test_fetch_word : after (step (State.reset.withFetchWord 8 0x56)) subOf =
    some (.dispatch (.reply [0x56#8, 0x32#8, 0x34#8, 0x30#8, 0x31#8, 0x0D#8])) := by decide

/-! ## Witnesses: states and operands that meet the hypotheses of the statements -/

theorem fits (n : Nat) (h : n ≤ 138) : n ≤ Config.lineMax := by unfold Config.lineMax; omega

theorem place_atPlace (x : Channel) (p : Phase) (m : Sub) (es : List Event) : (place x p m es).atPlace 0 x p m :=
  ⟨rfl, Nat.zero_lt_one, rfl, rfl, rfl⟩

/-- A decoder's answer read through `toOption`. -/
theorem decode_ok (ln : List Byte) (i : Instr) (h : (decode ln).toOption = some i) : decode ln = .ok i := by
  cases hd : decode ln with
  | error e => rw [hd] at h; cases h
  | ok j => rw [hd] at h; cases h; rfl

/-- A step that has a next state. -/
theorem next_of_after (o : Host.Outcome State Fault Refusal) (h : (after o id).isSome = true) : ∃ t, o = .next t := by
  cases o with
  | next t => exact ⟨t, rfl⟩
  | fault r => cases h
  | refused r => cases h

theorem witness_DecodeDlcTable : ¬ isUpperHex 0x2F#8 ∧ ¬ isUpperHex 0x3A#8 ∧ ¬ isUpperHex 0x40#8 ∧ ¬ isUpperHex 0x47#8 ∧
    ¬ isUpperHex 0x61#8 ∧ dlcCode (some 0x30#8) = some 0#4 ∧ dlcCode (some 0x46#8) = some 15#4 := by
  unfold isUpperHex; decide

theorem witness_DlcRoundTrip : decodeDlc (some 0x46#8) ≠ 0xFF := by decide

theorem witness_HexfieldValue : (∀ k < 3, hexval (lineAt [0x74#8, 0x37#8, 0x46#8, 0x46#8] (1 + k)) < 16) ∧
    (∃ k < 3, 16 ≤ hexval (lineAt [0x74#8, 0x31#8, 0x32#8] (1 + k))) ∧
    [0x2F#8, 0x30#8, 0x39#8, 0x3A#8, 0x40#8, 0x41#8, 0x46#8, 0x47#8, 0x60#8, 0x61#8, 0x66#8, 0x67#8].map
      (fun x => hexval (some x)) = [16, 0, 9, 16, 16, 10, 15, 16, 16, 10, 15, 16] := by decide

theorem witness_HexString : (hexStr 3 0x7FF)[2]? = some 0x46#8 := by decide

theorem witness_PayloadAssembly : payloadAt [0x74#8, 0x31#8, 0x32#8, 0x33#8, 0x31#8, 0x30#8, 0x41#8] 5 1 = some [0x0A#8] := by decide

theorem witness_CommandMap : ([] : List Byte).length + 1 ≤ Config.lineMax ∧
    (List.replicate (Config.lineMax - 1) 0x4F#8).length + 1 ≤ Config.lineMax ∧ 0x78#8 ∉ namedBytes := by
  refine ⟨fits 1 (by decide), ?_, by decide⟩
  have := fits 1 (by decide)
  simp; omega

/-- The boundary arguments of each clause: `0`, `8`, and the characters beside them; every argument of `Y`; `0` and `1`. -/
theorem witness_ControlArguments : [0x78#8].length + 2 ≤ Config.lineMax ∧ (0x30#8).toNat = 0x30 + (0 : Fin 9).val ∧
    (0x38#8).toNat = 0x30 + (8 : Fin 9).val ∧ (0x2F#8).toNat < 0x30 ∧ 0x38 < (0x39#8).toNat ∧
    0x33#8 ∉ [0x32#8, 0x34#8, 0x35#8, 0x38#8] ∧ 0x32#8 ≠ 0x31#8 ∧ 0x32#8 ≠ 0x30#8 :=
  ⟨fits 3 (by decide), by decide, by decide, by decide, by decide, by decide, by decide, by decide⟩

/-- `t7FF1AA` meets every check; `t8000` meets them with no operands. -/
theorem witness_TransmitDecodeExact : cmdChar false false false false = some 0x74#8 ∧
    txCommand false false false false (.ok (ops 0x7FF#29 1#4 [0xAA#8])) = some (.txStdData (.ok (ops 0x7FF#29 1#4 [0xAA#8]))) ∧
    operandsOf [0x74#8, 0x37#8, 0x46#8, 0x46#8, 0x31#8, 0x41#8, 0x41#8] false false false (ops 0x7FF#29 1#4 [0xAA#8]) ∧
    ∀ o, ¬ operandsOf [0x74#8, 0x38#8, 0x30#8, 0x30#8, 0x30#8] false false false o := by
  refine ⟨rfl, rfl, ⟨⟨by decide, by decide⟩, by decide, fun _ => by decide, by decide, ?_⟩, ?_⟩
  · intro j b h
    match j, h with
    | 0, h => cases h; decide
    | j + 1, h => simp [ops] at h
  · intro o h
    have h1 := h.id.1
    have h2 := h.id.2
    have h3 : hexfield [0x74#8, 0x38#8, 0x30#8, 0x30#8, 0x30#8] 1 3 = some 0x800 := by decide
    rw [if_neg (by decide), h3] at h1
    rw [if_neg (by decide), ← Option.some.inj h1] at h2
    exact absurd h2 (by decide)

theorem witness_DecodedFramesWellFormed : (decode [0x74#8, 0x31#8, 0x30#8, 0x30#8, 0x30#8]).toOption = some (.txStdData (.ok fA.ops)) ∧
    after (exec (.txStdData (.ok fA.ops)) (ready openCh)) subOf = some (.dispatch (.send fA)) := by decide

/-- The empty line and a line of exactly `LINE_MAX` bytes. -/
theorem witness_EveryLineIsAnswered : ([] : List Byte).length ≤ Config.lineMax ∧
    (List.replicate Config.lineMax 0x4F#8).length ≤ Config.lineMax := ⟨Nat.zero_le _, by simp⟩

theorem witness_DecodeEncodeAgree : (Instr.txExtFdBrs (.ok (ops 0x1FFFFFFF#29 9#4 twelve))).wellFormed = true ∧
    (Instr.txExtFdBrs (.ok (ops 0x1FFFFFFF#29 9#4 twelve))).isOutput = false := by decide

theorem witness_EncodedFrameDecodesToItself : frameWf fB = true ∧ fB.data.length = flen fB ∧
    (encodeFrame fB true 0xFFFF).length ≤ Config.lineMax + 1 :=
  ⟨by decide, by decide, Nat.le_succ_of_le (fits 12 (by decide))⟩

theorem witness_CanonicalLineEncodesBack : (decode [0x74#8, 0x32#8, 0x30#8, 0x30#8, 0x31#8, 0x37#8, 0x46#8]).toOption = some (.txStdData (.ok fB.ops)) ∧
    after (exec (.txStdData (.ok fB.ops)) (ready openCh)) subOf = some (.dispatch (.send fB)) ∧
    (∀ b ∈ ([0x74#8, 0x32#8, 0x30#8, 0x30#8, 0x31#8, 0x37#8, 0x46#8] : List Byte).tail, isUpperHex b) ∧
    ([0x74#8, 0x32#8, 0x30#8, 0x30#8, 0x31#8, 0x37#8, 0x46#8] : List Byte).length = (if fB.ext then 10 else 5) + 2 * flen fB := by
  refine ⟨by decide, by decide, ?_, by decide⟩
  unfold isUpperHex; decide

theorem witness_EncodedLineProperties : frameWf fB = true ∧ fB.data.length = flen fB := by decide

/-- The hypotheses of the control commands' statements, on a closed and on an open channel. -/
theorem witness_OpenCommand : (ready closedCh).seq.chan = 0 ∧ 0 < (ready closedCh).chans.length ∧
    (ready closedCh).chan 0 = closedCh ∧ (ready openCh).chan 0 = openCh ∧ closedCh.ch.isOpen = false ∧
    openCh.ch.isOpen = true ∧ closedCh.ch.cfg.nominalBitrate = 0#32 := ⟨rfl, by decide, rfl, rfl, rfl, rfl, rfl⟩
theorem witness_CloseCommand : (ready openCh).seq.chan = 0 ∧ 0 < (ready openCh).chans.length ∧
    (ready openCh).chan 0 = openCh := ⟨rfl, by decide, rfl⟩
theorem witness_BitrateCommand : (ready closedCh).seq.chan = 0 ∧ 0 < (ready closedCh).chans.length ∧
    (ready closedCh).chan 0 = closedCh := ⟨rfl, by decide, rfl⟩
theorem witness_DataRateCommand : (ready openCh).seq.chan = 0 ∧ 0 < (ready openCh).chans.length ∧
    (ready openCh).chan 0 = openCh := ⟨rfl, by decide, rfl⟩
theorem witness_TimestampCommand : (ready openCh).seq.chan = 0 ∧ 0 < (ready openCh).chans.length ∧
    (ready openCh).chan 0 = openCh := ⟨rfl, by decide, rfl⟩

/-- The states of a run at the dispatch and after it decode nothing. -/
theorem none_decoded (t : State) (n c : Nat) (b : Byte)
    (h : ∀ m < n, after (steps m t) (fun v => decide (v.seq.sub = .decode)) = some false) : t.noneDecoded n c b := by
  intro m hm v hv hd
  have := h m hm
  rw [hv] at this
  simp [after, hd.2.2.2.1] at this

/-- A rate stored by `S`, and one stored by `Y`, then the dispatch and a tick, then `O`. -/
theorem witness_StoredRateReachesNextOpen : ∃ t t' u u' w w',
    exec (.setBitrate (.ok 4)) (place openCh .p2 .decode [turn, .tick 0]) = .next t ∧ t.noneDecoded 2 0 0x53#8 ∧
    t.noneDecoded 2 0 0x59#8 ∧ steps 2 t = .next u ∧ u.seq.chan = 0 ∧ exec .openChannel u = .next w ∧
    exec (.setDataRate (.ok .m8)) (place openCh .p2 .decode [turn, .tick 0]) = .next t' ∧
    t'.noneDecoded 2 0 0x59#8 ∧ t'.noneDecoded 2 0 0x53#8 ∧ steps 2 t' = .next u' ∧ u'.seq.chan = 0 ∧
    exec .openChannel u' = .next w' ∧ openCh.ch.cfg.nominalBitrate ≠ 0#32 :=
  ⟨_, _, _, _, _, _, rfl, none_decoded _ _ _ _ (by decide), none_decoded _ _ _ _ (by decide), rfl, rfl, rfl, rfl,
    none_decoded _ _ _ _ (by decide), none_decoded _ _ _ _ (by decide), rfl, rfl, rfl, by decide⟩

theorem witness_SetModeGuard : (place closedCh .idle .ready [.setMode 0 .normal]).sched = [.setMode 0 .normal] ∧
    (place closedCh .idle .ready []).chan 0 = closedCh ∧ closedCh.ch.isOpen = false ∧
    (place openCh .idle .ready []).chan 0 = openCh ∧ openCh.ch.isOpen = true := ⟨rfl, rfl, rfl, rfl, rfl⟩

theorem witness_SendIsCarriedOut : (place closedCh .p2 (.dispatch (.send fA)) [turn, .txDone 0, turn]).atPlace 0 closedCh .p2
      (.dispatch (.send fA)) ∧
    (place closedCh .p2 (.dispatch (.send fA)) [turn, .txDone 0, turn]).sched = [.bridge default, .txDone 0, .bridge default] :=
  ⟨place_atPlace _ _ _ _, rfl⟩

/-- An open channel with a transmit in flight. -/
def sendingCh : Channel := { openCh with hw := { openCh.hw with txBusy := true } }

theorem witness_TransmitWaitStalls : (place sendingCh .p2 .txWait [turn, turn]).atPlace 0 sendingCh .p2 .txWait ∧
    sendingCh.hw.txBusy = true ∧ (place sendingCh .p2 .txWait [turn, turn]).sched = [default, default].map .bridge ++ [] :=
  ⟨place_atPlace _ _ _ _, rfl, rfl⟩

theorem witness_CollaboratorAnswers : (place sendingCh .p2 .txWait [.txDone 0]).sched = [.txDone 0] ∧
    (place sendingCh .p2 .txWait [.txDone 0]).chan 0 = sendingCh ∧ sendingCh.hw.txBusy = true ∧
    (place openCh .idle .ready [.txDone 0]).chan 0 = openCh ∧ openCh.hw.txBusy = false ∧
    (place openCh .idle .ready [.busy 0 true]).sched = [.busy 0 true] := ⟨rfl, rfl, rfl, rfl, rfl, rfl⟩

/-- A channel with this line in its line buffer. -/
def withLine (ln : List Byte) : Channel := { closedCh with lb := ln }

theorem witness_QueryCommandsReply : (place (withLine [0x46#8, 0x31#8]) .p2 .decode [turn, turn]).atPlace 0 (withLine [0x46#8, 0x31#8]) .p2 .decode ∧
    (withLine [0x46#8, 0x31#8]).lb = 0x46#8 :: [0x31#8] ∧ (withLine [0x46#8, 0x31#8]).lb.length ≤ Config.lineMax ∧
    (place (withLine [0x46#8, 0x31#8]) .p2 .decode [turn, turn]).sched = [.bridge default, .bridge default] :=
  ⟨place_atPlace _ _ _ _, rfl, fits 2 (by decide), rfl⟩

theorem witness_DispatchReplies : (place openCh .p2 (.dispatch .ack) [turn]).atPlace 0 openCh .p2 (.dispatch .ack) ∧
    (place openCh .p2 (.dispatch .ack) [turn]).sched = [.bridge default] := ⟨place_atPlace _ _ _ _, rfl⟩

/-- Operands well formed under each of the eight forms' tags. -/
theorem witness_OutputForms : (ops 0x7FF#29 1#4 [0xAA#8]).wf false false false false = true ∧
    (ops 0x1FFFFFFF#29 8#4 (List.replicate 8 0#8)).wf true false false false = true ∧
    (ops 0x7FF#29 8#4 []).wf false true false false = true ∧ (ops 0x1FFFFFFF#29 8#4 []).wf true true false false = true ∧
    (ops 0x7FF#29 9#4 twelve).wf false false true false = true ∧ (ops 0#29 9#4 twelve).wf true false true false = true ∧
    (ops 0x7FF#29 9#4 twelve).wf false false true true = true ∧ (ops 0#29 0#4 []).wf true false true true = true := by decide

theorem witness_IllFormedFrameRefused : (place openCh .p1 (.encode fBad) [turn]).atPlace 0 openCh .p1 (.encode fBad) ∧
    frameWf fBad = false ∧ rxInstr fBad = some (.rxStdData fBad.ops) := ⟨place_atPlace _ _ _ _, by decide, by decide⟩

/-- The same channel with slot 0 clear. -/
def clearCh : Channel := { openCh with slots := [{ flag := false, frame := fA }, { flag := false, frame := fA }] }

theorem witness_Phase1ServesSlot : (place openCh .p1 .ready [turn]).atPlace 0 openCh .p1 .ready ∧
    openCh.slots[0]? = some { flag := true, frame := fA } ∧ frameWf fA = true ∧ fA.data.length = flen fA ∧
    (place clearCh .p1 .ready [turn]).atPlace 0 clearCh .p1 .ready ∧
    clearCh.slots[0]? = some { flag := false, frame := fA } ∧
    (place openCh .p1 (.write [cr]) [turn]).atPlace 0 openCh .p1 (.write [cr]) :=
  ⟨place_atPlace _ _ _ _, rfl, by decide, by decide, place_atPlace _ _ _ _, rfl, place_atPlace _ _ _ _⟩

theorem witness_CopyOutIsMixture : (place openCh .p1 (.copy [fB]) [turn]).atPlace 0 openCh .p1 (.copy [fB]) ∧
    (place openCh .p1 (.copy []) [turn]).atPlace 0 openCh .p1 (.copy []) := ⟨place_atPlace _ _ _ _, place_atPlace _ _ _ _⟩

/-- The id of fB with the DLC of fA: the mixture `t2000` of V-BL14. -/
theorem witness_EveryMixtureIsAdmitted : (place openCh .p1 (.copy [fB]) []).atPlace 0 openCh .p1 (.copy [fB]) ∧
    isMixture ([fB] ++ [(openCh.slot 0).frame]) { fA with id := 0x200#29 } := by
  refine ⟨place_atPlace _ _ _ _, ⟨fB, by decide, rfl⟩, ⟨fA, by decide, rfl⟩, ⟨fA, by decide, rfl⟩, ⟨fA, by decide, rfl⟩,
    ⟨fA, by decide, rfl⟩, ⟨fA, by decide, rfl⟩, by decide, ?_⟩
  intro k b h; cases h

theorem witness_HandlerFillsSlots : 2 ≤ openCh.slots.length ∧ openCh.hw.irqEn = true ∧
    (view true true true [hA] [hB] [some hB]).raises (openCh.slots.length - 2) = true ∧
    (place openCh .idle .ready [.canRx 0 (view true true true [hA] [hB] [some hB])]).chan 0 = openCh :=
  ⟨by decide, rfl, by decide, rfl⟩

/-- A handler inside the copy-out of slot 0 and one outside any copy-out. -/
theorem witness_HandlerReturnsToBridge : ((place openCh .p1 (.copy []) []).chan 0).hw.irqEn = true ∧
    (view true false false [hB] [] [none]).raises (openCh.slots.length - 2) = true ∧
    (written (view true false false [hB] [] [none]) 0).isSome = true ∧
    (∃ t, step (place openCh .p1 (.copy []) [.canRx 0 (view true false false [hB] [] [none])]) = .next t) ∧
    (∃ t, step (place openCh .idle .ready [.canRx 0 (view true false false [hB] [] [none])]) = .next t) :=
  ⟨rfl, by decide, rfl, ⟨_, rfl⟩, ⟨_, rfl⟩⟩

theorem witness_InterruptOnlyWhileEnabled : ((place closedCh .idle .ready []).chan 0).hw.irqEn = false ∧
    (view false false false [] [] [none]).raises (openCh.slots.length - 2) = false := by decide

/-- Slot 0 by FIFO 0, slot 1 by FIFO 1 and slot 2 by a dedicated buffer, with `BRIDGE` in IDLE and at a copy-out of a slot
that is not written. -/
theorem witness_OverwriteKeepsNewer : (place openCh .idle .ready []).seq.phase ≠ .p1 ∧ openCh.hw.irqEn = true ∧
    (place openCh .idle .ready []).chan 0 = openCh ∧ 2 ≤ openCh.slots.length ∧
    (view true true true [hA] [hA] [some hA]).raises (openCh.slots.length - 2) = true ∧
    (view true true true [hB] [hB] [some hB]).raises (openCh.slots.length - 2) = true ∧
    (∀ i < 3, written (view true true true [hA] [hA] [some hA]) i = some hA ∧
      written (view true true true [hB] [hB] [some hB]) i = some hB) ∧
    (view false true true [] [hB] [some hB]).raises (openCh.slots.length - 2) = true ∧
    written (view false true true [] [hB] [some hB]) (place openCh .p1 (.copy []) []).seq.slot = none :=
  ⟨by decide, rfl, rfl, by decide, by decide, by decide, by decide, by decide, rfl⟩

theorem witness_SerInAppends : (place closedCh .idle .ready [.serIn 0 0x56#8, .serIn 0 0x0D#8]).sched =
    [0x56#8, 0x0D#8].map (fun b => .serIn 0 b) ++ [] := rfl

/-- A channel with this partial line and these bytes queued. -/
def reading (lb serq : List Byte) : Channel := { closedCh with lb := lb, serq := serq }

theorem witness_ReadLineAssembles : (place (reading [] [0x56#8, 0x0D#8]) .p2 .ready [turn, turn]).atPlace 0 (reading [] [0x56#8, 0x0D#8]) .p2 .ready ∧
    (reading [] [0x56#8, 0x0D#8]).serq = [0x56#8] ++ cr :: [] ∧ cr ∉ [0x56#8] ∧
    (reading [] [0x56#8, 0x0D#8]).lb.length + [0x56#8].length ≤ Config.lineMax :=
  ⟨place_atPlace _ _ _ _, rfl, by decide, fits 1 (by decide)⟩

theorem witness_LineTimeoutDiscards : (place (reading [0x74#8] []) .p2 .ready [.lineTimeout 0]).atPlace 0
      (reading [0x74#8] []) .p2 .ready ∧ (reading [0x74#8] []).lb ≠ [] ∧ (reading [0x74#8] []).serq = [] ∧
    (place (reading [0x74#8] [cr]) .p2 .ready [.lineTimeout 0]).sched = [.lineTimeout 0] ∧
    (reading [0x74#8] [cr]).serq ≠ [] :=
  ⟨place_atPlace _ _ _ _, by decide, rfl, rfl, by decide⟩

/-- A full line buffer, with another byte and with a CR waiting. -/
theorem witness_OverlongLineRefused :
    (place (reading (List.replicate Config.lineMax 0x74#8) [0x41#8]) .p2 .ready [turn]).atPlace 0
      (reading (List.replicate Config.lineMax 0x74#8) [0x41#8]) .p2 .ready ∧
    (reading (List.replicate Config.lineMax 0x74#8) [0x41#8]).lb.length = Config.lineMax ∧ 0x41#8 ≠ cr ∧
    (reading (List.replicate Config.lineMax 0x74#8) [cr]).serq = cr :: [] :=
  ⟨place_atPlace _ _ _ _, by simp [reading], by decide, rfl⟩

/-- The same channel with the timestamp flag set. -/
def tickingCh : Channel := { closedCh with ch := closedCh.ch.setTimestampFlag true }

theorem witness_TickCounts : (place tickingCh .idle .ready [.tick 0, .tick 0]).sched = List.replicate 2 (.tick 0) ++ [] ∧
    tickingCh.ch.flags.timestamp = true ∧ closedCh.ch.flags.timestamp = false := ⟨rfl, rfl, rfl⟩

theorem witness_StepRunsDecoded :
    (place (withLine [0x46#8, 0x31#8]) .p2 .decode [turn]).atPlace 0 (withLine [0x46#8, 0x31#8]) .p2 .decode ∧
    (place (withLine [0x46#8, 0x31#8]) .p2 .decode [turn]).sched = [.bridge default] ∧
    decode (withLine [0x46#8, 0x31#8]).lb = .ok .queryStatus :=
  ⟨place_atPlace _ _ _ _, rfl, decode_ok _ _ (by decide)⟩

theorem witness_StepRunsOutputForm : (place openCh .p1 (.encode fA) [turn]).atPlace 0 openCh .p1 (.encode fA) ∧
    rxInstr fA = some (.rxStdData fA.ops) ∧ frameWf fA = true ∧ frameWf { fA with rtr := true } = true ∧
    frameWf { fA with fd := true } = true ∧ frameWf { fA with fd := true, brs := true } = true :=
  ⟨place_atPlace _ _ _ _, rfl, by decide, by decide, by decide, by decide⟩

theorem witness_PassOrder : (place closedCh .idle .ready [.sched]).seq.phase = .idle ∧
    (place closedCh .p2 .txWait [.sched]).seq.phase ≠ .idle ∧
    { place closedCh .p1 .ready [turn] with seq := { chan := 0, phase := .p1, slot := 3, sub := .ready } }.seq.slot =
      closedCh.slots.length ∧
    (place closedCh .p2 .ready [turn]).atPlace 0 closedCh .p2 .ready ∧ closedCh.serq = [] ∧ closedCh.lb = [] :=
  ⟨rfl, by decide, rfl, place_atPlace _ _ _ _, rfl, rfl⟩

/-- One channel of two clear slots, and the four turns its pass takes. -/
theorem witness_EmptyIterationEnds : (place clearCh .idle .ready (.sched :: [turn, turn, turn, turn])).seq =
      { chan := 0, phase := .idle, slot := 0, sub := .ready } ∧
    (∀ x ∈ (place clearCh .idle .ready []).chans, x.slots.length = 2 ∧ (∀ y ∈ x.slots, y.flag = false) ∧ x.serq = [] ∧
      x.lb = []) ∧ (List.replicate 4 (default : CopyDraw)).length = (place clearCh .idle .ready []).chans.length * (2 + 2) ∧
    (place clearCh .idle .ready (.sched :: [turn, turn, turn, turn])).sched =
      .sched :: ((List.replicate 4 default).map .bridge ++ []) := by
  refine ⟨rfl, ?_, rfl, rfl⟩
  intro x hx
  rw [List.mem_singleton.mp hx]
  decide

/-- The reset state with an iteration to start: it has the invariant, and steps. -/
theorem witness_StepKeepsInv : ({ State.reset with sched := [.sched] } : State).Inv ∧
    ∃ t, step { State.reset with sched := [.sched] } = .next t :=
  ⟨reset_at_inv Sequencer.atRest [.sched] (Nat.succ_pos _) (Nat.zero_le _) rfl, ⟨_, rfl⟩⟩

theorem witness_NoFault : ({ State.reset with sched := [turn] } : State).Inv :=
  reset_at_inv Sequencer.atRest [turn] (Nat.succ_pos _) (Nat.zero_le _) rfl

/-- A state with the invariant that is refused for an ill-formed frame. -/
theorem witness_RefusalCauses_frame :
    ({ State.reset with seq := { chan := 0, phase := .p1, slot := 0, sub := .encode fBad }, sched := [turn] } : State).Inv ∧
    refusal (step { State.reset with seq := { chan := 0, phase := .p1, slot := 0, sub := .encode fBad }, sched := [turn] }) =
      some .illFormedFrame :=
  ⟨reset_at_inv _ _ (Nat.succ_pos _) (Nat.zero_le _)
    ⟨Nat.lt_of_lt_of_eq (Nat.succ_pos _) (resetSlots_length 0 0 Config.nSlots).symm, by decide⟩, by decide⟩

/-- A state with the invariant that is refused for an over-long line. -/
theorem witness_RefusalCauses_line :
    (({ State.reset with seq := { chan := 0, phase := .p2, slot := 0, sub := .ready }, sched := [turn] } : State).modChan 0
      (fun x => { x with lb := List.replicate Config.lineMax 0x41#8, serq := [0x41#8] })).Inv :=
  inv_reading _ _ _ (reset_at_inv _ _ (Nat.succ_pos _) (Nat.zero_le _) trivial) rfl rfl (by simp)

theorem witness_OnlyOpenCloseChangeIsOpen :
    after (step (place (withLine [0x4F#8]) .p2 .decode [turn])) (fun t => (t.chan 0).ch.isOpen) = some true ∧
    after (step (place { openCh with lb := [0x43#8] } .p2 .decode [turn])) (fun t => (t.chan 0).ch.isOpen) = some false ∧
    closedCh.ch.isOpen = false ∧ openCh.ch.isOpen = true := by decide

theorem witness_SlotOwnership :
    after (step (place openCh .idle .ready [.canRx 0 (view false true false [] [hB] [none])]))
      (fun t => ((t.chan 0).slot 1)) = some { flag := true, frame := fB } ∧ (openCh.slot 1).flag = false ∧
    after (step (place openCh .p1 .clear [turn])) (fun t => ((t.chan 0).slot 0).flag) = some false ∧
    (openCh.slot 0).flag = true := by decide

theorem witness_ControlStateWriters :
    after (step (place (withLine [0x5A#8, 0x31#8]) .p2 .decode [turn])) (fun t => (t.chan 0).ch.flags) = some { timestamp := true } ∧
    after (step (place closedCh .idle .ready [.setMode 0 .normal])) (fun t => (cfgOf t).mode) = some .normal ∧
    closedCh.ch.flags = { timestamp := false } ∧ closedCh.ch.cfg.mode = .listenOnly := by decide

/-- A counter of at least 16 bits differs from its successor. -/
theorem witness_TimestampOnlyByTick : ∃ t, step (place tickingCh .idle .ready [.tick 0]) = .next t ∧
    (t.chan 0).ch.timestamp ≠ (tickingCh.ch).timestamp := by
  refine ⟨_, rfl, ?_⟩
  show tickingCh.ch.timestamp + 1 ≠ tickingCh.ch.timestamp
  intro h
  have hz : (1 : BitVec Config.tsWidth) = 0 := by simpa using h
  have := congrArg BitVec.toNat hz
  simp [Config.tsWidth] at this

theorem witness_StepChangesOneChannel : (place closedCh .idle .ready [.serIn 0 0x4F#8]).sched = [.serIn 0 0x4F#8] ∧
    ∃ t, step (place closedCh .idle .ready [.serIn 0 0x4F#8]) = .next t := ⟨rfl, ⟨_, rfl⟩⟩

/-- Two machines that differ in channel 1 only, about to execute a command of channel 0. -/
theorem witness_StepReadsOneChannel :
    ({ ready (withLine [0x4F#8]) with chans := [withLine [0x4F#8], openCh], sched := [turn] } : State).chan 0 =
      ({ ready (withLine [0x4F#8]) with chans := [withLine [0x4F#8], closedCh], sched := [turn] } : State).chan 0 ∧
    (ready (withLine [0x4F#8])).eventChannel turn = some 0 ∧
    ∃ t, step { ready (withLine [0x4F#8]) with chans := [withLine [0x4F#8], openCh], sched := [turn] } = .next t :=
  ⟨rfl, rfl, next_of_after _ (by decide)⟩

end Sys2Proof.Tests
end

section
/-! PROOFS. The decoder's half of the step: what the rule of a decoded command does (10_state.md R32, 30_encoding.md R92),
and that the output form of a captured frame encodes that frame (43_rx_encode.md R180). -/

namespace Sys2Proof.Machine

open Sys2Proof

/-! ## The operands of a transmit command -/

/-- W1 to W4 of 10_state.md R32, and the payload the DLC announces (R33), clause by clause. -/
theorem encodable_iff (f : CanFrame) : encodable f = true ↔
    (f.ext = true ∨ f.id.toNat ≤ idMax false) ∧ (!(f.rtr && f.fd)) = true ∧ (!f.brs || f.fd) = true ∧
      (f.fd = true ∨ f.dlc.toNat ≤ 8) ∧ f.data.length = flen f := by
  simp only [encodable, frameWf, frameSized, Bool.and_eq_true, Bool.or_eq_true, decide_eq_true_eq, and_assoc]

theorem limitId_le (ext : Bool) (n : Nat) (id : BitVec 29) (h : limitId ext n = some id) : id.toNat ≤ idMax ext := by
  unfold limitId at h
  split at h
  · cases h
  · next hn =>
    cases h
    rw [BitVec.toNat_ofNat]
    exact (Nat.mod_le _ _).trans (by omega)

theorem payloadAt_length (ln : List Byte) (n : Nat) : ∀ (p : Nat) (bytes : List Byte),
    payloadAt ln p n = some bytes → bytes.length = n := by
  induction n with
  | zero => intro p bytes h; cases h; rfl
  | succ n ih =>
    intro p bytes h
    unfold payloadAt at h
    split at h
    · cases h
    · obtain ⟨rest, hr, rfl⟩ := Option.map_eq_some_iff.mp h
      rw [List.length_cons, ih _ _ hr]

theorem txPayload_ok (ln : List Byte) (ext rtr : Bool) (id : BitVec 29) (d : BitVec 4) (o : FrameOps)
    (h : txPayload ln ext rtr id d = .ok o) :
    o.id = id ∧ o.dlc = d ∧ o.data.length = if rtr then 0 else dlcLen d := by
  unfold txPayload at h
  split at h
  · next hr => cases h; simp [hr]
  · next hr =>
    split at h
    · cases h
    · next bytes hb => cases h; simp [hr, payloadAt_length ln _ _ _ hb]

theorem txDlc_ok (ln : List Byte) (ext rtr fd : Bool) (id : BitVec 29) (o : FrameOps)
    (h : txDlc ln ext rtr fd id = .ok o) :
    o.id = id ∧ (fd = false → dlcLen o.dlc ≤ 8) ∧ o.data.length = if rtr then 0 else dlcLen o.dlc := by
  unfold txDlc at h
  split at h
  · cases h
  · next d _ =>
    split at h
    · cases h
    · next hlim =>
      obtain ⟨hid, rfl, hlen⟩ := txPayload_ok ln ext rtr id d o h
      refine ⟨hid, fun hf => ?_, hlen⟩
      by_contra hgt
      exact hlim ⟨hf, by omega, rfl⟩

/-- `TxDecode` passes a frame on only when every clause of W1 to W4 holds of it (10_state.md R32), under any tags of the
command map: no remote FD frame, bit-rate switch on FD frames only. -/
theorem txOperands_wf (ln : List Byte) (ext rtr fd brs : Bool) (o : FrameOps) (hrf : (!(rtr && fd)) = true)
    (hbf : (!brs || fd) = true) (h : txOperands ln ext rtr fd = .ok o) : o.wf ext rtr fd brs = true := by
  unfold txOperands at h
  split at h
  · cases h
  · split at h
    · cases h
    · next id hid =>
      obtain ⟨rfl, hdlc, hlen⟩ := txDlc_ok ln ext rtr fd id o h
      have hmax := limitId_le ext _ _ hid
      have hw1 : ext = true ∨ o.id.toNat ≤ idMax false := by
        cases ext
        · exact .inr hmax
        · exact .inl rfl
      have hw4 : fd = true ∨ o.dlc.toNat ≤ 8 := by
        cases fd
        · have := dlcLen_gt_eight o.dlc
          have := hdlc rfl
          exact .inr (by omega)
        · exact .inl rfl
      exact (encodable_iff (o.toFrame ext rtr fd brs)).mpr ⟨hw1, hrf, hbf, hw4, hlen⟩

/-! ## What the rule of a command does -/

/-- The rule of a command (40_control_commands.md, 41_transmit_commands.md, 42_query_stub_commands.md): one of the five
control operations with its Ack, or an action alone, which sends well-formed frames only. -/
inductive CommandRule (i : Instr) : Prop
  | opens (h : ∀ s, exec i s = .next (((s.setMode s.seq.chan .normal).openOp s.seq.chan).act .ack))
  | closes (h : ∀ s, exec i s = .next ((s.closeOp s.seq.chan).act .ack))
  | setsBitrate (k : Fin 9)
      (h : ∀ s, exec i s = .next ((s.modCfg s.seq.chan (fun g => { g with nominalBitrate := baud k })).act .ack))
  | setsDataRate (r : FdRate)
      (h : ∀ s, exec i s = .next ((s.modCfg s.seq.chan (fun g => { g with dataBitrate := fdRate r })).act .ack))
  | setsTimestamp (on : Bool)
      (h : ∀ s, exec i s = .next ((s.modCh s.seq.chan (fun x => x.setTimestampFlag on)).act .ack))
  | answers (a : Action) (hsend : ∀ f, a = .send f → encodable f = true) (h : ∀ s, exec i s = .next (s.act a))

/-- An action other than `Send` leaves nothing to check of a frame. -/
theorem CommandRule.answersNoFrame {i : Instr} (a : Action) (ha : ∀ f, a ≠ .send f)
    (h : ∀ s, exec i s = .next (s.act a)) : CommandRule i :=
  .answers a (fun f e => absurd e (ha f)) h

theorem CommandRule.query {i : Instr} (bytes : List Byte) (h : ∀ s, exec i s = .next (s.act (.reply bytes))) :
    CommandRule i :=
  .answersNoFrame (.reply bytes) nofun h

theorem CommandRule.stub {i : Instr} (h : ∀ s, exec i s = .next (s.act .nack)) : CommandRule i :=
  .answersNoFrame .nack nofun h

/-- The eight transmit commands share one rule (R140 step 8). -/
theorem CommandRule.sends {i : Instr} (ln : List Byte) (ext rtr fd brs : Bool) (hrf : (!(rtr && fd)) = true)
    (hbf : (!brs || fd) = true) (h : ∀ s, exec i s = sendFrame ext rtr fd brs (txOperands ln ext rtr fd) s) :
    CommandRule i := by
  cases ho : txOperands ln ext rtr fd with
  | ok o =>
    refine .answers (.send (o.toFrame ext rtr fd brs)) (fun f e => ?_) (fun s => by rw [h, ho]; rfl)
    cases e
    exact txOperands_wf ln ext rtr fd brs o hrf hbf ho
  | bad why => exact .answersNoFrame .nack nofun (fun s => by rw [h, ho]; rfl)

theorem setBitrate_rule (arg : Arg (Fin 9)) : CommandRule (.setBitrate arg) := by
  cases arg with
  | ok k => exact .setsBitrate k (fun _ => rfl)
  | bad why => exact .answersNoFrame .nack nofun (fun _ => rfl)

theorem setDataRate_rule (arg : Arg FdRate) : CommandRule (.setDataRate arg) := by
  cases arg with
  | ok r => exact .setsDataRate r (fun _ => rfl)
  | bad why => exact .answersNoFrame .nack nofun (fun _ => rfl)

theorem setTimestamp_rule (arg : Arg Bool) : CommandRule (.setTimestamp arg) := by
  cases arg with
  | ok on => exact .setsTimestamp on (fun _ => rfl)
  | bad why => exact .answersNoFrame .nack nofun (fun _ => rfl)

/-- Every row of the command map has a rule (30_encoding.md R92), row by row in the table's order. -/
theorem commandTable_rule (ln : List Byte) : ∀ row ∈ commandTable, CommandRule (row.2 ln) := by
  simp only [commandTable, List.forall_mem_cons, List.not_mem_nil, false_imp_iff, implies_true, and_true]
  exact
    ⟨.opens fun _ => rfl, .closes fun _ => rfl, setBitrate_rule _, setDataRate_rule _, setTimestamp_rule _,
      .sends ln false false false false rfl rfl fun _ => rfl, .sends ln true false false false rfl rfl fun _ => rfl,
      .sends ln false true false false rfl rfl fun _ => rfl, .sends ln true true false false rfl rfl fun _ => rfl,
      .sends ln false false true false rfl rfl fun _ => rfl, .sends ln true false true false rfl rfl fun _ => rfl,
      .sends ln false false true true rfl rfl fun _ => rfl, .sends ln true false true true rfl rfl fun _ => rfl,
      .query _ fun _ => rfl, .query _ fun _ => rfl,
      .query _ fun _ => rfl, .query _ fun _ => rfl,
      .stub fun _ => rfl, .stub fun _ => rfl, .stub fun _ => rfl, .stub fun _ => rfl, .stub fun _ => rfl,
      .stub fun _ => rfl, .stub fun _ => rfl, .stub fun _ => rfl, .stub fun _ => rfl, .stub fun _ => rfl⟩

theorem decodeFirst_rule (b : Byte) (ln : List Byte) : CommandRule (decodeFirst b ln) := by
  unfold decodeFirst
  cases hrow : commandTable.find? (fun row => row.1 == b) with
  | some row => exact commandTable_rule ln row (List.mem_of_find?_eq_some hrow)
  | none => exact .stub (fun _ => rfl)

/-- Every line decodes to a command with a rule (30_encoding.md R109). -/
theorem decode_rule (ln : List Byte) (i : Instr) (h : decode ln = .ok i) : CommandRule i := by
  unfold decode at h
  split at h
  · cases h
    cases ln with
    | nil => exact .stub (fun _ => rfl)
    | cons b rest => exact decodeFirst_rule b (b :: rest)
  · cases h

/-- The output form of a captured frame encodes that frame (43_rx_encode.md R180). -/
theorem exec_rxInstr (g : CanFrame) (i : Instr) (h : rxInstr g = some i) (s : State) : exec i s = s.encodeRx g := by
  obtain ⟨id, ext, rtr, fd, brs, dlc, data⟩ := g
  unfold rxInstr at h
  split at h <;> cases h
  all_goals
    simp only at *
    subst_vars
    cases ext <;> rfl

/-- Settles O9: `Send` comes from a rule that answers, and its frame passed every check of R140. -/
theorem decodedFramesWellFormed : Obligations.DecodedFramesWellFormed := by
  unfold Obligations.DecodedFramesWellFormed
  intro line i s t f hdec hexec hsub
  have hack : ∀ u : State, exec i s = .next (u.act .ack) → False := by
    intro u hu
    rw [hu] at hexec
    cases hexec
    cases hsub
  cases decode_rule line i hdec with
  | opens h => exact (hack _ (h s)).elim
  | closes h => exact (hack _ (h s)).elim
  | setsBitrate k h => exact (hack _ (h s)).elim
  | setsDataRate r h => exact (hack _ (h s)).elim
  | setsTimestamp on h => exact (hack _ (h s)).elim
  | answers a hsend h =>
    rw [h s] at hexec
    cases hexec
    cases hsub
    simpa [encodable, frameSized] using hsend f rfl

end Sys2Proof.Machine
end

section
/-! PROOFS. What reset leaves (10_state.md R42) and what the collaborators' answers do (R40). -/

namespace Sys2Proof.Machine

open Sys2Proof

/-- Settles O49: reset is one of the states the model's own lemma covers, with the sequencer at rest. -/
theorem resetInv : Obligations.ResetInv :=
  reset_at_inv Sequencer.atRest [] (Nat.succ_pos _) (Nat.zero_le _) rfl

/-- Settles O48: channel c of reset is `Channel.reset c`, whose fields are read off. -/
theorem resetValues : Obligations.ResetValues := by
  unfold Obligations.ResetValues
  have hle : Config.nCh ≤ 4 := Config.nChLessOne.isLt
  refine ⟨resetChans_length 0 _, Nat.succ_pos _, hle, rfl, rfl, fun c hc => ⟨Channel.reset c, ?_, ?_⟩⟩
  · exact (resetChans_get 0 Config.nCh c hc).trans (by rw [Nat.zero_add])
  · exact ⟨rfl, rfl, rfl, rfl, rfl, rfl, rfl, rfl, resetSlots_length c 0 _, resetSlots_flag c 0 _,
      rfl, rfl, rfl, rfl, rfl⟩

/-- An event of a configured channel, taken by a step. -/
theorem step_onChannel (s : State) (e : Event) (rest : List Event) (c : Nat) (f : State → State)
    (hs : s.sched = e :: rest) (hc : c < s.chans.length) (he : ∀ u, takeEvent e u = .next (u.onChannel c f)) :
    step s = .next (f { s with sched := rest }) := by
  rw [step_cons s e rest hs, he]
  exact congrArg _ (onChannel_of_lt _ _ _ hc)

/-- Settles O26: the two events of the collaborators on a configured channel, `TxDone` with and without a transmit. -/
theorem collaboratorAnswers : Obligations.CollaboratorAnswers := by
  unfold Obligations.CollaboratorAnswers
  rintro s c x rest hc rfl
  refine ⟨fun hs hb => ?_, fun hs hb => ?_, fun b hs => ?_⟩
  · rw [step_onChannel s _ rest c _ hs hc (fun _ => rfl), State.onTxDone]
    exact congrArg _ (if_pos hb)
  · rw [step_onChannel s _ rest c _ hs hc (fun _ => rfl), State.onTxDone]
    exact congrArg _ (if_neg (by simp [hb]))
  · rw [step_onChannel s _ rest c _ hs hc (fun _ => rfl)]
    rfl

end Sys2Proof.Machine
end

section
/-! PROOFS. One channel at a time (10_state.md R20): an event reads and writes the channel it acts on and the sequencer.
Two runs of one operation, from states that agree on that channel, are followed side by side; with the two states equal,
this also says what the operation leaves alone. -/

namespace Sys2Proof.Machine

open Sys2Proof

/-- The two states agree on all an event of channel c may read: the channel, the sequencer, the number of channels. -/
structure AgreeOn (c : Nat) (s s' : State) : Prop where
  inRange : c < s.chans.length
  length : s'.chans.length = s.chans.length
  chan : s'.chan c = s.chan c
  seq : s'.seq = s.seq

/-- s became t and s' became t' by the same effect on channel c, the sequencer and the trace, and by no other. -/
structure SameEffect (c : Nat) (s s' t t' : State) : Prop where
  agree : AgreeOn c t t'
  length : t.chans.length = s.chans.length
  others : ∀ d, d ≠ c → t.chan d = s.chan d
  sched : t.sched = s.sched
  outputs : ∃ out, t.trace = s.trace ++ out ∧ t'.trace = s'.trace ++ out ∧ ∀ o ∈ out, o.channel = c

namespace SameEffect

theorem refl {c : Nat} {s s' : State} (h : AgreeOn c s s') : SameEffect c s s' s s' :=
  ⟨h, rfl, fun _ _ => rfl, rfl, [], by simp⟩

variable {c : Nat} {s s' t t' : State}

theorem modChan (h : SameEffect c s s' t t') (f : Channel → Channel) :
    SameEffect c s s' (t.modChan c f) (t'.modChan c f) where
  agree :=
    { inRange := by simpa using h.agree.inRange
      length := by simpa using h.agree.length
      chan := by
        rw [chan_modChan_same t c f h.agree.inRange, chan_modChan_same t' c f (h.agree.length ▸ h.agree.inRange),
          h.agree.chan]
      seq := h.agree.seq }
  length := by simpa using h.length
  others d hd := by rw [chan_modChan_other t c d f hd, h.others d hd]
  sched := h.sched
  outputs := h.outputs

theorem modCh (h : SameEffect c s s' t t') (f : ChannelState → ChannelState) :
    SameEffect c s s' (t.modCh c f) (t'.modCh c f) :=
  h.modChan (fun x => { x with ch := f x.ch })

theorem modCfg (h : SameEffect c s s' t t') (f : ChannelConfig → ChannelConfig) :
    SameEffect c s s' (t.modCfg c f) (t'.modCfg c f) :=
  h.modCh (fun x => { x with cfg := f x.cfg })

theorem modHw (h : SameEffect c s s' t t') (f : Hw → Hw) : SameEffect c s s' (t.modHw c f) (t'.modHw c f) :=
  h.modChan (fun x => { x with hw := f x.hw })

theorem modRx (h : SameEffect c s s' t t') (f : RxView → RxView) : SameEffect c s s' (t.modRx c f) (t'.modRx c f) :=
  h.modHw (fun x => { x with rx := f x.rx })

theorem modSlot (h : SameEffect c s s' t t') (i : Nat) (f : RxSlot → RxSlot) :
    SameEffect c s s' (t.modSlot c i f) (t'.modSlot c i f) :=
  h.modChan (fun x => { x with slots := x.slots.set i (f (x.slot i)) })

theorem setLb (h : SameEffect c s s' t t') (l : List Byte) : SameEffect c s s' (t.setLb c l) (t'.setLb c l) :=
  h.modChan (fun x => { x with lb := l })

theorem setSerq (h : SameEffect c s s' t t') (l : List Byte) : SameEffect c s s' (t.setSerq c l) (t'.setSerq c l) :=
  h.modChan (fun x => { x with serq := l })

theorem emit (h : SameEffect c s s' t t') (o : Output) (ho : o.channel = c) :
    SameEffect c s s' (t.emit o) (t'.emit o) where
  agree := ⟨h.agree.inRange, h.agree.length, h.agree.chan, h.agree.seq⟩
  length := h.length
  others := h.others
  sched := h.sched
  outputs := by
    obtain ⟨out, ht, ht', hout⟩ := h.outputs
    refine ⟨out ++ [o], by simp [ht], by simp [ht'], fun o' hm => ?_⟩
    rcases List.mem_append.mp hm with hm | hm
    · exact hout o' hm
    · rw [List.mem_singleton.mp hm, ho]

theorem withSeq (h : SameEffect c s s' t t') (q : Sequencer) :
    SameEffect c s s' { t with seq := q } { t' with seq := q } where
  agree := ⟨h.agree.inRange, h.agree.length, h.agree.chan, rfl⟩
  length := h.length
  others := h.others
  sched := h.sched
  outputs := h.outputs

theorem withSub (h : SameEffect c s s' t t') (m : Sub) : SameEffect c s s' (t.withSub m) (t'.withSub m) := by
  unfold State.withSub
  rw [h.agree.seq]
  exact h.withSeq _

/-! ## The shared operations -/

theorem reply (h : SameEffect c s s' t t') (bytes : List Byte) :
    SameEffect c s s' (t.reply c bytes) (t'.reply c bytes) := by
  unfold State.reply
  rw [h.agree.chan]
  split
  · exact h
  · exact h.emit _ rfl

theorem setMode (h : SameEffect c s s' t t') (m : Mode) : SameEffect c s s' (t.setMode c m) (t'.setMode c m) := by
  unfold State.setMode
  rw [h.agree.chan]
  split
  · exact h
  · exact h.modCfg _

theorem closeOp (h : SameEffect c s s' t t') : SameEffect c s s' (t.closeOp c) (t'.closeOp c) := by
  unfold State.closeOp
  have hdeinit := (h.emit (.canDeinit c) rfl).modHw (fun w => { w with enabled := false })
  exact (((hdeinit.emit (.rxIrqClassDisable c) rfl).emit (.irqDisable c) rfl).modHw _).modCh _

theorem openClosed (h : SameEffect c s s' t t') : SameEffect c s s' (t.openClosed c) (t'.openClosed c) := by
  have hcfg := h.modCfg ChannelConfig.withDefaultRate
  unfold State.openClosed
  simp only [hcfg.agree.chan]
  have hinit := (hcfg.emit (.canInit c ((t.modCfg c ChannelConfig.withDefaultRate).chan c).ch.cfg) rfl).modHw
    (fun w => { w with enabled := true })
  exact (((hinit.emit (.rxIrqClassEnable c) rfl).emit (.irqEnable c _) rfl).modHw _).modCh _

theorem openOp (h : SameEffect c s s' t t') : SameEffect c s s' (t.openOp c) (t'.openOp c) := by
  unfold State.openOp
  rw [h.agree.chan]
  split
  · exact h.closeOp.openClosed
  · exact h.openClosed

theorem endPass (h : SameEffect c s s' t t') : SameEffect c s s' t.endPass t'.endPass := by
  unfold State.endPass
  rw [h.agree.seq, h.agree.length]
  split
  · exact h.withSeq _
  · exact h.withSeq _

theorem endCommand (h : SameEffect c s s' t t') (hc : t.seq.chan = c) :
    SameEffect c s s' t.endCommand t'.endCommand := by
  unfold State.endCommand
  rw [h.agree.seq, hc]
  exact (h.setLb _).withSub _

/-! ## The receive interrupt -/

theorem capture (h : SameEffect c s s' t t') (i : Nat) (f : CanFrame) :
    SameEffect c s s' (t.capture c i f) (t'.capture c i f) := by
  unfold State.capture
  refine SameEffect.modSlot ?_ i _
  unfold State.noteOverwrite
  rw [h.agree.seq, h.agree.chan]
  split
  · split
    · exact h.withSub _
    · exact h
  · exact h

theorem armRead (h : SameEffect c s s' t t') (src : RxSource) :
    SameEffect c s s' (t.armRead c src) (t'.armRead c src) := by
  unfold State.armRead
  rw [h.agree.chan]
  split
  · exact h
  · exact ((h.emit (.hwRead c src) rfl).modRx _).capture _ _

theorem armDedicated (h : SameEffect c s s' t t') (k : Nat) :
    SameEffect c s s' (t.armDedicated c k) (t'.armDedicated c k) :=
  ((h.armRead (.dedicated k)).emit (.clearNdat c k) rfl).modRx _

theorem armAllDedicated (n : Nat) : ∀ {t t' : State} (k : Nat), SameEffect c s s' t t' →
    SameEffect c s s' (t.armAllDedicated c k n) (t'.armAllDedicated c k n) := by
  induction n with
  | zero => exact fun _ h => h
  | succ n ih =>
    intro t t' k h
    unfold State.armAllDedicated
    rw [h.agree.chan]
    split
    · exact ih _ (h.armDedicated k)
    · exact ih _ h

theorem armIf (h : SameEffect c s s' t t') (cause : Bool) (arm : State → State)
    (harm : ∀ {u u'}, SameEffect c s s' u u' → SameEffect c s s' (arm u) (arm u')) :
    SameEffect c s s' (t.armIf cause arm) (t'.armIf cause arm) := by
  unfold State.armIf
  split
  · exact harm h
  · exact h

theorem isr (h : SameEffect c s s' t t') : SameEffect c s s' (t.isr c) (t'.isr c) := by
  unfold State.isr
  rw [h.agree.chan]
  have hded : ∀ {u u'}, SameEffect c s s' u u' → SameEffect c s s'
      (u.armAllDedicated c 0 (u.chan c).hw.rx.ded.length) (u'.armAllDedicated c 0 (u'.chan c).hw.rx.ded.length) := by
    intro u u' hu
    rw [hu.agree.chan]
    exact armAllDedicated _ 0 hu
  have h1 := h.armIf (t.chan c).hw.rx.pending.f0n (·.armRead c .fifo0) (·.armRead .fifo0)
  have h2 := h1.armIf (t.chan c).hw.rx.pending.f1n (·.armRead c .fifo1) (·.armRead .fifo1)
  have h3 := h2.armIf (t.chan c).hw.rx.pending.drx _ hded
  exact (h3.emit (.clearIrqFlags c _) rfl).modRx _

end SameEffect

/-! ## One event -/

/-- The channel an event acts on depends on the sequencer alone. -/
theorem eventChannel_congr {s s' : State} (h : s'.seq = s.seq) (e : Event) : s'.eventChannel e = s.eventChannel e := by
  unfold State.eventChannel
  rw [h]

/-- What the first state's operation answers, the second's answers too, with the same effect on channel c. -/
def SameNext (c : Nat) (s s' : State) (o o' : Host.Outcome State Fault Refusal) : Prop :=
  ∀ t, o = .next t → ∃ t', o' = .next t' ∧ SameEffect c s s' t t'

theorem SameEffect.next {c : Nat} {s s' t t' : State} (h : SameEffect c s s' t t') :
    SameNext c s s' (.next t) (.next t') := by
  rintro u ⟨⟩
  exact ⟨t', rfl, h⟩

section
variable {c : Nat} {s s' : State} (h : AgreeOn c s s') (hc : s.seq.chan = c)
include h hc

theorem p2Decode_same : SameNext c s s' s.p2Decode s'.p2Decode := by
  have hr := SameEffect.refl h
  unfold State.p2Decode
  rw [h.seq, hc, h.chan]
  split
  · next i hi =>
    cases decode_rule _ i hi with
    | opens hx => rw [hx, hx, h.seq, hc]; exact ((hr.setMode _).openOp.withSub _).next
    | closes hx => rw [hx, hx, h.seq, hc]; exact (hr.closeOp.withSub _).next
    | setsBitrate k hx => rw [hx, hx, h.seq, hc]; exact ((hr.modCfg _).withSub _).next
    | setsDataRate r hx => rw [hx, hx, h.seq, hc]; exact ((hr.modCfg _).withSub _).next
    | setsTimestamp on hx => rw [hx, hx, h.seq, hc]; exact ((hr.modCh _).withSub _).next
    | answers a _ hx => rw [hx, hx]; exact (hr.withSub _).next
  · nofun

theorem phase1Turn_same (d : CopyDraw) : SameNext c s s' (s.phase1Turn d) (s'.phase1Turn d) := by
  have hr := SameEffect.refl h
  unfold State.phase1Turn
  rw [h.seq]
  split
  · unfold State.p1Test State.nSlots State.nextSlot State.startPhase2
    rw [h.seq, hc, h.chan]
    split
    · split
      · exact (hr.withSub _).next
      · exact (hr.withSeq _).next
    · exact (hr.withSeq _).next
  · unfold State.p1Clear
    rw [h.seq, hc]
    exact ((hr.modSlot _ _).withSub _).next
  · unfold State.p1Copy
    rw [h.seq, hc, h.chan]
    exact (hr.withSub _).next
  · next g _ =>
    unfold State.p1Encode
    split
    · nofun
    · next i hi =>
      rw [exec_rxInstr g i hi, exec_rxInstr g i hi]
      unfold State.encodeRx
      rw [h.seq, hc, h.chan]
      split
      · exact (hr.withSub _).next
      · nofun
  · unfold State.p1Write State.nextSlot
    simp only [reply_seq, h.seq, hc]
    exact ((hr.reply _).withSeq _).next
  all_goals exact hr.next

theorem p2Read_same : SameNext c s s' s.p2Read s'.p2Read := by
  have hr := SameEffect.refl h
  unfold State.p2Read
  rw [h.seq, hc, h.chan]
  split
  · split
    · exact ((hr.setSerq _).withSub _).next
    · split
      · exact ((hr.setSerq _).setLb _).next
      · nofun
  · exact hr.endPass.next
  · exact hr.next

theorem p2Dispatch_same (a : Action) : SameEffect c s s' (s.p2Dispatch a) (s'.p2Dispatch a) := by
  have hr := SameEffect.refl h
  have hend : ∀ bytes, SameEffect c s s' (s.reply c bytes).endCommand (s'.reply c bytes).endCommand :=
    fun bytes => (hr.reply bytes).endCommand (by simpa using hc)
  unfold State.p2Dispatch
  rw [h.seq, hc]
  cases a with
  | ack => exact hend _
  | nack => exact hend _
  | reply bytes => exact hend _
  | send f => exact ((hr.emit (.canTx c f) rfl).modHw _).withSub _

theorem phase2Turn_same : SameNext c s s' s.phase2Turn s'.phase2Turn := by
  have hr := SameEffect.refl h
  unfold State.phase2Turn
  rw [h.seq]
  split
  · exact p2Read_same h hc
  · exact p2Decode_same h hc
  · exact (p2Dispatch_same h hc _).next
  · unfold State.p2TxWait
    rw [h.seq, hc, h.chan]
    split
    · exact hr.next
    · exact (hr.endCommand hc).next
  all_goals exact hr.next

theorem bridgeTurn_same (d : CopyDraw) : SameNext c s s' (s.bridgeTurn d) (s'.bridgeTurn d) := by
  unfold State.bridgeTurn
  rw [h.seq, h.length]
  split
  · split
    · exact (SameEffect.refl h).next
    · exact phase1Turn_same h hc d
    · exact phase2Turn_same h hc
  · nofun

end

theorem onChannel_same {c : Nat} {s s' : State} (h : AgreeOn c s s') (f : State → State)
    (hf : SameEffect c s s' (f s) (f s')) : SameNext c s s' (.next (s.onChannel c f)) (.next (s'.onChannel c f)) := by
  rw [onChannel_of_lt s c f h.inRange, onChannel_of_lt s' c f (h.length ▸ h.inRange)]
  exact hf.next

/-- An event that acts on channel c has one effect from all states that agree on channel c (10_state.md R20). -/
theorem takeEvent_same {c : Nat} {s s' : State} (e : Event) (h : AgreeOn c s s') (he : s.eventChannel e = some c) :
    SameNext c s s' (takeEvent e s) (takeEvent e s') := by
  have hr := SameEffect.refl h
  cases e with
  | serIn c' b =>
    cases he
    refine onChannel_same h _ ?_
    rw [h.chan]
    exact hr.setSerq _
  | canRx c' v =>
    cases he
    refine onChannel_same h _ ?_
    unfold State.onCanRx
    rw [h.chan]
    split
    · exact (hr.modRx _).isr
    · exact hr
  | txDone c' =>
    cases he
    refine onChannel_same h _ ?_
    unfold State.onTxDone
    rw [h.chan]
    split
    · exact hr.modHw _
    · exact hr
  | busy c' b => cases he; exact onChannel_same h _ (hr.modChan _)
  | tick c' => cases he; exact onChannel_same h _ (hr.modCh _)
  | lineTimeout c' =>
    cases he
    refine onChannel_same h _ ?_
    unfold State.onLineTimeout State.readWaits
    rw [h.seq, h.chan]
    split
    · exact (hr.setLb _).endPass
    · exact hr
  | sched => cases he
  | setMode c' m => cases he; exact onChannel_same h _ (hr.setMode _)
  | bridge d => exact bridgeTurn_same h (Option.some.inj he) d

/-- `BRIDGE` takes no turn on a channel that is not configured (log 33). -/
theorem not_bridge_of_next {c : Nat} {s t : State} {e : Event} (hc : ¬ c < s.chans.length)
    (he : s.eventChannel e = some c) (h : takeEvent e s = .next t) (d : CopyDraw) : e ≠ .bridge d := by
  rintro rfl
  cases he
  simp only [takeEvent, State.bridgeTurn, if_neg hc] at h
  cases h

/-- An event of a channel that is not configured did not occur (log 2). -/
theorem takeEvent_outOfRange {c : Nat} (s : State) {e : Event} (hc : ¬ c < s.chans.length)
    (he : s.eventChannel e = some c) (hb : ∀ d, e ≠ .bridge d) : takeEvent e s = .next s := by
  have hoff : ∀ f, s.onChannel c f = s := fun f => if_neg hc
  cases e with
  | sched => cases he
  | bridge d => exact absurd rfl (hb d)
  | _ => cases he; exact congrArg _ (hoff _)

theorem eq_of_outOfRange {c : Nat} {s t : State} {e : Event} (hc : ¬ c < s.chans.length)
    (he : s.eventChannel e = some c) (h : takeEvent e s = .next t) : t = s := by
  rw [takeEvent_outOfRange s hc he (not_bridge_of_next hc he h)] at h
  cases h
  rfl

/-- `Sched` moves the sequencer only (46_bridge_loop.md R240). -/
theorem onSched_eq (s : State) : s.onSched = s ∨ s.seq.phase = .idle ∧ s.onSched = s.startPass 0 := by
  unfold State.onSched
  split
  · next h => exact .inr ⟨h, rfl⟩
  · exact .inl rfl

/-- What one event leaves alone: the schedule, the number of channels, every channel it does not act on, and the outputs
already made, to which it adds outputs of its channel only. -/
theorem takeEvent_frame {s t : State} (e : Event) (h : takeEvent e s = .next t) :
    t.sched = s.sched ∧ t.chans.length = s.chans.length ∧
      (∀ c, s.eventChannel e ≠ some c → t.chan c = s.chan c) ∧
      ∃ out, t.trace = s.trace ++ out ∧ ∀ o ∈ out, s.eventChannel e = some o.channel := by
  cases he : s.eventChannel e with
  | none =>
    cases e with
    | sched =>
      cases h
      rcases onSched_eq s with hs | ⟨-, hs⟩ <;> rw [hs] <;>
        exact ⟨rfl, rfl, fun _ _ => rfl, [], by simp [State.startPass]⟩
    | _ => cases he
  | some c =>
    by_cases hc : c < s.chans.length
    · obtain ⟨t', -, hsame⟩ := takeEvent_same e ⟨hc, rfl, rfl, rfl⟩ he t h
      obtain ⟨out, hout, -, hchan⟩ := hsame.outputs
      refine ⟨hsame.sched, hsame.length, fun d hd => hsame.others d (fun e => hd (by rw [e])), out, hout, ?_⟩
      exact fun o ho => by rw [hchan o ho]
    · rw [eq_of_outOfRange hc he h]
      exact ⟨rfl, rfl, fun _ _ => rfl, [], by simp⟩

/-- Settles O57: what one event leaves alone, with the event itself taken off the schedule. -/
theorem stepChangesOneChannel : Obligations.StepChangesOneChannel := by
  unfold Obligations.StepChangesOneChannel
  intro s t e rest hs hstep
  rw [step_cons s e rest hs] at hstep
  exact takeEvent_frame e hstep

/-- Settles O58: a configured channel by the two runs side by side; an event of any other channel did not occur. -/
theorem stepReadsOneChannel : Obligations.StepReadsOneChannel := by
  unfold Obligations.StepReadsOneChannel
  intro s s' t e rest c hs hs' he hseq hlen hchan hstep
  rw [step_cons s e rest hs] at hstep
  rw [step_cons s' e rest hs']
  by_cases hc : c < s.chans.length
  · have hagree : AgreeOn c { s with sched := rest } { s' with sched := rest } := ⟨hc, hlen, hchan, hseq⟩
    obtain ⟨t', ht', hsame⟩ := takeEvent_same e hagree he t hstep
    obtain ⟨out, hout, hout', -⟩ := hsame.outputs
    exact ⟨t', out, ht', hsame.agree.chan, hsame.agree.seq, hout, hout'⟩
  · have hb := not_bridge_of_next (s := { s with sched := rest }) hc he hstep
    have he' : s'.eventChannel e = some c := (eventChannel_congr hseq e).trans he
    rw [eq_of_outOfRange (s := { s with sched := rest }) hc he hstep]
    have hoff := takeEvent_outOfRange { s' with sched := rest } (hlen ▸ hc) he' hb
    exact ⟨_, [], hoff, hchan, hseq, by simp, by simp⟩

end Sys2Proof.Machine
end

section
/-! PROOFS. What a step can do to the channel it acts on and to the sequencer, said once: the handler
(45_frame_store_isr.md), a command's rule, a turn of `BRIDGE` (46_bridge_loop.md), and every event. -/

namespace Sys2Proof.Machine

open Sys2Proof

/-! ## The handler -/

/-- A slot is as it was, or holds a whole hardware frame with its flag set (R222 to R227); nothing of the channel changes
beside the slots and the controller's receive side. -/
structure SlotsCaptured (x x' : Channel) : Prop where
  rest : ∃ slots rx, x' = { x with slots := slots, hw := { x.hw with rx := rx } }
  count : x'.slots.length = x.slots.length
  slot : ∀ i, x'.slot i = x.slot i ∨ ∃ h : HwFrame, h.whole = true ∧ x'.slot i = captured h

/-- The handler leaves the sequencer, except that a copy-out in progress on its channel meets the frame it overwrote
(20_memory.md R72). -/
inductive CopyNoted (c : Nat) (q : Sequencer) : Sequencer → Prop
  | left : CopyNoted c q q
  | noted (old new : List CanFrame) (hc : q.chan = c) (hp : q.phase = .p1) (hm : q.sub = .copy old) :
      CopyNoted c q { q with sub := .copy new }

theorem SlotsCaptured.refl (x : Channel) : SlotsCaptured x x := ⟨⟨x.slots, x.hw.rx, rfl⟩, rfl, fun _ => .inl rfl⟩

theorem SlotsCaptured.trans {x y z : Channel} (h : SlotsCaptured x y) (k : SlotsCaptured y z) : SlotsCaptured x z where
  rest := by
    obtain ⟨slots, rx, rfl⟩ := h.rest
    obtain ⟨slots', rx', rfl⟩ := k.rest
    exact ⟨slots', rx', rfl⟩
  count := k.count.trans h.count
  slot i := by
    rcases k.slot i with e | hw
    · rw [e]; exact h.slot i
    · exact .inr hw

theorem CopyNoted.trans {c : Nat} {q r u : Sequencer} (h : CopyNoted c q r) (k : CopyNoted c r u) :
    CopyNoted c q u := by
  cases h with
  | left => exact k
  | noted old new hc hp hm =>
    cases k with
    | left => exact .noted old new hc hp hm
    | noted _ new' _ _ _ => exact .noted old new' hc hp hm

theorem overwritten_noted (q : Sequencer) (c i : Nat) (old : CanFrame) : CopyNoted c q (overwritten q c i old) := by
  unfold overwritten
  split
  · next earlier hp hm =>
    split
    · next hc => exact .noted earlier _ hc.1 hp hm
    · exact .left
  · exact .left

/-- One slot written with a whole frame, with any change of the controller's receive side. -/
theorem slotsCaptured_set (x : Channel) (i : Nat) (h : HwFrame) (rx : RxView) (hw : h.whole = true) :
    SlotsCaptured x { x with slots := x.slots.set i (captured h), hw := { x.hw with rx := rx } } where
  rest := ⟨_, _, rfl⟩
  count := List.length_set ..
  slot j := by
    by_cases hi : i < x.slots.length
    · by_cases hj : j = i
      · exact .inr ⟨h, hw, (slot_set x i j _ hi).trans (if_pos hj)⟩
      · exact .inl ((slot_set x i j _ hi).trans (if_neg hj))
    · left
      simp only [Channel.slot, List.set_eq_of_length_le (Nat.le_of_not_lt hi)]

/-- From s to t the handler of channel c ran, or some part of it. -/
structure Handled (c : Nat) (s t : State) : Prop where
  length : t.chans.length = s.chans.length
  seq : CopyNoted c s.seq t.seq
  chan : SlotsCaptured (s.chan c) (t.chan c)

theorem Handled.refl (c : Nat) (s : State) : Handled c s s := ⟨rfl, .left, .refl _⟩

theorem Handled.trans {c : Nat} {s t u : State} (h : Handled c s t) (k : Handled c t u) : Handled c s u :=
  ⟨k.length.trans h.length, h.seq.trans k.seq, h.chan.trans k.chan⟩

/-- A change of the controller's receive side alone, with an output. -/
theorem handled_modRx (s : State) (c : Nat) (o : Output) (f : RxView → RxView) (hc : c < s.chans.length) :
    Handled c s ((s.emit o).modRx c f) where
  length := by simp [modRx_eq]
  seq := .left
  chan := by
    rw [modRx_eq, chan_modChan_same _ _ _ (by simpa using hc)]
    exact ⟨⟨_, _, rfl⟩, rfl, fun _ => .inl rfl⟩

/-- One arm that reads, when its cause is in the set: the slot it writes and the receive side it leaves. -/
theorem armIf_armRead (s : State) (c : Nat) (src : RxSource) (cause : Bool) (hc : c < s.chans.length)
    (hw : cause = true → ∃ h : HwFrame, (s.chan c).hw.rx.front src = some h ∧ h.whole = true) :
    Handled c s (s.armIf cause (fun t => t.armRead c src)) ∧
      ((s.armIf cause (fun t => t.armRead c src)).chan c).hw.rx =
        if cause then (s.chan c).hw.rx.afterRead src else (s.chan c).hw.rx := by
  unfold State.armIf
  split
  · next hcause =>
    obtain ⟨h, hf, hwhole⟩ := hw hcause
    rw [show (fun t : State => t.armRead c src) s = _ from armRead_eq s c src h hc hf]
    refine ⟨⟨List.length_set .., overwritten_noted .., ?_⟩, ?_⟩
    · rw [chan_set _ _ _ _ _ _ hc]
      exact slotsCaptured_set _ _ _ _ hwhole
    · rw [chan_set _ _ _ _ _ _ hc]
  · exact ⟨.refl c s, rfl⟩

/-- Every dedicated buffer with data presents a whole frame. -/
def dedicatedWhole (ded : List (Option HwFrame)) : Prop :=
  ∀ (k : Nat) (h : HwFrame), ded.getD k none = some h → h.whole = true

theorem dedicatedWhole_set {ded : List (Option HwFrame)} (hd : dedicatedWhole ded) (i : Nat) :
    dedicatedWhole (ded.set i none) := by
  intro k h hk
  refine hd k h ?_
  rw [List.getD_eq_getElem?_getD, List.getElem?_set] at hk
  rw [List.getD_eq_getElem?_getD]
  split at hk
  · split at hk <;> cases hk
  · exact hk

theorem armAllDedicated_handled (c n : Nat) : ∀ (s : State) (k : Nat), c < s.chans.length →
    dedicatedWhole (s.chan c).hw.rx.ded → Handled c s (s.armAllDedicated c k n) := by
  induction n with
  | zero => exact fun s _ _ _ => .refl c s
  | succ n ih =>
    intro s k hc hd
    unfold State.armAllDedicated
    cases hk : (s.chan c).hw.rx.ded.getD k none with
    | none => exact ih s (k + 1) hc hd
    | some h =>
      rw [Option.isSome_some, if_pos rfl]
      have heq := armDedicated_eq s c k h hc hk
      have hchan : (s.armDedicated c k).chan c =
          { s.chan c with
            slots := (s.chan c).slots.set (2 + k) (captured h),
            hw := { (s.chan c).hw with rx := (s.chan c).hw.rx.clearNdat k } } := by
        rw [heq, chan_set _ _ _ _ _ _ hc]
      have hone : Handled c s (s.armDedicated c k) :=
        { length := by rw [heq]; exact List.length_set ..
          seq := by rw [heq]; exact overwritten_noted ..
          chan := by rw [hchan]; exact slotsCaptured_set _ _ _ _ (hd k h hk) }
      refine hone.trans (ih _ (k + 1) (by rw [hone.length]; exact hc) ?_)
      rw [hchan]
      exact dedicatedWhole_set hd k

/-- What a view that raises the interrupt presents at the sources it names (contract K1): whole frames. -/
theorem raises_whole (v : RxView) (n : Nat) (h : v.raises n = true) :
    (v.pending.f0n = true → ∃ f : HwFrame, v.fifo0.head? = some f ∧ f.whole = true) ∧
      (v.pending.f1n = true → ∃ f : HwFrame, v.fifo1.head? = some f ∧ f.whole = true) ∧
      (v.pending.drx = true → dedicatedWhole v.ded) := by
  simp only [RxView.raises, Bool.and_eq_true] at h
  obtain ⟨⟨⟨⟨-, h0⟩, h1⟩, hd⟩, -⟩ := h
  refine ⟨fun hp => ?_, fun hp => ?_, fun hp k f hk => ?_⟩
  · simpa [hp, Option.any_eq_true] using h0
  · simpa [hp, Option.any_eq_true] using h1
  · rw [hp] at hd
    have hall : v.ded.all (fun b => b.all HwFrame.whole) = true := by simp_all
    have hmem : some f ∈ v.ded := by
      rw [List.getD_eq_getElem?_getD] at hk
      cases hg : v.ded[k]? with
      | none => rw [hg] at hk; cases hk
      | some b => rw [hg] at hk; exact hk ▸ List.mem_of_getElem? hg
    simpa using List.all_eq_true.mp hall _ hmem

/-- The whole handler (R221) for a view that raises it. -/
theorem isr_handled (s : State) (c n : Nat) (hc : c < s.chans.length) (hv : (s.chan c).hw.rx.raises n = true) :
    Handled c s (s.isr c) := by
  obtain ⟨h0, h1, hd⟩ := raises_whole _ n hv
  simp only [State.isr]
  generalize hp : (s.chan c).hw.rx.pending = p at h0 h1 hd
  obtain ⟨a1, r1⟩ := armIf_armRead s c .fifo0 p.f0n hc h0
  generalize s.armIf p.f0n (fun t => t.armRead c .fifo0) = s1 at a1 r1
  have hc1 : c < s1.chans.length := a1.length ▸ hc
  have f1 : (s1.chan c).hw.rx.fifo1 = (s.chan c).hw.rx.fifo1 := by rw [r1]; split <;> rfl
  have d1 : (s1.chan c).hw.rx.ded = (s.chan c).hw.rx.ded := by rw [r1]; split <;> rfl
  obtain ⟨a2, r2⟩ := armIf_armRead s1 c .fifo1 p.f1n hc1 (fun e => by simpa only [RxView.front, f1] using h1 e)
  generalize s1.armIf p.f1n (fun t => t.armRead c .fifo1) = s2 at a2 r2
  have hc2 : c < s2.chans.length := a2.length ▸ hc1
  have d2 : (s2.chan c).hw.rx.ded = (s.chan c).hw.rx.ded := by rw [← d1, r2]; split <;> rfl
  have a3 : Handled c s2 (s2.armIf p.drx (fun t => t.armAllDedicated c 0 (t.chan c).hw.rx.ded.length)) := by
    unfold State.armIf
    split
    · next e => exact armAllDedicated_handled c _ s2 0 hc2 (d2 ▸ hd e)
    · exact .refl c s2
  exact ((a1.trans a2).trans a3).trans (handled_modRx _ c _ _ (a3.length ▸ hc2))

/-! ## A command's rule -/

/-- What a command's rule makes of its channel (40_control_commands.md R130 to R134); all other commands leave it. -/
inductive CommandEffect (x : Channel) : Channel → Prop
  | left : CommandEffect x x
  | opened (m : Mode) :
      CommandEffect x (openedChannel { x with ch := { x.ch with cfg := { x.ch.cfg with mode := m } } })
  | closed : CommandEffect x (closedChannel x)
  | bitrate (k : Fin 9) :
      CommandEffect x { x with ch := { x.ch with cfg := { x.ch.cfg with nominalBitrate := baud k } } }
  | dataRate (r : FdRate) :
      CommandEffect x { x with ch := { x.ch with cfg := { x.ch.cfg with dataBitrate := fdRate r } } }
  | timestampFlag (on : Bool) : CommandEffect x { x with ch := x.ch.setTimestampFlag on }

/-- The rule of a command returns an action and changes its channel in one of these ways. -/
theorem CommandRule.effect {i : Instr} (hi : CommandRule i) (s t : State) (hc : s.seq.chan < s.chans.length)
    (h : exec i s = .next t) :
    (∃ a, t.seq = { s.seq with sub := .dispatch a }) ∧ CommandEffect (s.chan s.seq.chan) (t.chan s.seq.chan) := by
  cases hi with
  | opens hx =>
    rw [hx] at h
    cases h
    refine ⟨⟨.ack, by simp⟩, ?_⟩
    rw [act_chan, openOp_chan _ _ _ (by simpa using hc), if_pos rfl, setMode_chan _ _ _ _ hc]
    split
    · exact .opened .normal
    · exact .opened (s.chan s.seq.chan).ch.cfg.mode
  | closes hx =>
    rw [hx] at h
    cases h
    refine ⟨⟨.ack, by simp⟩, ?_⟩
    rw [act_chan, closeOp_chan _ _ _ hc, if_pos rfl]
    exact .closed
  | setsBitrate k hx =>
    rw [hx] at h
    cases h
    refine ⟨⟨.ack, rfl⟩, ?_⟩
    rw [act_chan, modCfg_eq, chan_modChan_same _ _ _ hc]
    exact .bitrate k
  | setsDataRate r hx =>
    rw [hx] at h
    cases h
    refine ⟨⟨.ack, rfl⟩, ?_⟩
    rw [act_chan, modCfg_eq, chan_modChan_same _ _ _ hc]
    exact .dataRate r
  | setsTimestamp on hx =>
    rw [hx] at h
    cases h
    refine ⟨⟨.ack, rfl⟩, ?_⟩
    rw [act_chan, modCh_eq, chan_modChan_same _ _ _ hc]
    exact .timestampFlag on
  | answers a _ hx =>
    rw [hx] at h
    cases h
    exact ⟨⟨a, rfl⟩, .left⟩

/-! ## A turn of `BRIDGE` -/

/-- The sequencer after a pass on one of n channels (46_bridge_loop.md R240). -/
def passEnd (n : Nat) (q : Sequencer) : Sequencer :=
  if q.chan + 1 < n then { chan := q.chan + 1, phase := .p1, slot := 0, sub := .ready } else Sequencer.atRest

theorem endPass_seq (s : State) : s.endPass.seq = passEnd s.chans.length s.seq := by
  unfold State.endPass passEnd
  split <;> rfl

/-- What one turn makes of the sequencer and of the channel it serves, place by place (46_bridge_loop.md R242 to R247,
44_channel_state_machine.md R206). -/
inductive TurnEffect (n : Nat) (q : Sequencer) (x : Channel) : Sequencer → Channel → Prop
  | waits : TurnEffect n q x q x
  | flagFound (hp : q.phase = .p1) (hm : q.sub = .ready) (hi : q.slot < x.slots.length)
      (hf : (x.slot q.slot).flag = true) : TurnEffect n q x { q with sub := .clear } x
  | slotSkipped (hp : q.phase = .p1) (hm : q.sub = .ready) (hi : q.slot < x.slots.length) :
      TurnEffect n q x { q with slot := q.slot + 1, sub := .ready } x
  | slotsDone (hp : q.phase = .p1) (hm : q.sub = .ready) : TurnEffect n q x { q with phase := .p2, sub := .ready } x
  | cleared (hp : q.phase = .p1) (hm : q.sub = .clear) :
      TurnEffect n q x { q with sub := .copy [] } { x with slots := x.slots.set q.slot (x.slot q.slot).clear }
  | copied (earlier : List CanFrame) (d : CopyDraw) (hp : q.phase = .p1) (hm : q.sub = .copy earlier) :
      TurnEffect n q x { q with sub := .encode (copyOut earlier (x.slot q.slot).frame d) } x
  | encoded (g : CanFrame) (out : List Byte) (hp : q.phase = .p1) (hm : q.sub = .encode g) :
      TurnEffect n q x { q with sub := .write out } x
  | written (out : List Byte) (hp : q.phase = .p1) (hm : q.sub = .write out) :
      TurnEffect n q x { q with slot := q.slot + 1, sub := .ready } x
  | byteRead (b : Byte) (rest : List Byte) (hp : q.phase = .p2) (hm : q.sub = .ready)
      (hl : x.lb.length + 1 ≤ Config.lineMax) : TurnEffect n q x q { x with serq := rest, lb := x.lb ++ [b] }
  | lineRead (rest : List Byte) (hp : q.phase = .p2) (hm : q.sub = .ready) :
      TurnEffect n q x { q with sub := .decode } { x with serq := rest }
  | passOver (hp : q.phase = .p2) (hm : q.sub = .ready) (hl : x.lb = []) : TurnEffect n q x (passEnd n q) x
  | decoded (a : Action) (x' : Channel) (hp : q.phase = .p2) (hm : q.sub = .decode) (h : CommandEffect x x') :
      TurnEffect n q x { q with sub := .dispatch a } x'
  | answered (a : Action) (hp : q.phase = .p2) (hm : q.sub = .dispatch a) :
      TurnEffect n q x { q with sub := .ready } { x with lb := [] }
  | issued (f : CanFrame) (hp : q.phase = .p2) (hm : q.sub = .dispatch (.send f)) :
      TurnEffect n q x { q with sub := .txWait } { x with hw := { x.hw with txBusy := true } }
  | transmitted (hp : q.phase = .p2) (hm : q.sub = .txWait) (hb : x.hw.txBusy = false) :
      TurnEffect n q x { q with sub := .ready } { x with lb := [] }

/-- From s to t a turn ran on the channel the sequencer of s serves. -/
def TurnTo (s t : State) : Prop := TurnEffect s.chans.length s.seq (s.chan s.seq.chan) t.seq (t.chan s.seq.chan)

theorem p1Test_turn (s : State) (hp : s.seq.phase = .p1) (hm : s.seq.sub = .ready) : TurnTo s s.p1Test := by
  unfold State.p1Test State.nSlots
  split
  · next hi =>
    split
    · next hf => exact .flagFound hp hm hi hf
    · exact .slotSkipped hp hm hi
  · exact .slotsDone hp hm

theorem p1Clear_turn (s : State) (hc : s.seq.chan < s.chans.length) (hp : s.seq.phase = .p1) (hm : s.seq.sub = .clear) :
    TurnTo s s.p1Clear := by
  unfold TurnTo State.p1Clear
  rw [withSub_chan, modSlot_eq, chan_modChan_same _ _ _ hc]
  exact .cleared hp hm

theorem p1Encode_turn (s t : State) (g : CanFrame) (hp : s.seq.phase = .p1) (hm : s.seq.sub = .encode g)
    (h : s.p1Encode g = .next t) : TurnTo s t := by
  unfold State.p1Encode at h
  split at h
  · cases h
  · next i hi =>
    rw [exec_rxInstr g i hi] at h
    obtain ⟨-, rfl⟩ := encodeRx_next s t g h
    exact .encoded g _ hp hm

theorem p1Write_turn (s : State) (out : List Byte) (hp : s.seq.phase = .p1) (hm : s.seq.sub = .write out) :
    TurnTo s (s.p1Write out) := by
  have hseq : (s.p1Write out).seq = { s.seq with slot := s.seq.slot + 1, sub := .ready } := by
    simp [State.p1Write, State.nextSlot]
  have hchan : (s.p1Write out).chan s.seq.chan = s.chan s.seq.chan := by simp [State.p1Write, State.nextSlot]
  unfold TurnTo
  rw [hseq, hchan]
  exact .written out hp hm

theorem phase1Turn_turn (s t : State) (d : CopyDraw) (hc : s.seq.chan < s.chans.length) (hp : s.seq.phase = .p1)
    (h : s.phase1Turn d = .next t) : TurnTo s t := by
  unfold State.phase1Turn at h
  split at h
  · next hm => cases h; exact p1Test_turn s hp hm
  · next hm => cases h; exact p1Clear_turn s hc hp hm
  · next earlier hm => cases h; exact .copied earlier d hp hm
  · next g hm => exact p1Encode_turn s t g hp hm h
  · next out hm => cases h; exact p1Write_turn s out hp hm
  all_goals cases h; exact .waits

theorem p2Read_turn (s t : State) (hc : s.seq.chan < s.chans.length) (hp : s.seq.phase = .p2) (hm : s.seq.sub = .ready)
    (h : s.p2Read = .next t) : TurnTo s t := by
  unfold State.p2Read at h
  unfold TurnTo
  split at h
  · next b rest _ =>
    split at h
    · cases h
      rw [withSub_chan, setSerq_eq, chan_modChan_same _ _ _ hc]
      exact TurnEffect.lineRead rest hp hm
    · split at h
      · next hfit =>
        cases h
        rw [setLb_eq, setSerq_eq, modChan_modChan _ _ _ _ hc, chan_modChan_same _ _ _ hc]
        exact .byteRead b rest hp hm ((fitsLine_iff _).mp hfit)
      · cases h
  · next _ hlb =>
    cases h
    rw [endPass_seq, endPass_chan]
    exact .passOver hp hm hlb
  · cases h
    exact .waits

theorem p2Decode_turn (s t : State) (hc : s.seq.chan < s.chans.length) (hp : s.seq.phase = .p2)
    (hm : s.seq.sub = .decode) (h : s.p2Decode = .next t) : TurnTo s t := by
  unfold State.p2Decode at h
  split at h
  · next i hi =>
    obtain ⟨⟨a, hseq⟩, hx⟩ := (decode_rule _ i hi).effect s t hc h
    unfold TurnTo
    rw [hseq]
    exact .decoded a _ hp hm hx
  · cases h

theorem endCommand_chan (s : State) (c : Nat) (hq : s.seq.chan = c) (hc : c < s.chans.length) :
    s.endCommand.chan c = { s.chan c with lb := [] } := by
  unfold State.endCommand
  rw [withSub_chan, hq, setLb_eq, chan_modChan_same _ _ _ hc]

theorem endCommand_seq (s : State) : s.endCommand.seq = { s.seq with sub := .ready } := rfl

theorem p2Dispatch_turn (s : State) (a : Action) (hc : s.seq.chan < s.chans.length) (hp : s.seq.phase = .p2)
    (hm : s.seq.sub = .dispatch a) : TurnTo s (s.p2Dispatch a) := by
  have hanswer : ∀ bytes, TurnTo s (s.reply s.seq.chan bytes).endCommand := by
    intro bytes
    unfold TurnTo
    rw [endCommand_chan _ _ (by simp) (by simpa using hc), endCommand_seq, reply_seq, reply_chan]
    exact .answered a hp hm
  unfold State.p2Dispatch
  cases a with
  | ack => exact hanswer _
  | nack => exact hanswer _
  | reply bytes => exact hanswer _
  | send f =>
    unfold TurnTo State.txIssue
    rw [withSub_chan, modHw_eq, chan_modChan_same _ _ _ (by simpa using hc)]
    exact .issued f hp hm

theorem p2TxWait_turn (s : State) (hc : s.seq.chan < s.chans.length) (hp : s.seq.phase = .p2)
    (hm : s.seq.sub = .txWait) : TurnTo s s.p2TxWait := by
  unfold State.p2TxWait
  split
  · exact .waits
  · next hb =>
    rw [show ackAfterSend = false from rfl]
    unfold TurnTo
    rw [if_neg Bool.false_ne_true, endCommand_chan _ _ rfl hc]
    exact .transmitted hp hm (by simpa using hb)

theorem phase2Turn_turn (s t : State) (hc : s.seq.chan < s.chans.length) (hp : s.seq.phase = .p2)
    (h : s.phase2Turn = .next t) : TurnTo s t := by
  unfold State.phase2Turn at h
  split at h
  · next hm => exact p2Read_turn s t hc hp hm h
  · next hm => exact p2Decode_turn s t hc hp hm h
  · next a hm => cases h; exact p2Dispatch_turn s a hc hp hm
  · next hm => cases h; exact p2TxWait_turn s hc hp hm
  all_goals cases h; exact .waits

theorem bridgeTurn_turn (s t : State) (d : CopyDraw) (hc : s.seq.chan < s.chans.length)
    (h : s.bridgeTurn d = .next t) : TurnTo s t := by
  unfold State.bridgeTurn at h
  rw [if_pos hc] at h
  split at h
  · cases h; exact .waits
  · next hp => exact phase1Turn_turn s t d hc hp h
  · next hp => exact phase2Turn_turn s t hc hp h

/-! ## Every event -/

/-- What an event of channel c makes of the sequencer and of that channel, n channels being configured. -/
inductive EventEffect (n c : Nat) (q : Sequencer) (x : Channel) : Event → Sequencer → Channel → Prop
  | ignored (e : Event) : EventEffect n c q x e q x
  | serIn (b : Byte) : EventEffect n c q x (.serIn c b) q { x with serq := x.serq ++ [b] }
  | canRx (v : RxView) (q' : Sequencer) (x' : Channel) (hi : x.hw.irqEn = true) (hq : CopyNoted c q q')
      (hx : SlotsCaptured x x') : EventEffect n c q x (.canRx c v) q' x'
  | txDone : EventEffect n c q x (.txDone c) q { x with hw := { x.hw with txBusy := false } }
  | busy (b : Bool) : EventEffect n c q x (.busy c b) q { x with busy := b }
  | tick (hf : x.ch.flags.timestamp = true) :
      EventEffect n c q x (.tick c) q { x with ch := { x.ch with timestamp := x.ch.timestamp + 1 } }
  | lineTimeout (hq : q.chan = c) (hp : q.phase = .p2) (hm : q.sub = .ready) :
      EventEffect n c q x (.lineTimeout c) (passEnd n q) { x with lb := [] }
  | setMode (m : Mode) (ho : x.ch.isOpen = false) :
      EventEffect n c q x (.setMode c m) q { x with ch := { x.ch with cfg := { x.ch.cfg with mode := m } } }
  | bridge (d : CopyDraw) (q' : Sequencer) (x' : Channel) (hq : q.chan = c) (h : TurnEffect n q x q' x') :
      EventEffect n c q x (.bridge d) q' x'

theorem onCanRx_effect (s : State) (c : Nat) (v : RxView) (hc : c < s.chans.length) :
    EventEffect s.chans.length c s.seq (s.chan c) (.canRx c v) (s.onCanRx c v).seq ((s.onCanRx c v).chan c) := by
  unfold State.onCanRx
  split
  · next hen =>
    obtain ⟨hi, hr⟩ := Bool.and_eq_true_iff.mp hen
    have hview : (s.modRx c (fun _ => v)).chan c = { s.chan c with hw := { (s.chan c).hw with rx := v } } := by
      rw [modRx_eq, chan_modChan_same _ _ _ hc]
    have hran := isr_handled (s.modRx c (fun _ => v)) c _ (by simpa [modRx_eq] using hc) (by rw [hview]; exact hr)
    have hall : SlotsCaptured (s.chan c) ((s.modRx c (fun _ => v)).chan c) := by
      rw [hview]
      exact ⟨⟨_, _, rfl⟩, rfl, fun _ => .inl rfl⟩
    exact .canRx v _ _ hi hran.seq (hall.trans hran.chan)
  · exact .ignored _

theorem onLineTimeout_effect (s : State) (c : Nat) (hc : c < s.chans.length) :
    EventEffect s.chans.length c s.seq (s.chan c) (.lineTimeout c) (s.onLineTimeout c).seq
      ((s.onLineTimeout c).chan c) := by
  unfold State.onLineTimeout
  split
  · next hw =>
    simp only [State.readWaits, Bool.and_eq_true, decide_eq_true_eq] at hw
    obtain ⟨⟨⟨⟨hq, hp⟩, hm⟩, -⟩, -⟩ := hw
    rw [endPass_seq, endPass_chan, setLb_eq, chan_modChan_same _ _ _ hc, modChan_length]
    exact .lineTimeout hq hp hm
  · exact .ignored _

theorem setMode_effect (s : State) (c : Nat) (m : Mode) (hc : c < s.chans.length) :
    EventEffect s.chans.length c s.seq (s.chan c) (.setMode c m) (s.setMode c m).seq ((s.setMode c m).chan c) := by
  rw [setMode_seq, setMode_chan s c c m hc]
  split
  · next ho => exact .setMode m ho.2
  · exact .ignored _

/-- Every event does one of these to a configured channel it acts on. -/
theorem takeEvent_effect {s t : State} {c : Nat} (e : Event) (hc : c < s.chans.length) (he : s.eventChannel e = some c)
    (h : takeEvent e s = .next t) : EventEffect s.chans.length c s.seq (s.chan c) e t.seq (t.chan c) := by
  have hon : ∀ f, s.onChannel c f = f s := fun f => onChannel_of_lt s c f hc
  cases e with
  | sched => cases he
  | bridge d =>
    cases he
    exact .bridge d _ _ rfl (bridgeTurn_turn s t d hc h)
  | serIn c' b =>
    cases he; cases h
    rw [hon, setSerq_eq, chan_modChan_same _ _ _ hc]
    exact .serIn b
  | canRx c' v =>
    cases he; cases h
    rw [hon]
    exact onCanRx_effect s c v hc
  | txDone c' =>
    cases he; cases h
    rw [hon, State.onTxDone]
    split
    · rw [modHw_eq, chan_modChan_same _ _ _ hc]
      exact .txDone
    · exact .ignored _
  | busy c' b =>
    cases he; cases h
    rw [hon, chan_modChan_same _ _ _ hc]
    exact .busy b
  | tick c' =>
    cases he; cases h
    rw [hon, modCh_eq, chan_modChan_same _ _ _ hc, ChannelState.tick]
    split
    · next hf => exact .tick hf
    · exact .ignored _
  | lineTimeout c' =>
    cases he; cases h
    rw [hon]
    exact onLineTimeout_effect s c hc
  | setMode c' m =>
    cases he; cases h
    rw [hon]
    exact setMode_effect s c m hc

/-- A step leaves a channel as it was, or takes an event of that channel, with its effect. -/
theorem step_chan (s t : State) (c : Nat) (h : step s = .next t) :
    t.chan c = s.chan c ∨
      ∃ e rest, s.sched = e :: rest ∧ EventEffect s.chans.length c s.seq (s.chan c) e t.seq (t.chan c) := by
  cases hs : s.sched with
  | nil =>
    rw [step_nil s hs] at h
    cases h
    exact .inl rfl
  | cons e rest =>
    rw [step_cons s e rest hs] at h
    by_cases he : s.eventChannel e = some c
    · by_cases hc : c < s.chans.length
      · exact .inr ⟨e, rest, rfl, takeEvent_effect (s := { s with sched := rest }) e hc he h⟩
      · rw [eq_of_outOfRange (s := { s with sched := rest }) hc he h]
        exact .inl rfl
    · obtain ⟨-, -, hothers, -⟩ := takeEvent_frame e h
      exact .inl (hothers c he)

end Sys2Proof.Machine
end

section
/-! PROOFS. Who writes what (10_state.md R21, R25, R28, R29, R37; 60_exceptions.md R284), read off the effects of a step. -/

namespace Sys2Proof.Machine

open Sys2Proof

/-! ## Control registers and slots through each effect -/

@[simp] theorem withDefaultRate_fdEnable (g : ChannelConfig) : g.withDefaultRate.fdEnable = g.fdEnable := by
  unfold ChannelConfig.withDefaultRate
  split <;> rfl

/-- The registers no command writes: the identity, FD enable and the counter (10_state.md R21, R25, R28). -/
structure SameFixed (a b : ChannelState) : Prop where
  index : b.index = a.index
  hwHandle : b.hwHandle = a.hwHandle
  irqVector : b.irqVector = a.irqVector
  fdEnable : b.cfg.fdEnable = a.cfg.fdEnable
  timestamp : b.timestamp = a.timestamp

theorem CommandEffect.sameFixed {x x' : Channel} (h : CommandEffect x x') : SameFixed x.ch x'.ch := by
  cases h with
  | opened m => exact ⟨rfl, rfl, rfl, withDefaultRate_fdEnable _, rfl⟩
  | _ => exact ⟨rfl, rfl, rfl, rfl, rfl⟩

/-- No command writes a slot. -/
theorem CommandEffect.slots {x x' : Channel} (h : CommandEffect x x') : x'.slots = x.slots := by
  cases h <;> rfl

/-- A turn writes the control registers by a command's rule only. -/
theorem TurnEffect.ch {n : Nat} {q q' : Sequencer} {x x' : Channel} (h : TurnEffect n q x q' x') :
    x'.ch = x.ch ∨ q.phase = .p2 ∧ q.sub = .decode ∧ CommandEffect x x' := by
  cases h with
  | decoded a _ hp hm hx => exact .inr ⟨hp, hm, hx⟩
  | _ => exact .inl rfl

/-- A turn writes the slots by step b of phase 1 only (46_bridge_loop.md R242). -/
theorem TurnEffect.slots {n : Nat} {q q' : Sequencer} {x x' : Channel} (h : TurnEffect n q x q' x') :
    x'.slots = x.slots ∨
      q.phase = .p1 ∧ q.sub = .clear ∧ x'.slots = x.slots.set q.slot (x.slot q.slot).clear := by
  cases h with
  | cleared hp hm => exact .inr ⟨hp, hm, rfl⟩
  | decoded a _ _ _ hx => exact .inl hx.slots
  | _ => exact .inl rfl

/-- The handler writes no control register. -/
theorem SlotsCaptured.ch {x x' : Channel} (h : SlotsCaptured x x') : x'.ch = x.ch := by
  obtain ⟨slots, rx, rfl⟩ := h.rest
  rfl

/-- What an event does to the control registers: nothing, the tick, Set mode, or a command's rule. -/
theorem EventEffect.ch {n c : Nat} {q q' : Sequencer} {x x' : Channel} {e : Event} (h : EventEffect n c q x e q' x') :
    x'.ch = x.ch ∨
      (e = .tick c ∧ x.ch.flags.timestamp = true ∧ x'.ch = { x.ch with timestamp := x.ch.timestamp + 1 }) ∨
      (∃ m, e = .setMode c m ∧ x.ch.isOpen = false ∧ x'.ch = { x.ch with cfg := { x.ch.cfg with mode := m } }) ∨
      ((∃ d, e = .bridge d) ∧ q.chan = c ∧ q.phase = .p2 ∧ q.sub = .decode ∧ CommandEffect x x') := by
  cases h with
  | canRx v _ _ _ _ hx => exact .inl hx.ch
  | tick hf => exact .inr (.inl ⟨rfl, hf, rfl⟩)
  | setMode m ho => exact .inr (.inr (.inl ⟨m, rfl, ho, rfl⟩))
  | bridge d _ _ hq hturn =>
    rcases hturn.ch with hch | ⟨hp, hm, hx⟩
    · exact .inl hch
    · exact .inr (.inr (.inr ⟨⟨d, rfl⟩, hq, hp, hm, hx⟩))
  | _ => exact .inl rfl

/-- What an event does to the slots: nothing, the handler, or step b of phase 1. -/
theorem EventEffect.slots {n c : Nat} {q q' : Sequencer} {x x' : Channel} {e : Event}
    (h : EventEffect n c q x e q' x') :
    x'.slots = x.slots ∨
      ((∃ v, e = .canRx c v) ∧ x.hw.irqEn = true ∧ SlotsCaptured x x') ∨
      ((∃ d, e = .bridge d) ∧ q.chan = c ∧ q.phase = .p1 ∧ q.sub = .clear ∧
        x'.slots = x.slots.set q.slot (x.slot q.slot).clear) := by
  cases h with
  | canRx v _ _ hi _ hx => exact .inr (.inl ⟨⟨v, rfl⟩, hi, hx⟩)
  | bridge d _ _ hq hturn =>
    rcases hturn.slots with hs | ⟨hp, hm, hs⟩
    · exact .inl hs
    · exact .inr (.inr ⟨⟨d, rfl⟩, hq, hp, hm, hs⟩)
  | _ => exact .inl rfl

/-- A slot of a channel is read off its list of slots. -/
theorem slot_congr {x y : Channel} (h : y.slots = x.slots) (i : Nat) : y.slot i = x.slot i := by
  unfold Channel.slot
  rw [h]

/-- Clearing slot j's flag leaves every slot as it was, but for that flag. -/
theorem slot_cleared {x y : Channel} {j : Nat} (h : y.slots = x.slots.set j (x.slot j).clear) (i : Nat) :
    y.slot i = x.slot i ∨ i = j ∧ y.slot i = (x.slot i).clear := by
  by_cases hj : j < x.slots.length
  · have hy : y.slot i = if i = j then (x.slot j).clear else x.slot i := (slot_congr h i).trans (slot_set x j i _ hj)
    by_cases hi : i = j
    · subst hi; exact .inr ⟨rfl, hy.trans (if_pos rfl)⟩
    · exact .inl (hy.trans (if_neg hi))
  · exact .inl (slot_congr (h.trans (List.set_eq_of_length_le (Nat.le_of_not_lt hj))) i)

/-- What a step does to the control registers of channel c. -/
theorem step_ch (s t : State) (c : Nat) (h : step s = .next t) :
    (t.chan c).ch = (s.chan c).ch ∨
      ((∃ rest, s.sched = .tick c :: rest) ∧ (s.chan c).ch.flags.timestamp = true ∧
        (t.chan c).ch = { (s.chan c).ch with timestamp := (s.chan c).ch.timestamp + 1 }) ∨
      (∃ m, (∃ rest, s.sched = .setMode c m :: rest) ∧ (s.chan c).ch.isOpen = false ∧
        (t.chan c).ch = { (s.chan c).ch with cfg := { (s.chan c).ch.cfg with mode := m } }) ∨
      ((∃ d rest, s.sched = .bridge d :: rest) ∧ s.seq.chan = c ∧ s.seq.phase = .p2 ∧ s.seq.sub = .decode ∧
        CommandEffect (s.chan c) (t.chan c)) := by
  rcases step_chan s t c h with heq | ⟨e, rest, hs, heff⟩
  · exact .inl (by rw [heq])
  · rcases heff.ch with heq | ⟨rfl, hf, heq⟩ | ⟨m, rfl, ho, heq⟩ | ⟨⟨d, rfl⟩, hplace⟩
    · exact .inl heq
    · exact .inr (.inl ⟨⟨rest, hs⟩, hf, heq⟩)
    · exact .inr (.inr (.inl ⟨m, ⟨rest, hs⟩, ho, heq⟩))
    · exact .inr (.inr (.inr ⟨⟨d, rest, hs⟩, hplace⟩))

/-- What a step does to slot i of channel c: nothing, a capture by the handler, or the clear of step b. -/
theorem step_slot (s t : State) (c i : Nat) (h : step s = .next t) :
    (t.chan c).slot i = (s.chan c).slot i ∨
      (∃ v rest, s.sched = .canRx c v :: rest ∧ (s.chan c).hw.irqEn = true) ∧ (∃ f, (t.chan c).slot i = captured f) ∨
      ((∃ d rest, s.sched = .bridge d :: rest) ∧ s.seq.chan = c ∧ s.seq.phase = .p1 ∧ s.seq.sub = .clear ∧
        s.seq.slot = i) ∧ (t.chan c).slot i = ((s.chan c).slot i).clear := by
  rcases step_chan s t c h with heq | ⟨e, rest, hs, heff⟩
  · exact .inl (by rw [heq])
  · rcases heff.slots with heq | ⟨⟨v, rfl⟩, hi, hx⟩ | ⟨⟨d, rfl⟩, hq, hp, hm, hset⟩
    · exact .inl (slot_congr heq i)
    · exact (hx.slot i).imp_right (fun ⟨f, _, heq⟩ => .inl ⟨⟨v, rest, hs, hi⟩, f, heq⟩)
    · exact (slot_cleared hset i).imp_right (fun ⟨hi, heq⟩ => .inr ⟨⟨⟨d, rest, hs⟩, hq, hp, hm, hi.symm⟩, heq⟩)

/-! ## The obligations -/

/-- Settles O54: the handler's capture sets the flag, the clear of step b keeps the frame. -/
theorem slotOwnership : Obligations.SlotOwnership := by
  unfold Obligations.SlotOwnership
  intro s t c i hstep
  rcases step_slot s t c i hstep with heq | ⟨hrx, f, heq⟩ | ⟨hclear, heq⟩
  · rw [heq]; exact ⟨fun hw => by simp at hw, fun hw => by simp at hw⟩
  · exact ⟨fun _ => hrx, fun hw => by simp [heq, captured] at hw⟩
  · exact ⟨fun hw => by simp [heq] at hw, fun _ => hclear⟩

/-- Settles O55: of the three writers of the control registers, only a command's rule and Set mode reach the
configuration or the flags, and none reaches the identity or FD enable. -/
theorem controlStateWriters : Obligations.ControlStateWriters := by
  unfold Obligations.ControlStateWriters
  intro s t c hstep
  rcases step_ch s t c hstep with heq | ⟨-, -, heq⟩ | ⟨m, ⟨rest, hs⟩, ho, heq⟩ | ⟨hd, hq, hp, hm, hx⟩
  · rw [heq]; exact ⟨⟨rfl, rfl, rfl, rfl⟩, fun hw => by simp at hw⟩
  · rw [heq]; exact ⟨⟨rfl, rfl, rfl, rfl⟩, fun hw => by simp at hw⟩
  · rw [heq]; exact ⟨⟨rfl, rfl, rfl, rfl⟩, fun _ => .inr ⟨m, rest, hs, ho⟩⟩
  · have hfix := hx.sameFixed
    exact ⟨⟨hfix.index, hfix.hwHandle, hfix.irqVector, hfix.fdEnable⟩, fun _ => .inl ⟨hd, hq, hp, hm⟩⟩

/-- Settles O56: of the three writers of the control registers, only the tick reaches the counter. -/
theorem timestampOnlyByTick : Obligations.TimestampOnlyByTick := by
  unfold Obligations.TimestampOnlyByTick
  intro s t c hstep hne
  rcases step_ch s t c hstep with heq | ⟨htick, hf, heq⟩ | ⟨m, -, -, heq⟩ | ⟨-, -, -, -, hx⟩
  · exact absurd (by rw [heq]) hne
  · exact ⟨htick, hf, by rw [heq]⟩
  · exact absurd (by rw [heq]) hne
  · exact absurd hx.sameFixed.timestamp hne

end Sys2Proof.Machine
end

section
/-! PROOFS. Every step keeps the invariant: channel by channel, from the effect of the event on the channel it acts on. -/

namespace Sys2Proof.Machine

open Sys2Proof

/-! ## The invariant, channel by channel -/

/-- What the invariant says of channel d while the sequencer stands at q. -/
structure PlaceInv (q : Sequencer) (d : Nat) (x : Channel) : Prop where
  channel : ChannelInv d x
  sequencer : q.chan = d → sequencerInv q x
  lbEmpty : ¬ inCommand q d → x.lb = []
  txBusyWaits : x.hw.txBusy = true → inCommand q d ∧ q.sub = .txWait

/-- The sequencer names a configured channel, and a slot to test up to `N_SLOTS` (10_state.md R39). -/
def InRange (n : Nat) (q : Sequencer) : Prop := q.chan < n ∧ q.slot ≤ Config.nSlots

theorem inv_iff (s : State) : s.Inv ↔ s.chans.length = Config.nCh ∧ InRange s.chans.length s.seq ∧
    ∀ d, d < s.chans.length → PlaceInv s.seq d (s.chan d) := by
  constructor
  · rintro ⟨hcount, hrange, hchan, hseq, hlb, htx⟩
    exact ⟨hcount, hrange, fun d hd => ⟨hchan d hd, fun e => e ▸ hseq, hlb d hd, htx d hd⟩⟩
  · rintro ⟨hcount, hrange, hplace⟩
    exact
      { chanCount := hcount
        inRange := hrange
        channels := fun d hd => (hplace d hd).channel
        sequencer := (hplace _ hrange.1).sequencer rfl
        lbEmpty := fun d hd => (hplace d hd).lbEmpty
        txBusyWaits := fun d hd => (hplace d hd).txBusyWaits }

/-- A channel keeps its invariant through a change of queue, line buffer within its capacity, transport, transmit or
receive side. -/
theorem ChannelInv.congr {d : Nat} {x x' : Channel} (h : ChannelInv d x) (hch : x'.ch = x.ch)
    (hslots : x'.slots = x.slots) (hen : x'.hw.enabled = x.hw.enabled) (hirq : x'.hw.irqEn = x.hw.irqEn) (hlb : x'.lb.length ≤ Config.lineMax) :
    ChannelInv d x' where
  identity := hch ▸ h.identity
  slotCount := hslots ▸ h.slotCount
  fdEnabled := hch ▸ h.fdEnabled
  openAgrees := by rw [hch, hen, hirq]; exact h.openAgrees
  rates := hch ▸ h.rates
  lineFits := hlb
  flaggedSized i := by rw [slot_congr hslots]; exact h.flaggedSized i

/-! ## Commands -/

theorem withDefaultRate_legal (g : ChannelConfig) (h : legalNominal g.nominalBitrate) :
    legalNominal g.withDefaultRate.nominalBitrate := by
  unfold ChannelConfig.withDefaultRate
  split
  · exact .inr (show 500000#32 ∈ baudTable by decide)
  · exact h

@[simp] theorem withDefaultRate_dataBitrate (g : ChannelConfig) : g.withDefaultRate.dataBitrate = g.dataBitrate := by
  unfold ChannelConfig.withDefaultRate
  split <;> rfl

theorem baud_legal (k : Fin 9) : legalNominal (baud k) := by
  refine .inr ?_
  revert k
  decide

/-- A command's rule keeps its channel's invariant: it stores legal rates only and sets `is_open` with the controller. -/
theorem CommandEffect.keeps {d : Nat} {x x' : Channel} (h : CommandEffect x x') (hx : ChannelInv d x) :
    ChannelInv d x' := by
  cases h with
  | left => exact hx
  | opened m =>
    exact { hx with
      fdEnabled := (withDefaultRate_fdEnable _).trans hx.fdEnabled
      openAgrees := ⟨rfl, rfl⟩
      rates := ⟨withDefaultRate_legal _ hx.rates.1, by
        simpa only [openedChannel, withDefaultRate_dataBitrate] using hx.rates.2⟩
      flaggedSized := hx.flaggedSized }
  | closed => exact { hx with openAgrees := ⟨rfl, rfl⟩, flaggedSized := hx.flaggedSized }
  | bitrate k => exact { hx with rates := ⟨baud_legal k, hx.rates.2⟩, flaggedSized := hx.flaggedSized }
  | dataRate r => exact { hx with rates := ⟨hx.rates.1, .inr ⟨r, rfl⟩⟩, flaggedSized := hx.flaggedSized }
  | timestampFlag on => exact { hx with flaggedSized := hx.flaggedSized }

theorem CommandEffect.txBusy {x x' : Channel} (h : CommandEffect x x') : x'.hw.txBusy = x.hw.txBusy := by
  cases h <;> rfl

/-! ## The handler -/

/-- A whole hardware frame becomes a frame with the payload its DLC announces (20_memory.md R71 G1). -/
theorem captured_sized (h : HwFrame) (hw : h.whole = true) : frameSized (captured h).frame = true := by
  have hlen : h.len ≤ h.payload.length := of_decide_eq_true hw
  exact decide_eq_true ((List.length_take ..).trans (Nat.min_eq_left hlen))

theorem SlotsCaptured.keeps {d : Nat} {x x' : Channel} (h : SlotsCaptured x x') (hx : ChannelInv d x) :
    ChannelInv d x' := by
  have hslot := h.slot
  have hcount := h.count
  obtain ⟨slots, rx, rfl⟩ := h.rest
  refine { hx with slotCount := hcount.trans hx.slotCount, flaggedSized := fun i hi => ?_ }
  rcases hslot i with e | ⟨f, hw, e⟩
  · rw [e] at hi ⊢; exact hx.flaggedSized i hi
  · rw [e]; exact captured_sized f hw

/-- The place of `BRIDGE` still fits the slots after the handler ran: a flag found set stays set, and the frame under a
copy-out stays one the handler or the slot held. -/
theorem sequencerInv_handled {c : Nat} {q q' : Sequencer} {x x' : Channel} (hq : CopyNoted c q q')
    (hx : SlotsCaptured x x') (h : sequencerInv q x) : sequencerInv q' x' := by
  have hflag : ∀ i, (x.slot i).flag = true → (x'.slot i).flag = true := by
    intro i hi
    rcases hx.slot i with e | ⟨f, -, e⟩ <;> rw [e]
    · exact hi
    · rfl
  have hsized : ∀ i, frameSized (x.slot i).frame = true → frameSized (x'.slot i).frame = true := by
    intro i hi
    rcases hx.slot i with e | ⟨f, hw, e⟩ <;> rw [e]
    · exact hi
    · exact captured_sized f hw
  cases hq with
  | left =>
    unfold sequencerInv at h ⊢
    rw [hx.count]
    split at h
    · exact h
    · split at h
      · trivial
      · exact h.imp_right (hflag _)
      · exact h.imp_right (hsized _)
      all_goals exact h
    · split at h <;> exact h
  | noted old new hc hp hm =>
    simp only [sequencerInv, hp, hm] at h ⊢
    rw [hx.count]
    exact h.imp_right (hsized _)

theorem inCommand_noted {c d : Nat} {q q' : Sequencer} (h : CopyNoted c q q') : inCommand q' d ↔ inCommand q d := by
  cases h <;> rfl

theorem SlotsCaptured.keepsPlace {c : Nat} {q q' : Sequencer} {x x' : Channel} (hx : SlotsCaptured x x')
    (hq : CopyNoted c q q') (h : PlaceInv q c x) : PlaceInv q' c x' where
  channel := hx.keeps h.channel
  sequencer e := by
    refine sequencerInv_handled hq hx (h.sequencer ?_)
    cases hq <;> exact e
  lbEmpty hn := by
    obtain ⟨slots, rx, rfl⟩ := hx.rest
    exact h.lbEmpty (fun hin => hn ((inCommand_noted hq).mpr hin))
  txBusyWaits hb := by
    obtain ⟨slots, rx, rfl⟩ := hx.rest
    obtain ⟨hin, hm⟩ := h.txBusyWaits hb
    cases hq with
    | left => exact ⟨hin, hm⟩
    | noted old new hc hp hm' => rw [hm'] at hm; cases hm

/-! ## A turn -/

/-- The next pass starts at the top of a phase, where nothing is asked of the channel. -/
theorem sequencerInv_passEnd (n : Nat) (q : Sequencer) (x : Channel) : sequencerInv (passEnd n q) x := by
  unfold passEnd
  split
  · trivial
  · rfl

/-- A channel with an empty line buffer and no transmit in flight is fit for the next pass. -/
theorem placeInv_passEnd {n d : Nat} {q : Sequencer} {x : Channel} (h : ChannelInv d x) (hlb : x.lb = [])
    (hb : x.hw.txBusy = false) : PlaceInv (passEnd n q) d x where
  channel := h
  sequencer _ := sequencerInv_passEnd n q x
  lbEmpty _ := hlb
  txBusyWaits e := by rw [hb] at e; cases e

/-- No transmit is in flight while `BRIDGE` is at another micro-step than the wait. -/
theorem PlaceInv.notBusy {q : Sequencer} {d : Nat} {x : Channel} (h : PlaceInv q d x) (hm : q.sub ≠ .txWait) :
    x.hw.txBusy = false := by
  by_contra hb
  exact hm (h.txBusyWaits (by simpa using hb)).2

/-- In phase 1 nothing of a line is held. -/
theorem PlaceInv.lbEmpty_of_p1 {q : Sequencer} {d : Nat} {x : Channel} (h : PlaceInv q d x) (hp : q.phase = .p1) :
    x.lb = [] :=
  h.lbEmpty (fun hin => by rw [hin.1] at hp; cases hp)

/-- Moves within the pass of channel d: what is left to show once the channel's own invariant is known. -/
theorem placeInv_of_notBusy {q : Sequencer} {d : Nat} {x : Channel} (h : ChannelInv d x) (hseq : sequencerInv q x)
    (hlb : ¬ inCommand q d → x.lb = []) (hb : x.hw.txBusy = false) : PlaceInv q d x where
  channel := h
  sequencer _ := hseq
  lbEmpty := hlb
  txBusyWaits e := by rw [hb] at e; cases e

theorem TurnEffect.keeps {n : Nat} {q q' : Sequencer} {x x' : Channel} (h : TurnEffect n q x q' x')
    (hx : PlaceInv q q.chan x) : PlaceInv q' q.chan x' := by
  have hinv := hx.channel
  have hseq := hx.sequencer rfl
  cases h with
  | waits => exact hx
  | flagFound hp hm hi hf =>
    refine placeInv_of_notBusy hinv ?_ (fun _ => hx.lbEmpty_of_p1 hp) (hx.notBusy (by simp [hm]))
    simp only [sequencerInv, hp]
    exact ⟨hi, hf⟩
  | slotSkipped hp hm hi =>
    refine placeInv_of_notBusy hinv ?_ (fun _ => hx.lbEmpty_of_p1 hp) (hx.notBusy (by simp [hm]))
    simp only [sequencerInv, hp]
  | slotsDone hp hm =>
    exact placeInv_of_notBusy hinv trivial (fun _ => hx.lbEmpty_of_p1 hp) (hx.notBusy (by simp [hm]))
  | cleared hp hm =>
    simp only [sequencerInv, hp, hm] at hseq
    obtain ⟨hi, hf⟩ := hseq
    have hcleared := fun i => slot_cleared (y := { x with slots := x.slots.set q.slot (x.slot q.slot).clear }) rfl i
    refine placeInv_of_notBusy ?_ ?_ (fun _ => hx.lbEmpty_of_p1 hp) (hx.notBusy (by simp [hm]))
    · refine { hinv with slotCount := (List.length_set ..).trans hinv.slotCount, flaggedSized := fun i hfi => ?_ }
      rcases hcleared i with e | ⟨-, e⟩
      · rw [e] at hfi ⊢; exact hinv.flaggedSized i hfi
      · rw [e] at hfi; cases hfi
    · simp only [sequencerInv, hp]
      refine ⟨hi.trans_eq (List.length_set ..).symm, ?_⟩
      rcases hcleared q.slot with e | ⟨-, e⟩ <;> rw [e] <;> exact hinv.flaggedSized _ hf
  | copied earlier d hp hm =>
    simp only [sequencerInv, hp, hm] at hseq
    refine placeInv_of_notBusy hinv ?_ (fun _ => hx.lbEmpty_of_p1 hp) (hx.notBusy (by simp [hm]))
    simp only [sequencerInv, hp]
    refine ⟨hseq.1, ?_⟩
    cases earlier with
    | nil => exact hseq.2
    | cons f fs => exact tornCopy_sized _ d
  | encoded g out hp hm =>
    simp only [sequencerInv, hp, hm] at hseq
    refine placeInv_of_notBusy hinv ?_ (fun _ => hx.lbEmpty_of_p1 hp) (hx.notBusy (by simp [hm]))
    simp only [sequencerInv, hp]
    exact hseq.1
  | written out hp hm =>
    refine placeInv_of_notBusy hinv ?_ (fun _ => hx.lbEmpty_of_p1 hp) (hx.notBusy (by simp [hm]))
    simp only [sequencerInv, hp]
  | byteRead b rest hp hm hl =>
    refine placeInv_of_notBusy (hinv.congr rfl rfl rfl rfl (by simpa using hl)) ?_ (absurd ⟨hp, rfl⟩)
      (hx.notBusy (by simp [hm]))
    simp only [sequencerInv, hp, hm]
  | lineRead rest hp hm =>
    refine placeInv_of_notBusy (hinv.congr rfl rfl rfl rfl hinv.lineFits) ?_ (absurd ⟨hp, rfl⟩)
      (hx.notBusy (by simp [hm]))
    simp only [sequencerInv, hp]
  | passOver hp hm hl => exact placeInv_passEnd hinv hl (hx.notBusy (by simp [hm]))
  | decoded a _ hp hm hc =>
    refine placeInv_of_notBusy (hc.keeps hinv) ?_ (absurd ⟨hp, rfl⟩) (hc.txBusy.trans (hx.notBusy (by simp [hm])))
    simp only [sequencerInv, hp]
  | answered a hp hm =>
    refine placeInv_of_notBusy (hinv.congr rfl rfl rfl rfl (Nat.zero_le _)) ?_ (fun _ => rfl)
      (hx.notBusy (by simp [hm]))
    simp only [sequencerInv, hp]
  | issued f hp hm =>
    exact
      { channel := hinv.congr rfl rfl rfl rfl hinv.lineFits
        sequencer := fun _ => by simp only [sequencerInv, hp]
        lbEmpty := absurd ⟨hp, rfl⟩
        txBusyWaits := fun _ => ⟨⟨hp, rfl⟩, rfl⟩ }
  | transmitted hp hm hb =>
    refine placeInv_of_notBusy (hinv.congr rfl rfl rfl rfl (Nat.zero_le _)) ?_ (fun _ => rfl) hb
    simp only [sequencerInv, hp]

/-! ## Every event -/

/-- A change of the channel that leaves the sequencer, the slots and the line buffer, and starts no transmit. -/
theorem PlaceInv.congr {q : Sequencer} {d : Nat} {x x' : Channel} (h : PlaceInv q d x) (hinv : ChannelInv d x')
    (hslots : x'.slots = x.slots) (hlb : x'.lb = x.lb) (hb : x'.hw.txBusy = true → x.hw.txBusy = true) :
    PlaceInv q d x' where
  channel := hinv
  sequencer e := by
    have hseq := h.sequencer e
    unfold sequencerInv at hseq ⊢
    simpa only [slot_congr hslots, hslots] using hseq
  lbEmpty hn := hlb.trans (h.lbEmpty hn)
  txBusyWaits e := h.txBusyWaits (hb e)

/-- An event keeps the invariant of the channel it acts on. -/
theorem EventEffect.keeps {n c : Nat} {q q' : Sequencer} {x x' : Channel} {e : Event} (h : EventEffect n c q x e q' x')
    (hx : PlaceInv q c x) : PlaceInv q' c x' := by
  have hinv := hx.channel
  cases h with
  | ignored => exact hx
  | serIn b => exact hx.congr (hinv.congr rfl rfl rfl rfl hinv.lineFits) rfl rfl id
  | canRx v _ _ _ hq hslots => exact hslots.keepsPlace hq hx
  | txDone => exact hx.congr (hinv.congr rfl rfl rfl rfl hinv.lineFits) rfl rfl nofun
  | busy b => exact hx.congr (hinv.congr rfl rfl rfl rfl hinv.lineFits) rfl rfl id
  | tick hf => exact hx.congr { hinv with flaggedSized := hinv.flaggedSized } rfl rfl id
  | lineTimeout hq hp hm =>
    exact placeInv_passEnd (hinv.congr rfl rfl rfl rfl (Nat.zero_le _)) rfl (hx.notBusy (by simp [hm]))
  | setMode m ho => exact hx.congr { hinv with flaggedSized := hinv.flaggedSized } rfl rfl id
  | bridge d _ _ hq hturn => subst hq; exact hturn.keeps hx

/-- Where an event of channel c may move the sequencer: nowhere, within its own channel's pass, or past that pass. -/
theorem EventEffect.seq {n c : Nat} {q q' : Sequencer} {x x' : Channel} {e : Event} (h : EventEffect n c q x e q' x') :
    q' = q ∨ q.chan = c ∧ (q'.chan = c ∨ q' = passEnd n q) := by
  cases h with
  | canRx v _ _ _ hq _ =>
    cases hq with
    | left => exact .inl rfl
    | noted old new hc hp hm => exact .inr ⟨hc, .inl hc⟩
  | lineTimeout hq hp hm => exact .inr ⟨hq, .inr rfl⟩
  | bridge d _ _ hq hturn =>
    refine .inr ⟨hq, ?_⟩
    cases hturn with
    | passOver => exact .inr rfl
    | _ => exact .inl hq
  | _ => exact .inl rfl

/-- An event of channel c keeps the invariant of every other channel: it may only leave it idle or begin its pass. -/
theorem PlaceInv.other {n c d : Nat} {q q' : Sequencer} {y : Channel} (hd : d ≠ c)
    (hq : q' = q ∨ q.chan = c ∧ (q'.chan = c ∨ q' = passEnd n q)) (h : PlaceInv q d y) : PlaceInv q' d y := by
  rcases hq with rfl | ⟨hqc, hmove⟩
  · exact h
  · have hout : ¬ inCommand q d := fun hin => hd (hin.2.symm.trans hqc)
    have hidle : y.hw.txBusy = false := by
      by_contra hb
      exact hout (h.txBusyWaits (by simpa using hb)).1
    rcases hmove with hc | rfl
    · exact
        { channel := h.channel
          sequencer := fun e => absurd (e.symm.trans hc) hd
          lbEmpty := fun _ => h.lbEmpty hout
          txBusyWaits := fun hb => by rw [hidle] at hb; cases hb }
    · exact placeInv_passEnd h.channel (h.lbEmpty hout) hidle

/-- The sequencer keeps naming a configured channel and a slot up to `N_SLOTS` (10_state.md R39). -/
theorem inRange_passEnd {n : Nat} {q : Sequencer} (h : InRange n q) : InRange n (passEnd n q) := by
  unfold passEnd
  split
  · next hlt => exact ⟨hlt, Nat.zero_le _⟩
  · exact ⟨Nat.zero_lt_of_lt h.1, Nat.zero_le _⟩

theorem TurnEffect.inRange {n : Nat} {q q' : Sequencer} {x x' : Channel} (h : TurnEffect n q x q' x')
    (hx : PlaceInv q q.chan x) (hq : InRange n q) : InRange n q' := by
  have hcount := hx.channel.slotCount
  cases h with
  | slotSkipped hp hm hi => exact ⟨hq.1, hcount ▸ hi⟩
  | written out hp hm =>
    have hseq := hx.sequencer rfl
    simp only [sequencerInv, hp, hm] at hseq
    exact ⟨hq.1, hcount ▸ hseq⟩
  | passOver => exact inRange_passEnd hq
  | _ => exact hq

theorem EventEffect.inRange {n c : Nat} {q q' : Sequencer} {x x' : Channel} {e : Event}
    (h : EventEffect n c q x e q' x') (hx : PlaceInv q c x) (hq : InRange n q) : InRange n q' := by
  cases h with
  | canRx v _ _ _ hnoted _ => cases hnoted <;> exact hq
  | lineTimeout => exact inRange_passEnd hq
  | bridge d _ _ hqc hturn => subst hqc; exact hturn.inRange hx hq
  | _ => exact hq

/-- `Sched` begins the pass of the first channel from IDLE, where no channel holds a line or waits (R240). -/
theorem PlaceInv.sched {q : Sequencer} {d c : Nat} {y : Channel} (hp : q.phase = .idle) (h : PlaceInv q d y) :
    PlaceInv { chan := c, phase := .p1, slot := 0, sub := .ready } d y := by
  have hout : ¬ inCommand q d := fun hin => by rw [hin.1] at hp; cases hp
  exact
    { channel := h.channel
      sequencer := fun _ => trivial
      lbEmpty := fun _ => h.lbEmpty hout
      txBusyWaits := fun hb => absurd (h.txBusyWaits hb).1 hout }

/-- One event keeps the invariant. -/
theorem takeEvent_keeps {s t : State} (e : Event) (hinv : s.Inv) (h : takeEvent e s = .next t) : t.Inv := by
  obtain ⟨hcount, hrange, hplace⟩ := (inv_iff s).mp hinv
  obtain ⟨-, hlen, hothers, -⟩ := takeEvent_frame e h
  cases he : s.eventChannel e with
  | none =>
    cases e with
    | sched =>
      cases h
      rcases onSched_eq s with heq | ⟨hp, heq⟩ <;> rw [heq]
      · exact hinv
      · have hfirst : InRange s.chans.length { chan := 0, phase := .p1, slot := 0, sub := .ready } :=
          ⟨Nat.zero_lt_of_lt hrange.1, Nat.zero_le _⟩
        exact (inv_iff _).mpr ⟨hcount, hfirst, fun d hd => (hplace d hd).sched hp⟩
    | _ => cases he
  | some c =>
    by_cases hc : c < s.chans.length
    · have heff := takeEvent_effect e hc he h
      refine (inv_iff t).mpr ⟨hlen.trans hcount, hlen ▸ heff.inRange (hplace c hc) hrange, fun d hd => ?_⟩
      by_cases hdc : d = c
      · subst hdc; exact heff.keeps (hplace d hc)
      · rw [hothers d (by simpa [he] using Ne.symm hdc)]
        exact (hplace d (hlen ▸ hd)).other hdc heff.seq
    · rw [eq_of_outOfRange hc he h]
      exact hinv

/-- The schedule enters no clause of the invariant. -/
theorem inv_withSched {s : State} (rest : List Event) (h : s.Inv) : ({ s with sched := rest } : State).Inv :=
  (inv_iff _).mpr ((inv_iff s).mp h)

/-- Settles O50: the schedule's first event keeps the invariant. -/
theorem stepKeepsInv : Obligations.StepKeepsInv := by
  unfold Obligations.StepKeepsInv
  intro s t hinv hstep
  cases hs : s.sched with
  | nil =>
    rw [step_nil s hs] at hstep
    cases hstep
    exact hinv
  | cons e rest =>
    rw [step_cons s e rest hs] at hstep
    exact takeEvent_keeps e (inv_withSched rest hinv) hstep

end Sys2Proof.Machine
end

section
/-! PROOFS. The stores the agents share (20_memory.md): the copy-out of a slot, whose outcomes with a handler in the window
are exactly the mixtures of the frames the slot held (R72), and the serial queue the host fills (R77). -/

namespace Sys2Proof.Machine

open Sys2Proof

/-! ## Torn copies are the mixtures -/

/-- Every one of the frames is picked by some free number: its place among them. -/
theorem exists_pickFrame_eq {frames : List CanFrame} {f : CanFrame} (h : f ∈ frames) : ∃ k, pickFrame frames k = f := by
  obtain ⟨k, hk, hf⟩ := List.getElem_of_mem h
  exact ⟨k, by rw [pickFrame, Nat.mod_eq_of_lt hk, List.getD_eq_getElem _ _ hk, hf]⟩

/-- A torn byte is that of the frame drawn for it, where that frame holds one. -/
theorem tornByte_of_pickFrame (frames : List CanFrame) (draw : List (Nat × Byte)) (k : Nat) :
    (pickFrame frames (draw.getD k (0, 0#8)).1).data[k]? = some (tornByte frames draw k) ∨
      (pickFrame frames (draw.getD k (0, 0#8)).1).data[k]? = none := by
  unfold tornByte
  cases (pickFrame frames (draw.getD k (0, 0#8)).1).data[k]? with
  | some b => exact .inl rfl
  | none => exact .inr rfl

/-- Soundness of the torn copy: whatever the draw, a mixture of the frames. -/
theorem tornCopy_isMixture {frames : List CanFrame} (d : CopyDraw) (h : frames ≠ []) :
    isMixture frames (tornCopy frames d) := by
  have hmem : ∀ k, pickFrame frames k ∈ frames := fun k => pickFrame_mem frames k h
  refine ⟨⟨_, hmem d.id, rfl⟩, ⟨_, hmem d.ext, rfl⟩, ⟨_, hmem d.rtr, rfl⟩, ⟨_, hmem d.fd, rfl⟩, ⟨_, hmem d.brs, rfl⟩,
    ⟨_, hmem d.dlc, rfl⟩, of_decide_eq_true (tornCopy_sized frames d), fun k b hb => ?_⟩
  obtain ⟨j, hj, rfl⟩ : ∃ j, (List.range (flen (tornHeader frames d)))[k]? = some j ∧ tornByte frames d.bytes j = b := by
    simpa only [tornCopy, List.getElem?_map, Option.map_eq_some_iff] using hb
  obtain ⟨-, rfl⟩ := List.getElem?_eq_some_iff.mp hj
  rw [List.getElem_range]
  exact ⟨_, hmem _, tornByte_of_pickFrame frames d.bytes k⟩

/-- A payload each of whose bytes one of the frames holds, or leaves free, is torn from the frames by some draw. -/
theorem exists_tornBytes_eq (frames : List CanFrame) (data : List Byte)
    (h : ∀ (k : Nat) (b : Byte), data[k]? = some b → ∃ f ∈ frames, f.data[k]? = some b ∨ f.data[k]? = none) :
    ∃ draw, (List.range data.length).map (tornByte frames draw) = data := by
  have hpick : ∀ k : Fin data.length, ∃ i, ((pickFrame frames i).data[k.val]?).getD data[k.val] = data[k.val] := by
    intro k
    obtain ⟨f, hf, hbyte⟩ := h k data[k.val] (List.getElem?_eq_getElem k.isLt)
    obtain ⟨i, rfl⟩ := exists_pickFrame_eq hf
    refine ⟨i, ?_⟩
    rcases hbyte with hbyte | hbyte <;> rw [hbyte] <;> rfl
  choose pick hpick using hpick
  refine ⟨List.ofFn (fun k => (pick k, data[k.val])), List.ext_getElem (by simp) (fun k _ hk => ?_)⟩
  simpa [tornByte, hk] using hpick ⟨k, hk⟩

/-- A torn copy is g when its fields are those of g and its torn bytes are the payload g's DLC announces. -/
theorem tornCopy_eq_of {frames : List CanFrame} {d : CopyDraw} {g : CanFrame}
    (hheader : tornHeader frames d = { g with data := [] })
    (hdata : (List.range (flen g)).map (tornByte frames d.bytes) = g.data) : tornCopy frames d = g := by
  have hflen : flen (tornHeader frames d) = flen g := by rw [hheader]; rfl
  rw [tornCopy, hflen, hdata, hheader]

/-- Completeness of the torn copy: every mixture of the frames is one, the free values read off the mixture. -/
theorem exists_tornCopy_eq {frames : List CanFrame} {g : CanFrame} (h : isMixture frames g) :
    ∃ d, tornCopy frames d = g := by
  obtain ⟨⟨_, hid, eid⟩, ⟨_, hext, eext⟩, ⟨_, hrtr, ertr⟩, ⟨_, hfd, efd⟩, ⟨_, hbrs, ebrs⟩, ⟨_, hdlc, edlc⟩, hlen,
    hbytes⟩ := h
  obtain ⟨id, rfl⟩ := exists_pickFrame_eq hid
  obtain ⟨ext, rfl⟩ := exists_pickFrame_eq hext
  obtain ⟨rtr, rfl⟩ := exists_pickFrame_eq hrtr
  obtain ⟨fd, rfl⟩ := exists_pickFrame_eq hfd
  obtain ⟨brs, rfl⟩ := exists_pickFrame_eq hbrs
  obtain ⟨dlc, rfl⟩ := exists_pickFrame_eq hdlc
  obtain ⟨bytes, hdata⟩ := exists_tornBytes_eq frames g.data hbytes
  exact ⟨{ id, ext, rtr, fd, brs, dlc, bytes },
    tornCopy_eq_of (by simp only [tornHeader, eid, eext, ertr, efd, ebrs, edlc]) (hlen ▸ hdata)⟩

/-! ## The turn of the copy-out -/

/-- With a handler in the window the copy-out is torn from the overwritten frames and the slot's own. -/
theorem copyOut_of_ne_nil {earlier : List CanFrame} (now : CanFrame) (d : CopyDraw) (h : earlier ≠ []) :
    copyOut earlier now d = tornCopy (earlier ++ [now]) d := by
  cases earlier with
  | nil => exact absurd rfl h
  | cons f fs => rfl

/-- The turn of step c hands the frame copied out to the encoding (46_bridge_loop.md R242 c). -/
theorem step_copy {s : State} {c : Nat} {x : Channel} {earlier : List CanFrame} {d : CopyDraw} {rest : List Event}
    (h : s.atPlace c x .p1 (.copy earlier)) (hs : s.sched = .bridge d :: rest) :
    step s = .next
      { s with
        seq := { s.seq with sub := .encode (copyOut earlier (x.slot s.seq.slot).frame d) }, sched := rest } := by
  rw [step_p1 s c x _ d rest h hs]
  obtain ⟨rfl, -, rfl, -, hsub⟩ := h
  exact phase1Turn_copy _ d earlier hsub

/-- Settles O33: the frame obtained is the slot's own with an empty window, and a torn copy otherwise. -/
theorem copyOutIsMixture : Obligations.CopyOutIsMixture := by
  unfold Obligations.CopyOutIsMixture
  intro s c x earlier d rest hplace hs
  refine ⟨_, step_copy hplace hs, ?_, fun hne => ?_⟩
  · rintro rfl
    exact copyOut_nil _ d
  · rw [copyOut_of_ne_nil _ d hne]
    exact tornCopy_isMixture d (List.append_ne_nil_of_left_ne_nil hne _)

/-- Settles O34: the turn draws the free values that the mixture gives. -/
theorem everyMixtureIsAdmitted : Obligations.EveryMixtureIsAdmitted := by
  unfold Obligations.EveryMixtureIsAdmitted
  rintro s c x earlier g rest ⟨hchan, hconf, hholds, hphase, hsub⟩ hne hmix
  obtain ⟨d, rfl⟩ := exists_tornCopy_eq hmix
  refine ⟨d, ?_⟩
  rw [step_copy (s := { s with sched := .bridge d :: rest }) ⟨hchan, hconf, hholds, hphase, hsub⟩ rfl,
    copyOut_of_ne_nil _ d hne]

/-! ## The serial queue -/

/-- One byte from the host joins the end of its channel's serial queue. -/
theorem step_serIn {s : State} {c : Nat} {b : Byte} {rest : List Event} (hc : c < s.chans.length)
    (hs : s.sched = .serIn c b :: rest) :
    step s = .next
      { s with sched := rest, chans := s.chans.set c { s.chan c with serq := (s.chan c).serq ++ [b] } } :=
  step_onChannel s _ rest c _ hs hc (fun _ => rfl)

/-- Settles O39, by induction on the bytes: each joins behind those before it. -/
theorem serInAppends : Obligations.SerInAppends := by
  unfold Obligations.SerInAppends
  intro s c x bytes rest hc hx hs
  induction bytes generalizing s x with
  | nil =>
    subst hx hs
    simp [set_chan_self s c hc]
  | cons b bytes ih =>
    subst hx
    rw [List.map_cons, List.cons_append] at hs
    rw [List.length_cons, steps_succ_next _ _ _ (step_serIn hc hs),
      ih _ _ (by simpa using hc) (chan_set _ _ _ _ c _ hc) rfl]
    simp

end Sys2Proof.Machine
end

section
/-! PROOFS. The codec primitives (30_encoding.md R99 to R105): what a digit is worth, the DLC table and its inverse, and
what a field of digits reads as, whether a hex field or a payload. -/

namespace Sys2Proof.Machine

open Sys2Proof

/-! ## Digits -/

/-- The three ranges of 30_encoding.md R99, in the rule's order. -/
theorem hexval_some (x : Byte) : hexval (some x) =
    if 0x30 ≤ x.toNat ∧ x.toNat ≤ 0x39 then x.toNat - 0x30
    else if 0x41 ≤ x.toNat ∧ x.toNat ≤ 0x46 then x.toNat - 0x41 + 10
    else if 0x61 ≤ x.toNat ∧ x.toNat ≤ 0x66 then x.toNat - 0x61 + 10
    else 16 := by
  simp only [hexval, hexLowerOk, true_and, upperHexval]
  split_ifs <;> omega

theorem upperHexval_lt_iff (x : Byte) : upperHexval x < 16 ↔ isUpperHex x := by
  unfold upperHexval isUpperHex
  split_ifs <;> omega

theorem isUpperHex_hexDigit {v : Nat} (h : v < 16) : isUpperHex (hexDigit v) := by
  unfold isUpperHex
  interval_cases v <;> decide

/-- The value of an uppercase digit determines the digit. -/
theorem hexDigit_upperHexval {x : Byte} (h : isUpperHex x) : hexDigit (upperHexval x) = x := by
  have hx : x.toNat < 256 := x.isLt
  apply BitVec.eq_of_toNat_eq
  rcases h with h | h
  · have hv : upperHexval x = x.toNat - 0x30 := if_pos h
    rw [hv, hexDigit, if_pos (by omega), BitVec.toNat_ofNat]
    omega
  · have hv : upperHexval x = x.toNat - 0x41 + 10 := (if_neg (by omega)).trans (if_pos h)
    rw [hv, hexDigit, if_neg (by omega), BitVec.toNat_ofNat]
    omega

/-! ## The DLC table -/

theorem dlcCode_some (x : Byte) :
    dlcCode (some x) = if upperHexval x < 16 then some (BitVec.ofNat 4 (upperHexval x)) else none := rfl

/-- A code has one character, its uppercase digit (30_encoding.md R101). -/
theorem dlcCode_eq_some_iff (x : Byte) (d : BitVec 4) : dlcCode (some x) = some d ↔ x = hexDigit d.toNat := by
  refine ⟨fun h => ?_, fun h => h ▸ dlcCode_hexDigit d⟩
  rw [dlcCode_some] at h
  split at h
  · next hlt =>
    cases h
    rw [BitVec.toNat_ofNat, Nat.mod_eq_of_lt hlt, hexDigit_upperHexval ((upperHexval_lt_iff x).mp hlt)]
  · cases h

theorem dlcCode_eq_none {x : Byte} (h : ¬ isUpperHex x) : dlcCode (some x) = none :=
  if_neg (mt (upperHexval_lt_iff x).mp h)

/-- Without a code `DecodeDLC` gives the sentinel (30_encoding.md R101). -/
theorem decodeDlc_of_none {x : Option Byte} (h : dlcCode x = none) : decodeDlc x = 0xFF := by
  rw [decodeDlc, h]

theorem decodeDlc_hexDigit (d : BitVec 4) : decodeDlc (some (hexDigit d.toNat)) = dlcLen d := by
  rw [decodeDlc, dlcCode_hexDigit]

/-- Whatever `DecodeDLC` does not answer with the sentinel is the character of a code. -/
theorem exists_hexDigit_of_decodeDlc {x : Byte} (h : decodeDlc (some x) ≠ 0xFF) :
    ∃ d : BitVec 4, x = hexDigit d.toNat := by
  cases hd : dlcCode (some x) with
  | none => exact absurd (decodeDlc_of_none hd) h
  | some d => exact ⟨d, (dlcCode_eq_some_iff x d).mp hd⟩

/-- The byte counts of the sixteen codes differ, so `EncodeDLC` finds each code again (30_encoding.md R102). -/
theorem encodeDlc_dlcLen (d : BitVec 4) : encodeDlc (dlcLen d) = some (hexDigit d.toNat) := by
  revert d; decide

/-- Settles O1: the sixteen rows are read off, and the characters with a code are exactly the uppercase digits. -/
theorem decodeDlcTable : Obligations.DecodeDlcTable := by
  unfold Obligations.DecodeDlcTable
  refine ⟨by decide, fun x hx => ?_, ⟨rfl, rfl⟩, fun x d hd => ?_⟩
  · exact ⟨decodeDlc_of_none (dlcCode_eq_none hx), dlcCode_eq_none hx⟩
  · rw [(dlcCode_eq_some_iff x d).mp hd, hexval_hexDigit d.isLt]

/-- Settles O2: each count of the list is that of a code, and each character with a count is the digit of a code. -/
theorem dlcRoundTrip : Obligations.DlcRoundTrip := by
  unfold Obligations.DlcRoundTrip
  have hcode : ∀ n ∈ [0, 1, 2, 3, 4, 5, 6, 7, 8, 12, 16, 20, 24, 32, 48, 64], ∃ d : BitVec 4, dlcLen d = n := by
    decide
  refine ⟨fun n hn => ?_, fun x hx => ?_, encodeDlc_dlcLen⟩
  · obtain ⟨d, rfl⟩ := hcode n hn
    exact ⟨hexDigit d.toNat, encodeDlc_dlcLen d, decodeDlc_hexDigit d⟩
  · obtain ⟨d, rfl⟩ := exists_hexDigit_of_decodeDlc hx
    rw [decodeDlc_hexDigit, encodeDlc_dlcLen]

/-! ## A hex field -/

/-- One digit of a field, read into the accumulator (30_encoding.md R100). -/
theorem hexfieldFrom_succ_of_lt {line : List Byte} {off : Nat} (n acc : Nat) (h : hexval (lineAt line off) < 16) :
    hexfieldFrom line off (n + 1) acc = hexfieldFrom line (off + 1) n (acc * 16 + hexval (lineAt line off)) :=
  if_neg (by omega)

/-- A digit put before the n digits of v is the leading one, and moves none of them. -/
theorem digits_cons {n v : Nat} (d : Nat) (hd : d < 16) (hv : v < 16 ^ n) :
    (d * 16 ^ n + v) / 16 ^ n % 16 = d ∧ ∀ j < n, (d * 16 ^ n + v) / 16 ^ j % 16 = v / 16 ^ j % 16 := by
  refine ⟨?_, fun j hj => ?_⟩
  · rw [Nat.add_comm, Nat.add_mul_div_right _ _ (by positivity), Nat.div_eq_of_lt hv, Nat.zero_add,
      Nat.mod_eq_of_lt hd]
  · obtain ⟨m, rfl⟩ := Nat.exists_eq_add_of_lt hj
    have hsplit : d * 16 ^ (j + m + 1) + v = v + (d * 16 ^ m * 16) * 16 ^ j := by ring
    rw [hsplit, Nat.add_mul_div_right _ _ (by positivity), Nat.add_mul_mod_self_right]

/-- Behind what the accumulator holds, a field of digits adds the number its digits write. -/
theorem hexfieldFrom_of_digits (line : List Byte) (n : Nat) : ∀ (off acc : Nat),
    (∀ k < n, hexval (lineAt line (off + k)) < 16) →
    ∃ v, hexfieldFrom line off n acc = some (acc * 16 ^ n + v) ∧ v < 16 ^ n ∧
      ∀ k < n, v / 16 ^ (n - 1 - k) % 16 = hexval (lineAt line (off + k)) := by
  induction n with
  | zero => exact fun off acc _ => ⟨0, by simp [hexfieldFrom], by simp, fun k hk => absurd hk (by omega)⟩
  | succ n ih =>
    intro off acc h
    have hnext : ∀ k, off + 1 + k = off + (k + 1) := fun k => by omega
    obtain ⟨hd, htail⟩ : hexval (lineAt line off) < 16 ∧ _ := Nat.forall_lt_succ_left.mp h
    obtain ⟨v, hread, hlt, hdigit⟩ :=
      ih (off + 1) (acc * 16 + hexval (lineAt line off)) (fun k hk => hnext k ▸ htail k hk)
    obtain ⟨hlead, hrest⟩ := digits_cons (hexval (lineAt line off)) hd hlt
    refine ⟨hexval (lineAt line off) * 16 ^ n + v, ?_, ?_, Nat.forall_lt_succ_left.mpr ⟨hlead, fun k hk => ?_⟩⟩
    · rw [hexfieldFrom_succ_of_lt n acc hd, hread]
      exact congrArg some (by ring)
    · calc hexval (lineAt line off) * 16 ^ n + v
        _ < (hexval (lineAt line off) + 1) * 16 ^ n := by rw [Nat.add_one_mul]; omega
        _ ≤ 16 * 16 ^ n := Nat.mul_le_mul_right _ hd
        _ = 16 ^ (n + 1) := by ring
    · rw [show n + 1 - 1 - (k + 1) = n - 1 - k by omega, hrest _ (by omega), hdigit k hk, hnext]

/-- One character that is no digit makes the field FAIL, wherever it stands. -/
theorem hexfieldFrom_eq_none (line : List Byte) (n : Nat) : ∀ (off acc : Nat),
    (∃ k < n, 16 ≤ hexval (lineAt line (off + k))) → hexfieldFrom line off n acc = none := by
  induction n with
  | zero => rintro off acc ⟨k, hk, -⟩; omega
  | succ n ih =>
    intro off acc h
    by_cases hd : 16 ≤ hexval (lineAt line off)
    · exact if_pos hd
    · rw [hexfieldFrom_succ_of_lt n acc (by omega)]
      obtain h0 | ⟨k, hk, hbad⟩ := Nat.exists_lt_succ_left.mp h
      · exact absurd h0 hd
      · exact ih _ _ ⟨k, hk, by rwa [Nat.add_assoc, Nat.add_comm 1]⟩

/-- Settles O3: a hex field is read with an empty accumulator. -/
theorem hexfieldValue : Obligations.HexfieldValue := by
  unfold Obligations.HexfieldValue
  refine ⟨hexval_some, rfl, fun line off n => ⟨fun h => ?_, hexfieldFrom_eq_none line n off 0⟩⟩
  simpa [hexfield] using hexfieldFrom_of_digits line n off 0 h

/-- Character k of `HEX(n, v)` (30_encoding.md R105). -/
theorem getElem?_hexStr (n v : Nat) : ∀ k < n,
    (hexStr n v)[k]? = some (hexDigit ((v >>> (4 * (n - 1 - k))) % 16)) := by
  induction n with
  | zero => exact fun k hk => absurd hk (Nat.not_lt_zero k)
  | succ n ih =>
    intro k hk
    cases k with
    | zero => rfl
    | succ k =>
      rw [hexStr, List.getElem?_cons_succ, ih k (by omega), show n + 1 - 1 - (k + 1) = n - 1 - k by omega]

/-- Settles O4: the characters by position, and the read-back that the model's own law gives. -/
theorem hexString : Obligations.HexString := by
  unfold Obligations.HexString
  refine fun n v => ⟨hexStr_length n v, fun k b hb => ?_, ?_⟩
  · have hk : k < n := hexStr_length n v ▸ (List.getElem?_eq_some_iff.mp hb).1
    have hdigit : (v >>> (4 * (n - 1 - k))) % 16 < 16 := Nat.mod_lt _ (by decide)
    rw [getElem?_hexStr n v k hk] at hb
    cases hb
    exact ⟨isUpperHex_hexDigit hdigit, hexval_hexDigit hdigit⟩
  · simpa [hexfield] using hexfieldFrom_hexStr n [] [] v 0

/-! ## A payload -/

/-- A payload byte is read when both its characters are digits and the rest of the payload is read (30_encoding.md
R104). -/
theorem payloadAt_succ_eq_some_iff (line : List Byte) (p n : Nat) (data : List Byte) :
    payloadAt line p (n + 1) = some data ↔
      hexval (lineAt line p) < 16 ∧ hexval (lineAt line (p + 1)) < 16 ∧
        ∃ rest, payloadAt line (p + 2) n = some rest ∧
          BitVec.ofNat 8 (hexval (lineAt line p) * 16 + hexval (lineAt line (p + 1))) :: rest = data := by
  rw [payloadAt]
  split_ifs with h
  · simp only [false_iff]
    omega
  · rw [Option.map_eq_some_iff, ← and_assoc, and_iff_right (by omega)]

theorem payloadAt_succ_eq_none_iff (line : List Byte) (p n : Nat) :
    payloadAt line p (n + 1) = none ↔
      (16 ≤ hexval (lineAt line p) ∨ 16 ≤ hexval (lineAt line (p + 1))) ∨ payloadAt line (p + 2) n = none := by
  rw [payloadAt]
  split_ifs with h
  · simp only [h, true_or]
  · rw [Option.map_eq_none_iff, or_iff_right h]

/-- Byte j of a payload that is read is made of the two digits at its place. -/
theorem payloadAt_getElem? (line : List Byte) (n : Nat) : ∀ (p : Nat) (data : List Byte),
    payloadAt line p n = some data → ∀ (j : Nat) (b : Byte), data[j]? = some b →
      b.toNat = hexval (lineAt line (p + 2 * j)) * 16 + hexval (lineAt line (p + 2 * j + 1)) := by
  induction n with
  | zero => rintro p data ⟨⟩ j b hb; simp at hb
  | succ n ih =>
    intro p data h j b hb
    obtain ⟨hhi, hlo, rest, hrest, rfl⟩ := (payloadAt_succ_eq_some_iff line p n data).mp h
    cases j with
    | zero =>
      cases hb
      exact (BitVec.toNat_ofNat _ _).trans (Nat.mod_eq_of_lt (by omega))
    | succ j =>
      rw [ih (p + 2) rest hrest j b hb, show p + 2 + 2 * j = p + 2 * (j + 1) by omega]

/-- A payload is not read exactly when one of its characters is no digit. -/
theorem payloadAt_eq_none_iff (line : List Byte) (n : Nat) : ∀ p, payloadAt line p n = none ↔
    ∃ j < n, 16 ≤ hexval (lineAt line (p + 2 * j)) ∨ 16 ≤ hexval (lineAt line (p + 2 * j + 1)) := by
  induction n with
  | zero => simp [payloadAt]
  | succ n ih =>
    intro p
    rw [payloadAt_succ_eq_none_iff, ih, Nat.exists_lt_succ_left]
    simp only [Nat.mul_add, Nat.mul_zero, Nat.add_zero, Nat.mul_one, Nat.add_assoc, Nat.add_comm 2]

/-- Settles O5: the bytes of a payload that is read, and when one is not. -/
theorem payloadAssembly : Obligations.PayloadAssembly := by
  unfold Obligations.PayloadAssembly
  refine fun line p n => ⟨fun data h => ⟨payloadAt_length line n p data h, ?_⟩, payloadAt_eq_none_iff line n p⟩
  exact payloadAt_getElem? line n p data h

end Sys2Proof.Machine
end

section
/-! PROOFS. The command map (30_encoding.md R92, R109): every line is a command, and the canonical line of a command is
that command, read back field by field. -/

namespace Sys2Proof.Machine

open Sys2Proof

/-! ## The command map -/

theorem decode_of_fits {ln : List Byte} (h : ln.length ≤ Config.lineMax) : decode ln = .ok (decodeLine ln) :=
  if_pos ((fitsLine_iff _).mpr h)

/-- Every line buffer holds 138 bytes (30_encoding.md R113). -/
theorem decode_of_short {ln : List Byte} (h : ln.length ≤ 138) : decode ln = .ok (decodeLine ln) :=
  decode_of_fits (h.trans (Nat.le_add_left _ _))

theorem commandTable_bytes : commandTable.map Prod.fst = namedBytes := rfl

/-- A first byte that no row of the map names is the default arm's (42_query_stub_commands.md R176). -/
theorem decodeFirst_unnamed {b : Byte} (h : b ∉ namedBytes) (ln : List Byte) : decodeFirst b ln = .otherLine b := by
  have hnone : commandTable.find? (fun row => row.1 == b) = none := by
    refine List.find?_eq_none.mpr (fun row hrow hb => h ?_)
    rw [← commandTable_bytes, ← eq_of_beq hb]
    exact List.mem_map_of_mem hrow
  rw [decodeFirst, hnone]

/-- The leading character of the tags selects their transmit command (30_encoding.md R92, R95, R96). -/
theorem txCommand_decodeFirst {ext rtr fd brs : Bool} {c : Byte} (hc : cmdChar ext rtr fd brs = some c)
    (ln : List Byte) : txCommand ext rtr fd brs (txOperands ln ext rtr fd) = some (decodeFirst c ln) := by
  unfold cmdChar at hc
  split at hc <;> cases hc <;> cases ext <;> rfl

/-- Settles O6: row by row of the operandless commands, and the default arm. -/
theorem commandMap : Obligations.CommandMap := by
  unfold Obligations.CommandMap
  have hdec : ∀ (b : Byte) (rest : List Byte), rest.length + 1 ≤ Config.lineMax →
      decode (b :: rest) = .ok (decodeFirst b (b :: rest)) := fun b rest hlen => decode_of_fits hlen
  refine ⟨fun row hrow rest hlen => ?_, fun b rest hb hlen => ?_, decode_of_short (Nat.zero_le _)⟩
  · rw [hdec _ rest hlen]
    fin_cases hrow <;> rfl
  · rw [hdec b rest hlen, decodeFirst_unnamed hb]

/-- Settles O11: the lines are decoded, and the frame encoded, by evaluation. -/
theorem decodeAgreesOnWords : Obligations.DecodeAgreesOnWords := by
  unfold Obligations.DecodeAgreesOnWords
  exact ⟨rfl, rfl, rfl, rfl, rfl, rfl, rfl, rfl, rfl⟩

/-! ## Every line is answered -/

theorem commandTable_isOutput (ln : List Byte) : ∀ row ∈ commandTable, (row.2 ln).isOutput = false := by
  simp [commandTable, Instr.isOutput]

/-- No line decodes to an output form: the map names commands only (30_encoding.md R92). -/
theorem decodeLine_isOutput (ln : List Byte) : (decodeLine ln).isOutput = false := by
  cases ln with
  | nil => rfl
  | cons b rest =>
    rw [decodeLine, decodeFirst]
    cases hrow : commandTable.find? (fun row => row.1 == b) with
    | some row => exact commandTable_isOutput (b :: rest) row (List.mem_of_find?_eq_some hrow)
    | none => rfl

/-- A command's rule returns an action, and touches neither the rest of the sequencer nor the schedule
(46_bridge_loop.md R243, R251). -/
theorem CommandRule.returnsAction {i : Instr} (h : CommandRule i) (s : State) :
    ∃ a t, exec i s = .next t ∧ t.seq = { s.seq with sub := .dispatch a } ∧ t.sched = s.sched := by
  cases h with
  | opens h => exact ⟨.ack, _, h s, by simp, by simp⟩
  | closes h => exact ⟨.ack, _, h s, by simp, by simp⟩
  | setsBitrate k h => exact ⟨.ack, _, h s, rfl, rfl⟩
  | setsDataRate r h => exact ⟨.ack, _, h s, rfl, rfl⟩
  | setsTimestamp on h => exact ⟨.ack, _, h s, rfl, rfl⟩
  | answers a _ h => exact ⟨a, _, h s, rfl, rfl⟩

/-- Settles O10: a line that fits is a command, and every command has a rule. -/
theorem everyLineIsAnswered : Obligations.EveryLineIsAnswered := by
  unfold Obligations.EveryLineIsAnswered
  intro line hlen
  have hdec := decode_of_fits hlen
  exact ⟨_, hdec, decodeLine_isOutput line, (decode_rule line _ hdec).returnsAction⟩

/-! ## The fields of a canonical line -/

theorem idMax_lt (ext : Bool) : idMax ext < 16 ^ idDigits ext := by
  revert ext; decide

/-- W1 of 10_state.md R32 for either kind of ID; the extended limit is the field's width. -/
theorem FrameOps.id_le_of_wf {o : FrameOps} {ext rtr fd brs : Bool} (h : o.wf ext rtr fd brs = true) :
    o.id.toNat ≤ idMax ext := by
  cases ext with
  | true => exact Nat.le_sub_one_of_lt o.id.isLt
  | false =>
    obtain ⟨hid, -⟩ := (encodable_iff (o.toFrame false rtr fd brs)).mp h
    exact hid.resolve_left Bool.false_ne_true

/-- W4 of 10_state.md R32: a classic frame announces at most 8 bytes. -/
theorem FrameOps.dlcLen_le_of_wf {o : FrameOps} {ext rtr brs : Bool} (h : o.wf ext rtr false brs = true) :
    dlcLen o.dlc ≤ 8 := by
  obtain ⟨-, -, -, hdlc, -⟩ := (encodable_iff (o.toFrame ext rtr false brs)).mp h
  have hle : o.dlc.toNat ≤ 8 := hdlc.resolve_left Bool.false_ne_true
  have := dlcLen_gt_eight o.dlc
  omega

/-- The payload has the length the DLC announces (10_state.md R33). -/
theorem FrameOps.data_length_of_wf {o : FrameOps} {ext rtr fd brs : Bool} (h : o.wf ext rtr fd brs = true) :
    o.data.length = if rtr then 0 else dlcLen o.dlc := by
  obtain ⟨-, -, -, -, hlen⟩ := (encodable_iff (o.toFrame ext rtr fd brs)).mp h
  exact hlen

/-- The digits of the payload field, none on a remote frame (30_encoding.md R95 to R97). -/
def payloadHex (rtr : Bool) (data : List Byte) : List Byte :=
  if rtr then [] else data.flatMap (fun b => hexStr 2 b.toNat)

theorem encodeOps_eq {ext rtr fd brs : Bool} {c : Byte} (hc : cmdChar ext rtr fd brs = some c) (o : FrameOps) :
    encodeOps ext rtr fd brs o =
      [c] ++ hexStr (idDigits ext) o.id.toNat ++ hexDigit o.dlc.toNat :: payloadHex rtr o.data := by
  simp only [encodeOps, frameLine, FrameOps.toFrame, hc]
  rfl

theorem limitId_of_le {ext : Bool} {id : BitVec 29} (h : id.toNat ≤ idMax ext) : limitId ext id.toNat = some id := by
  rw [limitId, if_neg (by omega), BitVec.ofNat_toNat, BitVec.setWidth_eq]

section Fields

variable {ext rtr fd brs : Bool} {c : Byte} (hc : cmdChar ext rtr fd brs = some c) (o : FrameOps)

include hc

theorem hexfield_encodeOps (h : o.id.toNat ≤ idMax ext) :
    hexfield (encodeOps ext rtr fd brs o) 1 (idDigits ext) = some o.id.toNat := by
  rw [encodeOps_eq hc]
  exact hexfield_hexStr _ [c] _ _ (h.trans_lt (idMax_lt ext))

theorem lineAt_encodeOps_dlc :
    lineAt (encodeOps ext rtr fd brs o) (1 + idDigits ext) = some (hexDigit o.dlc.toNat) := by
  have hat := lineAt_append_right ([c] ++ hexStr (idDigits ext) o.id.toNat)
    (hexDigit o.dlc.toNat :: payloadHex rtr o.data) 0
  rw [List.length_append, hexStr_length] at hat
  rw [encodeOps_eq hc]
  exact hat

theorem payloadAt_encodeOps (hr : rtr = false) :
    payloadAt (encodeOps ext rtr fd brs o) (idDigits ext + 2) o.data.length = some o.data := by
  have hread := payloadAt_hex o.data ([c] ++ hexStr (idDigits ext) o.id.toNat ++ [hexDigit o.dlc.toNat]) []
  have hlen : ([c] ++ hexStr (idDigits ext) o.id.toNat ++ [hexDigit o.dlc.toNat]).length = idDigits ext + 2 := by
    simp
  rw [hlen] at hread
  rw [encodeOps_eq hc, payloadHex, hr]
  simpa using hread

theorem txPayload_encodeOps (h : o.wf ext rtr fd brs = true) :
    txPayload (encodeOps ext rtr fd brs o) ext rtr o.id o.dlc = .ok o := by
  have hlen := FrameOps.data_length_of_wf h
  unfold txPayload
  cases rtr with
  | true => rw [if_pos rfl, ← List.eq_nil_of_length_eq_zero hlen]
  | false =>
    rw [if_neg Bool.false_ne_true, ← show o.data.length = dlcLen o.dlc from hlen, payloadAt_encodeOps hc o rfl]

theorem txDlc_encodeOps (h : o.wf ext rtr fd brs = true) :
    txDlc (encodeOps ext rtr fd brs o) ext rtr fd o.id = .ok o := by
  have hclassic : ¬ (fd = false ∧ 8 < dlcLen o.dlc ∧ classicDlcGt8 = .nack) := by
    rintro ⟨rfl, hgt, -⟩
    exact absurd (FrameOps.dlcLen_le_of_wf h) (by omega)
  rw [txDlc, lineAt_encodeOps_dlc hc, dlcCode_hexDigit]
  exact (if_neg hclassic).trans (txPayload_encodeOps hc o h)

/-- `TxDecode` reads back the operands of a canonical line: every check of 41_transmit_commands.md R140 passes. -/
theorem txOperands_encodeOps (h : o.wf ext rtr fd brs = true) :
    txOperands (encodeOps ext rtr fd brs o) ext rtr fd = .ok o := by
  have hid := FrameOps.id_le_of_wf h
  rw [txOperands, hexfield_encodeOps hc o hid]
  simp only [limitId_of_le hid, txDlc_encodeOps hc o h]

/-- The canonical line of a transmit command with well-formed operands decodes to it (30_encoding.md R95 to R97). -/
theorem decode_encodeTx {a : Arg FrameOps} {i : Instr} (hi : txCommand ext rtr fd brs a = some i)
    (h : txArgWf ext rtr fd brs a = true) : decode (encodeTx ext rtr fd brs a) = .ok i := by
  cases a with
  | bad why => cases h
  | ok o =>
    have hline : decodeLine (encodeOps ext rtr fd brs o) = decodeFirst c (encodeOps ext rtr fd brs o) := by
      rw [encodeOps_eq hc]; rfl
    have hcmd := txCommand_decodeFirst hc (encodeOps ext rtr fd brs o)
    rw [txOperands_encodeOps hc o h, hi, ← hline] at hcmd
    rw [decode_of_short (Laws.encodeTx_fits ext rtr fd brs _ c hc h).1, Option.some.inj hcmd]
    rfl

end Fields

/-! ## Decode after encode -/

theorem decode_encode_setBitrate (k : Fin 9) : decode (encode (.setBitrate (.ok k))) = .ok (.setBitrate (.ok k)) := by
  fin_cases k <;> rfl

theorem decode_encode_setDataRate (r : FdRate) :
    decode (encode (.setDataRate (.ok r))) = .ok (.setDataRate (.ok r)) := by
  cases r <;> rfl

theorem decode_encode_setTimestamp (on : Bool) :
    decode (encode (.setTimestamp (.ok on))) = .ok (.setTimestamp (.ok on)) := by
  cases on <;> rfl

theorem decode_encode_otherLine {b : Byte} (h : (Instr.otherLine b).wellFormed = true) :
    decode (encode (.otherLine b)) = .ok (.otherLine b) := by
  have hb : b ∉ namedBytes := by
    intro hmem
    simp [Instr.wellFormed, hmem] at h
  rw [decode_of_short (by simp [encode])]
  exact congrArg _ (decodeFirst_unnamed hb [b])

/-- Settles O12, by the instruction: a fixed line is looked up, an argument or the fields of a frame are read back. -/
theorem decodeEncodeAgree : Obligations.DecodeEncodeAgree := by
  unfold Obligations.DecodeEncodeAgree
  intro i hw ho
  cases i with
  | openChannel | closeChannel | querySoftware | queryHardware | querySerial | queryStatus => rfl
  | stubL | stubA | stubP | stubU | stubLowerS | stubW | stubM | stubLowerM | stubX | stubQ | emptyLine => rfl
  | otherLine b => exact decode_encode_otherLine hw
  | setBitrate arg =>
    cases arg with
    | ok k => exact decode_encode_setBitrate k
    | bad why => cases hw
  | setDataRate arg =>
    cases arg with
    | ok r => exact decode_encode_setDataRate r
    | bad why => cases hw
  | setTimestamp arg =>
    cases arg with
    | ok on => exact decode_encode_setTimestamp on
    | bad why => cases hw
  | txStdData op | txExtData op | txStdRemote op | txExtRemote op | txStdFd op | txExtFd op | txStdFdBrs op
  | txExtFdBrs op => exact decode_encodeTx rfl rfl hw
  | rxStdData op | rxExtData op | rxStdRemote op | rxExtRemote op | rxStdFd op | rxExtFd op | rxStdFdBrs op
  | rxExtFdBrs op => cases ho

end Sys2Proof.Machine
end

section
/-! PROOFS. A line longer than the line buffer (30_encoding.md R113). -/

namespace Sys2Proof.Machine

open Sys2Proof

/-! ## A byte is read from the serial queue -/

/-- A CR ends the line (46_bridge_loop.md R244), however full the line buffer is. -/
theorem p2Read_cr {s : State} {more : List Byte} (h : (s.chan s.seq.chan).serq = cr :: more) :
    s.p2Read = .next ((s.setSerq s.seq.chan more).withSub .decode) := by
  unfold State.p2Read
  rw [h]
  exact if_pos rfl

/-- Any other byte is refused when the line buffer holds `LINE_MAX` bytes (30_encoding.md R113). -/
theorem p2Read_full {s : State} {b : Byte} {more : List Byte} (h : (s.chan s.seq.chan).serq = b :: more) (hb : b ≠ cr)
    (hfull : (s.chan s.seq.chan).lb.length = Config.lineMax) : s.p2Read = .refused .lineTooLong := by
  have hfit : ¬ fitsLine ((s.chan s.seq.chan).lb.length + 1) = true := by
    rw [fitsLine_iff]
    omega
  unfold State.p2Read
  rw [h]
  exact (if_neg hb).trans (if_neg hfit)

/-- Settles O42: the two answers of a read with the line buffer full. -/
theorem overlongLineRefused : Obligations.OverlongLineRefused := by
  unfold Obligations.OverlongLineRefused
  intro s c x b more d rest hplace hser hfull hs
  rw [step_p2 s c x _ d rest hplace hs]
  obtain ⟨rfl, -, rfl, -, hsub⟩ := hplace
  rw [phase2Turn_ready { s with sched := rest } hsub]
  refine ⟨fun hb => p2Read_full hser hb hfull, ?_⟩
  rintro rfl
  exact p2Read_cr hser

end Sys2Proof.Machine
end

section
/-! PROOFS. The control commands `O C S Y Z` (40_control_commands.md R130 to R134): the arguments their lines carry, and
the whole next state of each on the channel it is for. -/

namespace Sys2Proof.Machine

open Sys2Proof

/-! ## The arguments of `S`, `Y` and `Z` -/

theorem decode_setBitrate {rest : List Byte} (h : rest.length + 1 ≤ Config.lineMax) :
    decode (0x53#8 :: rest) = .ok (.setBitrate (bitrateArg (0x53#8 :: rest))) :=
  decode_of_fits h

theorem decode_setDataRate {rest : List Byte} (h : rest.length + 1 ≤ Config.lineMax) :
    decode (0x59#8 :: rest) = .ok (.setDataRate (dataRateArg (0x59#8 :: rest))) :=
  decode_of_fits h

theorem decode_setTimestamp {rest : List Byte} (h : rest.length + 1 ≤ Config.lineMax) :
    decode (0x5A#8 :: rest) = .ok (.setTimestamp (timestampArg (0x5A#8 :: rest))) :=
  decode_of_fits h

section Arguments

variable {b a : Byte} {rest : List Byte}

theorem bitrateArg_of_index (k : Fin 9) (h : a.toNat = 0x30 + k.val) : bitrateArg (b :: a :: rest) = .ok k := by
  have hk : a.toNat - 0x30 = k.val := by omega
  have hlt : a.toNat - 0x30 < 9 := hk ▸ k.isLt
  calc bitrateArg (b :: a :: rest)
    _ = if 0x30 ≤ a.toNat then .ok ⟨a.toNat - 0x30, hlt⟩ else .bad .arg := dif_pos hlt
    _ = .ok ⟨a.toNat - 0x30, hlt⟩ := if_pos (by omega)
    _ = .ok k := congrArg _ (Fin.ext hk)

/-- A byte below `0` has the index 0 in natural numbers, so the lower bound is a check of its own (R132). -/
theorem bitrateArg_of_outside (h : a.toNat < 0x30 ∨ 0x38 < a.toNat) : bitrateArg (b :: a :: rest) = .bad .arg := by
  rcases h with hlow | hhigh
  · have hlt : a.toNat - 0x30 < 9 := by omega
    exact (dif_pos hlt).trans (if_neg (by omega))
  · exact dif_neg (by omega)

theorem dataRateArg_of_not_mem (h : a ∉ [0x32#8, 0x34#8, 0x35#8, 0x38#8]) :
    dataRateArg (b :: a :: rest) = .bad .arg := by
  simp only [List.mem_cons, List.not_mem_nil, or_false, not_or] at h
  obtain ⟨h2, h4, h5, h8⟩ := h
  calc dataRateArg (b :: a :: rest)
    _ = _ := if_neg h2
    _ = _ := if_neg h4
    _ = _ := if_neg h5
    _ = .bad .arg := if_neg h8

theorem timestampArg_of_ne (hon : a ≠ 0x31#8) (hoff : a ≠ 0x30#8) : timestampArg (b :: a :: rest) = .bad .arg :=
  (if_neg hon).trans (if_neg hoff)

end Arguments

/-- Settles O7: each line is its command with the argument read, and an argument is read by its one character. -/
theorem controlArguments : Obligations.ControlArguments := by
  unfold Obligations.ControlArguments
  refine ⟨fun a rest hlen => ?_, decode_of_short (Nat.le_add_left _ _), decode_of_short (Nat.le_add_left _ _),
    decode_of_short (Nat.le_add_left _ _)⟩
  have hfit : (a :: rest).length + 1 ≤ Config.lineMax := hlen
  rw [decode_setBitrate hfit, decode_setDataRate hfit, decode_setTimestamp hfit]
  refine ⟨fun k hk => ?_, fun hout => ?_, fun row hrow ha => ?_, fun hout => ?_, ?_, ?_, fun hon hoff => ?_⟩
  · rw [bitrateArg_of_index k hk]
  · rw [bitrateArg_of_outside hout]
  · subst ha
    fin_cases hrow <;> rfl
  · rw [dataRateArg_of_not_mem hout]
  · rintro rfl
    rfl
  · rintro rfl
    rfl
  · rw [timestampArg_of_ne hon hoff]

/-! ## The operations of the rules -/

/-- An action after an update of one channel: the whole state. -/
theorem act_modChan (s : State) (c : Nat) (f : Channel → Channel) (a : Action) :
    (s.modChan c f).act a =
      { s with chans := s.chans.set c (f (s.chan c)), seq := { s.seq with sub := .dispatch a } } := rfl

/-- An update that leaves the channel as it is changes nothing. -/
theorem modChan_of_eq_self {s : State} {c : Nat} {f : Channel → Channel} (h : f (s.chan c) = s.chan c) :
    s.modChan c f = s := by
  by_cases hc : c < s.chans.length
  · have hget : s.chan c = s.chans[c] := by simp [State.chan, hc]
    rw [State.modChan, h, hget, List.set_getElem_self]
  · exact modChan_outOfRange s c f (Nat.le_of_not_lt hc)

/-- What `SetMode` makes of a channel (44_channel_state_machine.md R205). -/
def modeSetChannel (m : Mode) (x : Channel) : Channel :=
  { x with ch := { x.ch with cfg := { x.ch.cfg with mode := if x.ch.isOpen then x.ch.cfg.mode else m } } }

/-- `SetMode` leaves an open channel as it is (R205). -/
theorem modeSetChannel_of_isOpen (m : Mode) {x : Channel} (h : x.ch.isOpen = true) : modeSetChannel m x = x := by
  rw [modeSetChannel, if_pos h]

theorem setMode_eq (s : State) (c : Nat) (m : Mode) : s.setMode c m = s.modChan c (modeSetChannel m) := by
  unfold State.setMode
  split
  · next ho => exact (modChan_of_eq_self (modeSetChannel_of_isOpen m ho)).symm
  · next ho => simp [modCfg_eq, State.modChan, modeSetChannel, ho]

theorem withDefaultRate_eq (g : ChannelConfig) :
    g.withDefaultRate =
      { g with nominalBitrate := if g.nominalBitrate = 0#32 then 500000#32 else g.nominalBitrate } := by
  unfold ChannelConfig.withDefaultRate
  split <;> rfl

/-- `SetMode` then `Open` (40_control_commands.md R130): one update of the channel and the outputs, the close sequence
first when the channel was open before the mode was set. -/
theorem openOp_setMode (s : State) (c : Nat) (m : Mode) (hc : c < s.chans.length) :
    (s.setMode c m).openOp c = { s.modChan c (fun x => openedChannel (modeSetChannel m x)) with
      trace := s.trace ++ (if (s.chan c).ch.isOpen then closeOutputs c else []) ++
        openOutputs c (modeSetChannel m (s.chan c)).ch.cfg } := by
  rw [setMode_eq, openOp_eq _ c (by simpa using hc), modChan_modChan s c _ _ hc, chan_modChan_same s c _ hc]
  rfl

/-! ## The obligations -/

/-- Settles O16: `SetMode` and `Open` are one update of the channel, whose configuration is g. -/
theorem openCommand : Obligations.OpenCommand := by
  unfold Obligations.OpenCommand
  rintro s c x g rfl hc rfl hg
  have hcfg : (modeSetChannel .normal (s.chan s.seq.chan)).ch.cfg.withDefaultRate = g :=
    (withDefaultRate_eq _).trans hg.symm
  have hexec : exec .openChannel s = .next (((s.setMode s.seq.chan .normal).openOp s.seq.chan).act .ack) := rfl
  rw [hexec, openOp_setMode s _ _ hc, ← hcfg]
  rfl

/-- Settles O17: `Close` is one update of the channel, open or not, and three outputs. -/
theorem closeCommand : Obligations.CloseCommand := by
  unfold Obligations.CloseCommand
  rintro s c x rfl hc rfl
  have hexec : exec .closeChannel s = .next ((s.closeOp s.seq.chan).act .ack) := rfl
  rw [hexec, closeOp_eq s _ hc]
  rfl

/-- Settles O18: the setter stores in either state, and the nine rates are those of the table. -/
theorem bitrateCommand : Obligations.BitrateCommand := by
  unfold Obligations.BitrateCommand
  rintro s c x rfl - rfl
  refine ⟨fun k => ?_, fun why => rfl⟩
  have hexec : exec (.setBitrate (.ok k)) s = .next ((s.setBitrate s.seq.chan (baud k)).act .ack) := rfl
  rw [hexec, setBitrate_eq, modCfg_eq, act_modChan, baud, baudTable]

/-- Settles O19: the setter stores in either state, row by row of the four rates. -/
theorem dataRateCommand : Obligations.DataRateCommand := by
  unfold Obligations.DataRateCommand
  rintro s c x rfl - rfl
  refine ⟨fun row hrow => ?_, fun why => rfl⟩
  have hexec : exec (.setDataRate (.ok row.1)) s = .next ((s.setFdBitrate s.seq.chan (fdRate row.1)).act .ack) := rfl
  have hrate : fdRate row.1 = row.2 := by fin_cases hrow <;> rfl
  rw [hexec, setFdBitrate_eq, modCfg_eq, act_modChan, hrate]

/-- Settles O20: the rule's one update is that of the flag. -/
theorem timestampCommand : Obligations.TimestampCommand := by
  unfold Obligations.TimestampCommand
  rintro s c x rfl - rfl
  refine ⟨fun on => ?_, fun why => rfl⟩
  have hexec : exec (.setTimestamp (.ok on)) s =
      .next ((s.modCh s.seq.chan (fun x => x.setTimestampFlag on)).act .ack) := rfl
  rw [hexec, modCh_eq, act_modChan, ChannelState.setTimestampFlag]

end Sys2Proof.Machine
end

section
/-! PROOFS. `TxDecode` said once (41_transmit_commands.md R140): a line of a transmit command decodes to operands exactly
when every check holds of them. -/

namespace Sys2Proof.Machine

open Sys2Proof

/-! ## The checks, step by step -/

/-- Steps 2 and 3 of R140: a parsed ID within its limit is the ID, and no other passes. -/
theorem limitId_eq_some_iff {ext : Bool} {n : Nat} {id : BitVec 29} :
    limitId ext n = some id ↔ n = id.toNat ∧ id.toNat ≤ idMax ext := by
  refine ⟨fun h => ⟨?_, limitId_le ext n id h⟩, fun ⟨hn, hle⟩ => hn ▸ limitId_of_le hle⟩
  have hmax : idMax ext < 2 ^ 29 := by cases ext <;> decide
  unfold limitId at h
  split at h
  · cases h
  · cases h
    rw [BitVec.toNat_ofNat, Nat.mod_eq_of_lt (by omega)]

/-- A payload is read exactly when it has its length and each byte is that of two digits (30_encoding.md R104). -/
theorem payloadAt_eq_some_iff (line : List Byte) (p n : Nat) (data : List Byte) :
    payloadAt line p n = some data ↔ data.length = n ∧ ∀ (j : Nat) (b : Byte), data[j]? = some b →
      hexval (lineAt line (p + 2 * j)) < 16 ∧ hexval (lineAt line (p + 2 * j + 1)) < 16 ∧
        b.toNat = hexval (lineAt line (p + 2 * j)) * 16 + hexval (lineAt line (p + 2 * j + 1)) := by
  have hbytes := payloadAt_getElem? line n p
  have hnone := payloadAt_eq_none_iff line n p
  constructor
  · intro h
    have hlen := payloadAt_length line n p data h
    refine ⟨hlen, fun j b hb => ?_⟩
    have hj : j < n := hlen ▸ (List.getElem?_eq_some_iff.mp hb).1
    have hread : ¬ ∃ j < n, _ := mt hnone.mpr (by simp [h])
    push Not at hread
    exact ⟨(hread j hj).1, (hread j hj).2, hbytes data h j b hb⟩
  · rintro ⟨rfl, hdigits⟩
    cases hread : payloadAt line p data.length with
    | none =>
      obtain ⟨j, hj, hbad⟩ := hnone.mp hread
      obtain ⟨hhi, hlo, -⟩ := hdigits j data[j] (List.getElem?_eq_getElem hj)
      omega
    | some data' =>
      have hlen := payloadAt_length line _ p data' hread
      refine congrArg some (List.ext_getElem hlen fun j h' h => BitVec.eq_of_toNat_eq ?_)
      obtain ⟨-, -, hb⟩ := hdigits j data[j] (List.getElem?_eq_getElem h)
      rw [hb, hbytes data' hread j data'[j] (List.getElem?_eq_getElem h')]

theorem ok_mk_eq_ok_iff {id : BitVec 29} {d : BitVec 4} {bytes : List Byte} {o : FrameOps} :
    Arg.ok { id := id, dlc := d, data := bytes } = .ok o ↔ o.id = id ∧ o.dlc = d ∧ some bytes = some o.data := by
  cases o
  simp [eq_comm]

/-- Step 7: a remote frame reads a payload of no bytes. -/
theorem txPayload_eq_ok_iff {ln : List Byte} {ext rtr : Bool} {id : BitVec 29} {d : BitVec 4} {o : FrameOps} :
    txPayload ln ext rtr id d = .ok o ↔ o.id = id ∧ o.dlc = d ∧
      payloadAt ln (idDigits ext + 2) (if rtr then 0 else dlcLen d) = some o.data := by
  unfold txPayload
  cases rtr with
  | true => exact ok_mk_eq_ok_iff
  | false =>
    simp only [Bool.false_eq_true, if_false]
    cases payloadAt ln (idDigits ext + 2) (dlcLen d) with
    | none => simp
    | some bytes => exact ok_mk_eq_ok_iff

/-- Steps 4 and 5: a DLC character that is one, of at most 8 bytes on a classic frame. -/
theorem txDlc_eq_ok_iff {ln : List Byte} {ext rtr fd : Bool} {id : BitVec 29} {o : FrameOps} :
    txDlc ln ext rtr fd id = .ok o ↔ o.id = id ∧ dlcCode (lineAt ln (1 + idDigits ext)) = some o.dlc ∧
      (fd = false → dlcLen o.dlc ≤ 8) ∧
      payloadAt ln (idDigits ext + 2) (if rtr then 0 else dlcLen o.dlc) = some o.data := by
  unfold txDlc
  cases dlcCode (lineAt ln (1 + idDigits ext)) with
  | none => simp
  | some d =>
    have hlim : (fd = false ∧ 8 < dlcLen d ∧ classicDlcGt8 = .nack) ↔ ¬ (fd = false → dlcLen d ≤ 8) := by
      simp [classicDlcGt8]
    simp only [hlim, ite_not]
    split
    · next hle =>
      rw [txPayload_eq_ok_iff]
      constructor
      · rintro ⟨hid, rfl, hread⟩
        exact ⟨hid, rfl, hle, hread⟩
      · rintro ⟨hid, ⟨⟩, -, hread⟩
        exact ⟨hid, rfl, hread⟩
    · next hgt =>
      refine iff_of_false nofun ?_
      rintro ⟨-, ⟨⟩, hle, -⟩
      exact hgt hle

/-! ## The whole of `TxDecode` -/

theorem dlcIndex_eq (ext : Bool) : (if ext then 9 else 4) = 1 + idDigits ext := by cases ext <;> rfl

theorem payloadIndex_eq (ext : Bool) : (if ext then 10 else 5) = idDigits ext + 2 := by cases ext <;> rfl

/-- The clauses of `operandsOf`, with the payload's two clauses as the one read they are. -/
theorem operandsOf_iff {ln : List Byte} {ext rtr fd : Bool} {o : FrameOps} :
    operandsOf ln ext rtr fd o ↔
      (hexfield ln 1 (idDigits ext) = some o.id.toNat ∧ o.id.toNat ≤ idMax ext) ∧
      dlcCode (lineAt ln (1 + idDigits ext)) = some o.dlc ∧ (fd = false → dlcLen o.dlc ≤ 8) ∧
      payloadAt ln (idDigits ext + 2) (if rtr then 0 else dlcLen o.dlc) = some o.data := by
  rw [← dlcIndex_eq, ← payloadIndex_eq, payloadAt_eq_some_iff]
  exact ⟨fun ⟨hid, hdlc, hclassic, hcount, hdigits⟩ => ⟨hid, hdlc, hclassic, hcount, hdigits⟩,
    fun ⟨hid, hdlc, hclassic, hcount, hdigits⟩ => ⟨hid, hdlc, hclassic, hcount, hdigits⟩⟩

/-- `TxDecode` answers operands exactly when every check of R140 holds of them. -/
theorem txOperands_eq_ok_iff {ln : List Byte} {ext rtr fd : Bool} {o : FrameOps} :
    txOperands ln ext rtr fd = .ok o ↔ operandsOf ln ext rtr fd o := by
  rw [operandsOf_iff]
  unfold txOperands
  cases hexfield ln 1 (idDigits ext) with
  | none => simp
  | some parsed =>
    simp only [Option.some.injEq]
    cases hlim : limitId ext parsed with
    | none =>
      refine iff_of_false nofun ?_
      rintro ⟨hid, -⟩
      rw [limitId_eq_some_iff.mpr hid] at hlim
      cases hlim
    | some id =>
      obtain ⟨rfl, hle⟩ := limitId_eq_some_iff.mp hlim
      refine txDlc_eq_ok_iff.trans (and_congr_left fun _ => ⟨?_, fun ⟨hid, _⟩ => BitVec.eq_of_toNat_eq hid.symm⟩)
      rintro rfl
      exact ⟨rfl, hle⟩

/-! ## The commands -/

/-- A transmit command holds one operand. -/
theorem txCommand_injective {ext rtr fd brs : Bool} {a b : Arg FrameOps} {i : Instr}
    (ha : txCommand ext rtr fd brs a = some i) (hb : txCommand ext rtr fd brs b = some i) : a = b := by
  unfold txCommand at ha hb
  split at ha <;> cases ha <;> cases hb <;> rfl

/-- A line that starts with the character of these tags is their transmit command, of the operand `TxDecode` finds. -/
theorem decode_txCommand {ext rtr fd brs : Bool} {c : Byte} (hc : cmdChar ext rtr fd brs = some c) {rest : List Byte}
    (hlen : rest.length + 1 ≤ Config.lineMax) :
    ∃ i, txCommand ext rtr fd brs (txOperands (c :: rest) ext rtr fd) = some i ∧ decode (c :: rest) = .ok i :=
  ⟨_, txCommand_decodeFirst hc _, decode_of_fits hlen⟩

/-- Settles O8: the command of the line holds what `TxDecode` answers, which is operands exactly when the checks hold. -/
theorem transmitDecodeExact : Obligations.TransmitDecodeExact := by
  unfold Obligations.TransmitDecodeExact
  intro ext rtr fd brs ch hch rest hlen
  obtain ⟨j, hj, hdec⟩ := decode_txCommand hch hlen
  refine ⟨fun o i hi => ?_, fun hno => ?_⟩
  · rw [hdec, ← txOperands_eq_ok_iff]
    constructor
    · rintro ⟨⟩
      exact txCommand_injective hj hi
    · intro ho
      rw [ho, hi] at hj
      cases hj
      rfl
  · cases hop : txOperands (ch :: rest) ext rtr fd with
    | ok o => exact absurd (txOperands_eq_ok_iff.mp hop) (hno o)
    | bad why => exact ⟨why, j, hop ▸ hj, hdec⟩

end Sys2Proof.Machine
end

section
/-! PROOFS. A frame's line and `TxDecode` are inverse (41_transmit_commands.md R150): the line written for a frame holds the
frame's operands, with or without bytes behind it, and a canonical line is fixed by the operands it holds. -/

namespace Sys2Proof.Machine

open Sys2Proof

/-! ## Bytes behind the fields are not read -/

/-- A digit of a line stays where it is with more bytes behind the line. -/
theorem lineAt_append_of_digit {ln : List Byte} (q : List Byte) {k : Nat} (h : hexval (lineAt ln k) < 16) :
    lineAt (ln ++ q) k = lineAt ln k := by
  refine List.getElem?_append_left (Nat.lt_of_not_le fun hle => ?_)
  rw [lineAt, List.getElem?_eq_none hle] at h
  exact absurd h (by decide)

theorem hexfieldFrom_append {ln : List Byte} (q : List Byte) {v : Nat} (n : Nat) : ∀ (off acc : Nat),
    hexfieldFrom ln off n acc = some v → hexfieldFrom (ln ++ q) off n acc = some v := by
  induction n with
  | zero => exact fun _ _ h => h
  | succ n ih =>
    intro off acc h
    by_cases hd : 16 ≤ hexval (lineAt ln off)
    · rw [hexfieldFrom, if_pos hd] at h
      cases h
    · have hd : hexval (lineAt ln off) < 16 := Nat.lt_of_not_le hd
      have hat := lineAt_append_of_digit q hd
      rw [hexfieldFrom_succ_of_lt n acc hd] at h
      rw [hexfieldFrom_succ_of_lt n acc (hat ▸ hd), hat]
      exact ih _ _ h

/-- A character with a code is a digit, of the code's value (30_encoding.md R101). -/
theorem hexval_of_dlcCode {x : Option Byte} {d : BitVec 4} (h : dlcCode x = some d) : hexval x = d.toNat := by
  cases x with
  | none => cases h
  | some x => rw [(dlcCode_eq_some_iff x d).mp h, hexval_hexDigit d.isLt]

/-- The operands of a line are those of the line with any bytes behind it (30_encoding.md R110, decision D8). -/
theorem operandsOf_append {ln : List Byte} {ext rtr fd : Bool} {o : FrameOps} (h : operandsOf ln ext rtr fd o)
    (q : List Byte) : operandsOf (ln ++ q) ext rtr fd o where
  id := ⟨hexfieldFrom_append q _ _ _ h.id.1, h.id.2⟩
  dlc := by
    rw [lineAt_append_of_digit q (hexval_of_dlcCode h.dlc ▸ o.dlc.isLt)]
    exact h.dlc
  classic := h.classic
  count := h.count
  digits j b hb := by
    obtain ⟨hhi, hlo, hval⟩ := h.digits j b hb
    rw [lineAt_append_of_digit q hhi, lineAt_append_of_digit q hlo]
    exact ⟨hhi, hlo, hval⟩

/-! ## The line of a frame holds the frame's operands -/

/-- W2 and W3 of 10_state.md R32 are what the table of leading characters asks of the tags (43_rx_encode.md R180). -/
theorem exists_cmdChar {f : CanFrame} (hf : encodable f = true) : ∃ c, cmdChar f.ext f.rtr f.fd f.brs = some c := by
  obtain ⟨-, hrf, hbf, -, -⟩ := (encodable_iff f).mp hf
  revert hrf hbf
  cases f.rtr <;> cases f.fd <;> cases f.brs <;> simp [cmdChar]

theorem frameLine_eq_cons {f : CanFrame} {c : Byte} (hc : cmdChar f.ext f.rtr f.fd f.brs = some c) :
    frameLine f = c :: (frameLine f).tail := by
  simp only [frameLine, hc, List.tail_cons]

theorem operandsOf_frameLine {f : CanFrame} {c : Byte} (hc : cmdChar f.ext f.rtr f.fd f.brs = some c)
    (hf : encodable f = true) : operandsOf (frameLine f) f.ext f.rtr f.fd f.ops :=
  txOperands_eq_ok_iff.mp (txOperands_encodeOps hc f.ops hf)

/-- A transmit command's rule is `Send` of its operand's frame, or NACK (41_transmit_commands.md R140 step 8). -/
theorem exec_txCommand {ext rtr fd brs : Bool} {op : Arg FrameOps} {i : Instr}
    (hi : txCommand ext rtr fd brs op = some i) (s : State) : exec i s = sendFrame ext rtr fd brs op s := by
  unfold txCommand at hi
  split at hi <;> cases hi <;> rfl

/-- A line that fits and starts with the line of a frame is a command that sends this frame. -/
theorem decode_frameLine_append {f : CanFrame} (hf : encodable f = true) (q : List Byte)
    (hlen : (frameLine f ++ q).length ≤ Config.lineMax) :
    ∃ i, decode (frameLine f ++ q) = .ok i ∧ ∀ s, exec i s = .next (s.act (.send f)) := by
  obtain ⟨c, hc⟩ := exists_cmdChar hf
  have hops := operandsOf_append (operandsOf_frameLine hc hf) q
  rw [frameLine_eq_cons hc, List.cons_append] at hlen hops ⊢
  obtain ⟨i, hi, hdec⟩ := decode_txCommand hc hlen
  refine ⟨i, hdec, fun s => ?_⟩
  rw [exec_txCommand hi, txOperands_eq_ok_iff.mpr hops]
  rfl

theorem frameLine_fits {f : CanFrame} (hf : encodable f = true) : (frameLine f).length ≤ Config.lineMax := by
  obtain ⟨c, hc⟩ := exists_cmdChar hf
  exact (Laws.encodeOps_fits f.ext f.rtr f.fd f.brs f.ops c hc hf).1.trans (Nat.le_add_left _ _)

theorem encodable_of_wf {f : CanFrame} (hwf : frameWf f = true) (hlen : f.data.length = flen f) :
    encodable f = true := by
  simp [encodable, frameSized, hwf, hlen]

/-- Settles O13: without its CR the line written is the frame's line with the suffix, if any, behind it. -/
theorem encodedFrameDecodesToItself : Obligations.EncodedFrameDecodesToItself := by
  unfold Obligations.EncodedFrameDecodesToItself
  intro f tsflag ts hwf hsize hfit
  have hf := encodable_of_wf hwf hsize
  have hlen : (frameLine f ++ if tsflag then hexStr 4 (ts % 65536) else []).length ≤ Config.lineMax := by
    cases tsflag with
    | true => simpa [encodeFrame] using hfit rfl
    | false => simpa using frameLine_fits hf
  obtain ⟨i, hdec, hexec⟩ := decode_frameLine_append hf _ hlen
  refine ⟨i, f, ?_, by simp [sameFrame], hexec⟩
  rw [encodeFrame, List.dropLast_concat]
  exact hdec

/-! ## The operands fix every digit of their line -/

/-- Digit k of a field that reads as v (30_encoding.md R100). -/
theorem hexval_of_hexfield {ln : List Byte} {off n v : Nat} (h : hexfield ln off n = some v) {k : Nat} (hk : k < n) :
    hexval (lineAt ln (off + k)) = v / 16 ^ (n - 1 - k) % 16 := by
  by_cases hbad : ∃ k < n, 16 ≤ hexval (lineAt ln (off + k))
  · rw [hexfield, hexfieldFrom_eq_none ln n off 0 hbad] at h
    cases h
  · push Not at hbad
    obtain ⟨w, hread, -, hdigit⟩ := hexfieldFrom_of_digits ln n off 0 hbad
    rw [hexfield, hread, Option.some.injEq] at h
    rw [← hdigit k hk, ← h, Nat.zero_mul, Nat.zero_add]

/-- Two lines of the same operands have the same digits, from the ID field to the end of the payload. -/
theorem hexval_eq_of_operandsOf {ln ln' : List Byte} {ext rtr fd : Bool} {o : FrameOps}
    (h : operandsOf ln ext rtr fd o) (h' : operandsOf ln' ext rtr fd o) {k : Nat}
    (hk : k < idDigits ext + 1 + 2 * o.data.length) : hexval (lineAt ln (1 + k)) = hexval (lineAt ln' (1 + k)) := by
  obtain ⟨⟨hid, -⟩, hdlc, -, hpay⟩ := operandsOf_iff.mp h
  obtain ⟨⟨hid', -⟩, hdlc', -, hpay'⟩ := operandsOf_iff.mp h'
  obtain ⟨-, hbyte⟩ := (payloadAt_eq_some_iff ..).mp hpay
  obtain ⟨-, hbyte'⟩ := (payloadAt_eq_some_iff ..).mp hpay'
  rcases lt_trichotomy k (idDigits ext) with hlt | rfl | hgt
  · rw [hexval_of_hexfield hid hlt, hexval_of_hexfield hid' hlt]
  · rw [hexval_of_dlcCode hdlc, hexval_of_dlcCode hdlc']
  · obtain ⟨j, hj⟩ : ∃ j, k = idDigits ext + 1 + 2 * j ∨ k = idDigits ext + 1 + 2 * j + 1 :=
      ⟨(k - (idDigits ext + 1)) / 2, by omega⟩
    have hget : o.data[j]? = some (o.data[j]'(by omega)) := List.getElem?_eq_getElem _
    obtain ⟨hhi, hlo, hval⟩ := hbyte j _ hget
    obtain ⟨hhi', hlo', hval'⟩ := hbyte' j _ hget
    rcases hj with rfl | rfl
    · rw [show 1 + (idDigits ext + 1 + 2 * j) = idDigits ext + 2 + 2 * j by omega]
      omega
    · rw [show 1 + (idDigits ext + 1 + 2 * j + 1) = idDigits ext + 2 + 2 * j + 1 by omega]
      omega

theorem hexDigit_hexval {x : Byte} (h : isUpperHex x) : hexDigit (hexval (some x)) = x := by
  have hval := hexval_hexDigit ((upperHexval_lt_iff x).mpr h)
  rw [hexDigit_upperHexval h] at hval
  rw [hval, hexDigit_upperHexval h]

/-- Uppercase digits with the same values are the same bytes. -/
theorem eq_of_hexval_eq {l l' : List Byte} (hlen : l.length = l'.length) (hl : ∀ b ∈ l, isUpperHex b)
    (hl' : ∀ b ∈ l', isUpperHex b) (h : ∀ k < l.length, hexval l[k]? = hexval l'[k]?) : l = l' := by
  refine List.ext_getElem hlen fun k hk hk' => ?_
  have hval := h k hk
  rw [List.getElem?_eq_getElem hk, List.getElem?_eq_getElem hk'] at hval
  rw [← hexDigit_hexval (hl _ (List.getElem_mem hk)), hval, hexDigit_hexval (hl' _ (List.getElem_mem hk'))]

/-- A canonical line is fixed by its first byte and its operands: of two with the same operands, the bytes behind the
command characters are the same. -/
theorem eq_of_operandsOf {c c' : Byte} {l l' : List Byte} {ext rtr fd : Bool} {o : FrameOps}
    (h : operandsOf (c :: l) ext rtr fd o) (h' : operandsOf (c' :: l') ext rtr fd o)
    (hlen : l.length = idDigits ext + 1 + 2 * o.data.length) (hlen' : l'.length = idDigits ext + 1 + 2 * o.data.length)
    (hl : ∀ b ∈ l, isUpperHex b) (hl' : ∀ b ∈ l', isUpperHex b) : l = l' := by
  refine eq_of_hexval_eq (hlen.trans hlen'.symm) hl hl' fun k hk => ?_
  have hval := hexval_eq_of_operandsOf h h' (hlen ▸ hk)
  simpa [lineAt, Nat.add_comm 1] using hval

/-! ## Only the transmit commands send -/

/-- No rule of the instruction returns `Send`. -/
def SendsNothing (i : Instr) : Prop :=
  ∀ (s t : State) (f : CanFrame), exec i s = .next t → t.seq.sub ≠ .dispatch (.send f)

theorem sendsNothing_of_act {i : Instr} (a : Action) (ha : ∀ f, a ≠ .send f)
    (h : ∀ s, ∃ u : State, exec i s = .next (u.act a)) : SendsNothing i := by
  intro s t f hexec hsub
  obtain ⟨u, hu⟩ := h s
  rw [hu] at hexec
  cases hexec
  cases hsub
  exact ha f rfl

theorem sendsNothing_of_ack {i : Instr} (h : ∀ s, ∃ u : State, exec i s = .next (u.act .ack)) : SendsNothing i :=
  sendsNothing_of_act .ack nofun h

theorem sendsNothing_of_nack {i : Instr} (h : ∀ s, exec i s = .next (s.act .nack)) : SendsNothing i :=
  sendsNothing_of_act .nack nofun fun s => ⟨s, h s⟩

theorem sendsNothing_of_reply {i : Instr} (bytes : List Byte) (h : ∀ s, exec i s = .next (s.act (.reply bytes))) :
    SendsNothing i :=
  sendsNothing_of_act (.reply bytes) nofun fun s => ⟨s, h s⟩

theorem setBitrate_sendsNothing (arg : Arg (Fin 9)) : SendsNothing (.setBitrate arg) := by
  cases arg with
  | ok k => exact sendsNothing_of_ack fun _ => ⟨_, rfl⟩
  | bad why => exact sendsNothing_of_nack fun _ => rfl

theorem setDataRate_sendsNothing (arg : Arg FdRate) : SendsNothing (.setDataRate arg) := by
  cases arg with
  | ok r => exact sendsNothing_of_ack fun _ => ⟨_, rfl⟩
  | bad why => exact sendsNothing_of_nack fun _ => rfl

theorem setTimestamp_sendsNothing (arg : Arg Bool) : SendsNothing (.setTimestamp arg) := by
  cases arg with
  | ok on => exact sendsNothing_of_ack fun _ => ⟨_, rfl⟩
  | bad why => exact sendsNothing_of_nack fun _ => rfl

/-- Row by row of the command map (30_encoding.md R92): the row of a frame's leading character, or one that sends
nothing. -/
theorem commandTable_sends (ln : List Byte) : ∀ row ∈ commandTable,
    (∃ ext rtr fd brs, cmdChar ext rtr fd brs = some row.1) ∨ SendsNothing (row.2 ln) := by
  simp only [commandTable, List.forall_mem_cons, List.not_mem_nil, false_imp_iff, implies_true, and_true]
  exact
    ⟨.inr (sendsNothing_of_ack fun _ => ⟨_, rfl⟩), .inr (sendsNothing_of_ack fun _ => ⟨_, rfl⟩),
      .inr (setBitrate_sendsNothing _), .inr (setDataRate_sendsNothing _), .inr (setTimestamp_sendsNothing _),
      .inl ⟨false, false, false, false, rfl⟩, .inl ⟨true, false, false, false, rfl⟩,
      .inl ⟨false, true, false, false, rfl⟩, .inl ⟨true, true, false, false, rfl⟩,
      .inl ⟨false, false, true, false, rfl⟩, .inl ⟨true, false, true, false, rfl⟩,
      .inl ⟨false, false, true, true, rfl⟩, .inl ⟨true, false, true, true, rfl⟩,
      .inr (sendsNothing_of_reply _ fun _ => rfl), .inr (sendsNothing_of_reply _ fun _ => rfl),
      .inr (sendsNothing_of_reply _ fun _ => rfl), .inr (sendsNothing_of_reply _ fun _ => rfl),
      .inr (sendsNothing_of_nack fun _ => rfl), .inr (sendsNothing_of_nack fun _ => rfl),
      .inr (sendsNothing_of_nack fun _ => rfl), .inr (sendsNothing_of_nack fun _ => rfl),
      .inr (sendsNothing_of_nack fun _ => rfl), .inr (sendsNothing_of_nack fun _ => rfl),
      .inr (sendsNothing_of_nack fun _ => rfl), .inr (sendsNothing_of_nack fun _ => rfl),
      .inr (sendsNothing_of_nack fun _ => rfl), .inr (sendsNothing_of_nack fun _ => rfl)⟩

theorem decodeFirst_sends (b : Byte) (ln : List Byte) :
    (∃ ext rtr fd brs, cmdChar ext rtr fd brs = some b) ∨ SendsNothing (decodeFirst b ln) := by
  unfold decodeFirst
  cases hrow : commandTable.find? (fun row => row.1 == b) with
  | some row =>
    have hb : row.1 = b := by simpa using List.find?_some hrow
    exact hb ▸ commandTable_sends ln row (List.mem_of_find?_eq_some hrow)
  | none => exact .inr (sendsNothing_of_nack fun _ => rfl)

/-- What a decoded line that sends a frame is: the frame's leading character, then fields that hold its operands. -/
theorem operandsOf_of_decode_send {line : List Byte} {i : Instr} {s t : State} {f : CanFrame}
    (hdec : decode line = .ok i) (hexec : exec i s = .next t) (hsub : t.seq.sub = .dispatch (.send f)) :
    ∃ c rest, line = c :: rest ∧ cmdChar f.ext f.rtr f.fd f.brs = some c ∧
      operandsOf line f.ext f.rtr f.fd f.ops := by
  unfold decode at hdec
  split at hdec
  · cases hdec
    cases line with
    | nil => exact absurd hsub (sendsNothing_of_nack (i := .emptyLine) (fun _ => rfl) s t f hexec)
    | cons c rest =>
      rcases decodeFirst_sends c (c :: rest) with ⟨ext, rtr, fd, brs, hc⟩ | hnone
      · refine ⟨c, rest, rfl, ?_⟩
        rw [decodeLine, exec_txCommand (txCommand_decodeFirst hc _)] at hexec
        cases hop : txOperands (c :: rest) ext rtr fd with
        | ok o =>
          rw [hop] at hexec
          cases hexec
          cases hsub
          exact ⟨hc, txOperands_eq_ok_iff.mp hop⟩
        | bad why =>
          rw [hop] at hexec
          cases hexec
          cases hsub
      · exact absurd hsub (hnone s t f hexec)
  · cases hdec

/-- Settles O14: the line and the frame's own line hold the same operands, and both are canonical. -/
theorem canonicalLineEncodesBack : Obligations.CanonicalLineEncodesBack := by
  unfold Obligations.CanonicalLineEncodesBack
  intro line i f s t ts hdec hexec hsub hupper hlen
  obtain ⟨hwf, hsize⟩ := decodedFramesWellFormed line i s t f hdec hexec hsub
  have hf := encodable_of_wf hwf hsize
  obtain ⟨c, rest, rfl, hc, hops⟩ := operandsOf_of_decode_send hdec hexec hsub
  have hfops := operandsOf_frameLine hc hf
  have hflen := frameLine_length f c hc (by simp [frameSized, hsize])
  have hfupper : ∀ b ∈ (frameLine f).tail, isUpperHex b := by
    intro b hb
    obtain ⟨d, hd, rfl⟩ := frameLine_digits f b hb
    exact isUpperHex_hexDigit hd
  have hdata : f.ops.data.length = flen f := hsize
  have htail : (frameLine f).tail = rest := by
    rw [frameLine_eq_cons hc] at hfops
    rw [payloadIndex_eq, List.length_cons] at hlen
    refine eq_of_operandsOf hfops hops ?_ ?_ hfupper hupper
    · rw [List.length_tail]
      omega
    · omega
  rw [encodeFrame, frameLine_eq_cons hc, htail]
  simp

end Sys2Proof.Machine
end

section
/-! PROOFS. What the transmit commands return (41_transmit_commands.md R141 to R148) and how `Send` is carried out (R149,
44_channel_state_machine.md R206). -/

namespace Sys2Proof.Machine

open Sys2Proof

/-- Settles O23: each row is the transmit command of its tags, and all share the rule of step 8. -/
theorem transmitCommandsSend : Obligations.TransmitCommandsSend := by
  unfold Obligations.TransmitCommandsSend
  intro s o why row hrow
  have hcmd : ∀ op, txCommand row.2.1 row.2.2.1 row.2.2.2.1 row.2.2.2.2 op = some (row.1 op) := by
    fin_cases hrow <;> exact fun _ => rfl
  exact ⟨exec_txCommand (hcmd (.ok o)) s, exec_txCommand (hcmd (.bad why)) s⟩

/-- The place after the channel served was put to y and the sequencer to the micro-step n. -/
theorem atPlace_set {s t : State} {c : Nat} {x y : Channel} {p : Phase} {m n : Sub} (h : s.atPlace c x p m)
    (hchans : t.chans = s.chans.set c y) (hseq : t.seq = { s.seq with sub := n }) : t.atPlace c y p n := by
  obtain ⟨chans, seq, sched, trace⟩ := t
  cases hchans
  cases hseq
  exact ⟨h.chan, by simpa using h.configured, chan_set _ _ _ _ c y h.configured, h.phase, rfl⟩

/-- `TxDone` ends the transmit in flight, wherever `BRIDGE` stands on that channel. -/
theorem step_txDone {s : State} {c : Nat} {x : Channel} {p : Phase} {m : Sub} {rest : List Event}
    (h : s.atPlace c x p m) (hb : x.hw.txBusy = true) (hs : s.sched = .txDone c :: rest) :
    step s = .next
      { s with sched := rest, chans := s.chans.set c { x with hw := { x.hw with txBusy := false } } } :=
  (collaboratorAnswers s c x rest h.configured h.holds).1 hs hb

/-- `TX_ISSUE` (R206): the turn that dispatches `Send` issues the frame and waits, whatever `is_open` is. -/
theorem step_send {s : State} {c : Nat} {x : Channel} {f : CanFrame} {d : CopyDraw} {rest : List Event}
    (h : s.atPlace c x .p2 (.dispatch (.send f))) (hs : s.sched = .bridge d :: rest) :
    step s = .next
      { s with
        chans := s.chans.set c { x with hw := { x.hw with txBusy := true } },
        seq := { s.seq with sub := .txWait }, sched := rest, trace := s.trace ++ [.canTx c f] } := by
  rw [step_p2 s c x _ d rest h hs]
  obtain ⟨rfl, -, rfl, -, hsub⟩ := h
  exact phase2Turn_dispatch _ (.send f) hsub

/-- The turn that finds the transmit over ends the command and writes nothing (R149, `ACK_AFTER_SEND` false). -/
theorem step_transmitted {s : State} {c : Nat} {x : Channel} {d : CopyDraw} {rest : List Event}
    (h : s.atPlace c x .p2 .txWait) (hb : x.hw.txBusy = false) (hs : s.sched = .bridge d :: rest) :
    step s = .next
      { s with
        chans := s.chans.set c { x with lb := [] }, seq := { s.seq with sub := .ready }, sched := rest } := by
  rw [step_p2 s c x _ d rest h hs]
  obtain ⟨rfl, -, rfl, -, hsub⟩ := h
  have hturn := phase2Turn_txWait { s with sched := rest } hsub
  rw [State.p2TxWait, withSched_chan, hb] at hturn
  exact hturn

/-- Settles O24: the frame is issued, the environment's `TxDone` ends the transmit, and the next turn ends the command. -/
theorem sendIsCarriedOut : Obligations.SendIsCarriedOut := by
  unfold Obligations.SendIsCarriedOut
  intro s c x f d e rest h hs
  have hwaits {t : State} {y : Channel} := atPlace_set (t := t) (y := y) (n := .txWait) h
  refine Eq.trans (steps_succ_next 2 _ _ (step_send h hs)) ?_
  refine Eq.trans (steps_succ_next 1 _ _ (step_txDone (hwaits rfl rfl) rfl rfl)) ?_
  refine Eq.trans (steps_succ_next 0 _ _ (step_transmitted (hwaits (List.set_set ..) rfl) rfl rfl)) ?_
  simp

end Sys2Proof.Machine
end

section
/-! PROOFS. The query commands and the stub class (42_query_stub_commands.md R160 to R176): the action each returns, and the
two turns of `BRIDGE` that decode a query's line and deliver its reply (46_bridge_loop.md R243, R247, R249). -/

namespace Sys2Proof.Machine

open Sys2Proof

/-- The stub class has one rule, NACK, whatever the first byte (R164; `STUB_REPLY`, decision D11). -/
theorem stubCommand_eq (first : Option Byte) (s : State) : stubCommand first s = .next (s.act .nack) := rfl

/-- Settles O28: each row runs the stub class on its own first byte, the empty line on none (R165 to R176). -/
theorem stubCommandsNack : Obligations.StubCommandsNack := by
  unfold Obligations.StubCommandsNack
  intro s
  refine ⟨?_, fun b => stubCommand_eq (some b) s⟩
  simp only [List.forall_mem_cons, List.not_mem_nil, false_imp_iff, implies_true, and_true]
  exact
    ⟨stubCommand_eq (some 0x4C#8) s, stubCommand_eq (some 0x41#8) s, stubCommand_eq (some 0x50#8) s,
      stubCommand_eq (some 0x55#8) s, stubCommand_eq (some 0x73#8) s, stubCommand_eq (some 0x57#8) s,
      stubCommand_eq (some 0x4D#8) s, stubCommand_eq (some 0x6D#8) s, stubCommand_eq (some 0x58#8) s,
      stubCommand_eq (some 0x51#8) s, stubCommand_eq none s⟩

theorem p2Decode_eq_exec {s : State} {i : Instr} (hdec : decode (s.chan s.seq.chan).lb = .ok i) :
    s.p2Decode = exec i s := by
  unfold State.p2Decode
  rw [hdec]

/-- The turn at the decode of phase 2 runs the instruction of the line buffer (46_bridge_loop.md R243). -/
theorem step_decoded {s : State} {c : Nat} {x : Channel} {i : Instr} {d : CopyDraw} {rest : List Event}
    (h : s.atPlace c x .p2 .decode) (hs : s.sched = .bridge d :: rest) (hdec : decode x.lb = .ok i) :
    step s = exec i { s with sched := rest } := by
  rw [step_p2 s c x _ d rest h hs]
  obtain ⟨rfl, -, rfl, -, hsub⟩ := h
  exact (phase2Turn_decode { s with sched := rest } hsub).trans (p2Decode_eq_exec hdec)

/-- The write that ends a command: whole or dropped whole (R249), then the line buffer reset for the next `ReadLine` (R246). -/
theorem endCommand_reply (s : State) (bytes : List Byte) : (s.reply s.seq.chan bytes).endCommand =
    { s with
      chans := s.chans.set s.seq.chan { s.chan s.seq.chan with lb := [] }, seq := { s.seq with sub := .ready },
      trace := s.trace ++ if (s.chan s.seq.chan).busy then [] else [.serOut s.seq.chan bytes] } := by
  simp [State.endCommand, State.setLb, State.modChan, State.withSub, reply_trace]

/-- The turn that dispatches an action carried out by one write: every action but `Send` (R247). -/
theorem step_dispatchWrite {s : State} {c : Nat} {x : Channel} {a : Action} {bytes : List Byte} {d : CopyDraw}
    {rest : List Event} (ha : ∀ u : State, u.p2Dispatch a = (u.reply u.seq.chan bytes).endCommand)
    (h : s.atPlace c x .p2 (.dispatch a)) (hs : s.sched = .bridge d :: rest) :
    step s = .next
      { s with
        chans := s.chans.set c { x with lb := [] }, seq := { s.seq with sub := .ready }, sched := rest,
        trace := s.trace ++ if x.busy then [] else [.serOut c bytes] } := by
  rw [step_p2 s c x _ d rest h hs]
  obtain ⟨rfl, -, rfl, -, hsub⟩ := h
  rw [phase2Turn_dispatch { s with sched := rest } a hsub, ha, endCommand_reply]
  rfl

/-- Settles O27: the rule of each query is its reply, so the first turn leaves that action and the second writes it. -/
theorem queryCommandsReply : Obligations.QueryCommandsReply := by
  unfold Obligations.QueryCommandsReply
  intro row hrow
  have hexec : ∀ s, exec row.1 s = .next (s.act (.reply row.2.2)) := by
    fin_cases hrow <;> exact fun _ => rfl
  have hdec : ∀ trailing : List Byte, trailing.length + 1 ≤ Config.lineMax →
      decode (row.2.1 :: trailing) = .ok row.1 :=
    commandMap.1 (row.2.1, row.1) (by fin_cases hrow <;> decide)
  refine ⟨hexec, fun s c x trailing d e rest h hlb hlen hs => ?_⟩
  have hline : decode x.lb = .ok row.1 := by
    rw [hlb] at hlen ⊢
    exact hdec trailing hlen
  refine (steps_succ_next 1 _ _ ((step_decoded h hs hline).trans (hexec _))).trans ?_
  exact steps_succ_next 0 _ _
    (step_dispatchWrite (fun _ => rfl) ⟨h.chan, h.configured, h.holds, h.phase, rfl⟩ rfl)

end Sys2Proof.Machine
end

section
/-! PROOFS. The line written for a received frame (43_rx_encode.md R180 to R191): what it is made of, which output form
writes it, and that a frame that is not well formed has none. -/

namespace Sys2Proof.Machine

open Sys2Proof

/-! ## What an encoded line is made of -/

theorem not_isUpperHex_cr : ¬ isUpperHex cr := by
  unfold isUpperHex
  decide

theorem not_isUpperHex_bel : ¬ isUpperHex bel := by
  unfold isUpperHex
  decide

theorem cmdChar_ne_bel {ext rtr fd brs : Bool} {c : Byte} (hc : cmdChar ext rtr fd brs = some c) : c ≠ bel := by
  rintro rfl
  revert ext rtr fd brs
  decide

/-- The timestamp suffix of an encoded line (43_rx_encode.md R181). -/
def suffixDigits (tsflag : Bool) (ts : Nat) : List Byte := if tsflag then hexStr 4 (ts % 65536) else []

@[simp] theorem suffixDigits_length (tsflag : Bool) (ts : Nat) :
    (suffixDigits tsflag ts).length = if tsflag then 4 else 0 := by
  cases tsflag <;> simp [suffixDigits]

/-- The bytes between the leading character and the CR: the ID, the DLC character, the payload and the suffix. -/
def encodedDigits (f : CanFrame) (tsflag : Bool) (ts : Nat) : List Byte :=
  (frameLine f).tail ++ suffixDigits tsflag ts

theorem encodeFrame_eq (f : CanFrame) (tsflag : Bool) (ts : Nat) :
    encodeFrame f tsflag ts = frameLine f ++ suffixDigits tsflag ts ++ [cr] := rfl

theorem encodeFrame_eq_cons {f : CanFrame} {c : Byte} (hc : cmdChar f.ext f.rtr f.fd f.brs = some c)
    (tsflag : Bool) (ts : Nat) : encodeFrame f tsflag ts = c :: encodedDigits f tsflag ts ++ [cr] := by
  rw [encodeFrame_eq, encodedDigits, ← List.cons_append, ← frameLine_eq_cons hc]

/-- Each field of the line is written in uppercase hex digits (43_rx_encode.md R191 (b)). -/
theorem isUpperHex_of_mem_encodedDigits {f : CanFrame} {tsflag : Bool} {ts : Nat} :
    ∀ b ∈ encodedDigits f tsflag ts, isUpperHex b := by
  intro b hb
  have hdigit : ∃ d < 16, b = hexDigit d := by
    rcases List.mem_append.mp hb with hfields | hsuffix
    · exact frameLine_digits f b hfields
    · cases tsflag with
      | true => exact hexStr_digits 4 _ b hsuffix
      | false => cases hsuffix
  obtain ⟨d, hd, rfl⟩ := hdigit
  exact isUpperHex_hexDigit hd

/-- A byte that is no digit, such as CR or BEL, stands neither before nor among the digits of a line. -/
theorem not_mem_cons_encodedDigits {f : CanFrame} {tsflag : Bool} {ts : Nat} {b c : Byte} (hne : c ≠ b)
    (hb : ¬ isUpperHex b) : b ∉ c :: encodedDigits f tsflag ts := by
  intro hmem
  rcases List.mem_cons.mp hmem with heq | hdigit
  · exact hne heq.symm
  · exact hb (isUpperHex_of_mem_encodedDigits b hdigit)

/-- The length of an encoded line is that of its fields (43_rx_encode.md R191 (c)). -/
theorem encodeFrame_length {f : CanFrame} (hf : encodable f = true) (tsflag : Bool) (ts : Nat) :
    (encodeFrame f tsflag ts).length = idDigits f.ext + 2 + 2 * flen f + (if tsflag then 4 else 0) + 1 := by
  obtain ⟨c, hc⟩ := exists_cmdChar hf
  obtain ⟨-, hsized⟩ := Bool.and_eq_true_iff.mp hf
  rw [encodeFrame_eq, List.length_append, List.length_append, frameLine_length f c hc hsized, suffixDigits_length,
    List.length_singleton]

/-- Settles O15: the line is its leading character, digits, and CR; CR and BEL are neither of the first two. -/
theorem encodedLineProperties : Obligations.EncodedLineProperties := by
  unfold Obligations.EncodedLineProperties
  intro f tsflag ts hwf hsize
  have hf := encodable_of_wf hwf hsize
  obtain ⟨c, hc⟩ := exists_cmdChar hf
  have hline := encodeFrame_eq_cons hc tsflag ts
  refine ⟨?_, ?_, ?_, ?_, ?_⟩
  · rw [hline, List.getLast?_concat]
  · rw [hline, List.dropLast_concat]
    exact not_mem_cons_encodedDigits (cmdChar_ne_cr _ _ _ _ c hc) not_isUpperHex_cr
  · rw [hline, List.mem_append, List.mem_singleton, not_or]
    exact ⟨not_mem_cons_encodedDigits (cmdChar_ne_bel hc) not_isUpperHex_bel, by decide⟩
  · rw [hline, List.cons_append, List.tail_cons, List.dropLast_concat]
    exact isUpperHex_of_mem_encodedDigits
  · have hid : (if f.ext then 8 else 3) = idDigits f.ext := rfl
    rw [encodeFrame_length hf, hid]
    omega

/-! ## Steps d and e of phase 1 -/

theorem encodeRx_of_encodable {s : State} {f : CanFrame} (hf : encodable f = true) :
    s.encodeRx f = .next (s.withSub (.write (encodeFrame f (s.chan s.seq.chan).ch.flags.timestamp
      (s.chan s.seq.chan).ch.timestamp.toNat))) := by
  rw [State.encodeRx, if_pos hf]

theorem encodeRx_of_not_wf {s : State} {f : CanFrame} (hf : frameWf f = false) :
    s.encodeRx f = .refused .illFormedFrame := by
  rw [State.encodeRx, if_neg (by simp [encodable, hf])]

/-- A frame whose tags select no output form is refused at once, and any other ill-formed frame by the form its tags
select (43_rx_encode.md R180). -/
theorem p1Encode_of_not_wf {s : State} {g : CanFrame} (hg : frameWf g = false) :
    s.p1Encode g = .refused .illFormedFrame := by
  unfold State.p1Encode
  split
  · rfl
  · next i hi => rw [exec_rxInstr g i hi, encodeRx_of_not_wf hg]

/-! ## The obligations of the output forms -/

/-- Settles O30: each row is the output form that its tags select, and their leading character and ID width are the row's. -/
theorem outputForms : Obligations.OutputForms := by
  unfold Obligations.OutputForms
  rintro s o y suffix rfl rfl row hrow hwf
  have hform : rxInstr (o.toFrame row.2.2.2.1 row.2.2.2.2.1 row.2.2.2.2.2.1 row.2.2.2.2.2.2) = some (row.1 o) ∧
      cmdChar row.2.2.2.1 row.2.2.2.2.1 row.2.2.2.2.2.1 row.2.2.2.2.2.2 = some row.2.1 ∧
      idDigits row.2.2.2.1 = row.2.2.1 := by
    fin_cases hrow <;> exact ⟨rfl, rfl, rfl⟩
  obtain ⟨hsel, hchar, hdigits⟩ := hform
  have hline := encodeOps_eq hchar o
  rw [hdigits, encodeOps] at hline
  rw [exec_rxInstr _ _ hsel, encodeRx_of_encodable hwf, encodeFrame_eq, hline]
  simp [payloadHex, suffixDigits, cr]

/-- Settles O31: the turn is the encoding of the frame held at it, and both ways to that encoding refuse the frame. -/
theorem illFormedFrameRefused : Obligations.IllFormedFrameRefused := by
  unfold Obligations.IllFormedFrameRefused
  refine ⟨fun s c x g d rest h hs hg => ?_, fun f i s hi hf => ?_⟩
  · rw [step_p1 s c x _ d rest h hs]
    exact (phase1Turn_encode { s with sched := rest } d g h.sub).trans (p1Encode_of_not_wf hg)
  · rw [exec_rxInstr f i hi, encodeRx_of_not_wf hf]

end Sys2Proof.Machine
end

section
/-! PROOFS. The channel state machine (44_channel_state_machine.md): which line may write `is_open` and which the bit rates,
what a run keeps of them up to the next `O`, Set mode from outside the command set, and the transmit wait. -/

namespace Sys2Proof.Machine

open Sys2Proof

/-! ## Which line writes which register -/

/-- What may become of `is_open` and of the two bit rates (R200, R203, R204), where `first b` says that the line of first
byte b was decoded: `O` and `C` write `is_open`, `S` and `Y` a rate, and the default of `O` only a nominal rate never set. -/
structure RegisterWrites (first : Byte → Prop) (x x' : ChannelState) : Prop where
  isOpen : x'.isOpen = x.isOpen ∨ (first 0x4F#8 ∧ x'.isOpen = true) ∨ (first 0x43#8 ∧ x'.isOpen = false)
  nominal : ¬ first 0x53#8 → x.cfg.nominalBitrate ≠ 0#32 → x'.cfg.nominalBitrate = x.cfg.nominalBitrate
  data : ¬ first 0x59#8 → x'.cfg.dataBitrate = x.cfg.dataBitrate

theorem RegisterWrites.refl (first : Byte → Prop) (x : ChannelState) : RegisterWrites first x x :=
  ⟨.inl rfl, fun _ _ => rfl, fun _ => rfl⟩

theorem RegisterWrites.mono {first first' : Byte → Prop} {x x' : ChannelState} (h : RegisterWrites first x x')
    (hf : ∀ b, first b → first' b) : RegisterWrites first' x x' where
  isOpen := h.isOpen.imp_right (Or.imp (And.imp_left (hf _)) (And.imp_left (hf _)))
  nominal hb := h.nominal (mt (hf _) hb)
  data hb := h.data (mt (hf _) hb)

/-- The rule of the instruction only returns an action. -/
def ActsOnly (i : Instr) : Prop := ∀ s, ∃ a, exec i s = .next (s.act a)

theorem sendFrame_acts (ext rtr fd brs : Bool) (op : Arg FrameOps) (s : State) :
    ∃ a, sendFrame ext rtr fd brs op s = .next (s.act a) := by
  cases op with
  | ok o => exact ⟨.send (o.toFrame ext rtr fd brs), rfl⟩
  | bad why => exact ⟨.nack, rfl⟩

/-- The first bytes of the control commands (40_control_commands.md R130 to R134). -/
def controlBytes : List Byte := [0x4F#8, 0x43#8, 0x53#8, 0x59#8, 0x5A#8]

/-- Row by row of the command map (30_encoding.md R92), the control commands first. -/
theorem commandTable_actsOnly (ln : List Byte) : ∀ row ∈ commandTable,
    row.1 ∈ controlBytes ∨ ActsOnly (row.2 ln) := by
  simp only [commandTable, List.forall_mem_cons, List.not_mem_nil, false_imp_iff, implies_true, and_true]
  exact
    ⟨.inl (by decide), .inl (by decide), .inl (by decide), .inl (by decide), .inl (by decide),
      .inr (sendFrame_acts _ _ _ _ _), .inr (sendFrame_acts _ _ _ _ _), .inr (sendFrame_acts _ _ _ _ _),
      .inr (sendFrame_acts _ _ _ _ _), .inr (sendFrame_acts _ _ _ _ _), .inr (sendFrame_acts _ _ _ _ _),
      .inr (sendFrame_acts _ _ _ _ _), .inr (sendFrame_acts _ _ _ _ _),
      .inr fun _ => ⟨_, rfl⟩, .inr fun _ => ⟨_, rfl⟩, .inr fun _ => ⟨_, rfl⟩, .inr fun _ => ⟨_, rfl⟩,
      .inr fun _ => ⟨_, rfl⟩, .inr fun _ => ⟨_, rfl⟩, .inr fun _ => ⟨_, rfl⟩, .inr fun _ => ⟨_, rfl⟩,
      .inr fun _ => ⟨_, rfl⟩, .inr fun _ => ⟨_, rfl⟩, .inr fun _ => ⟨_, rfl⟩, .inr fun _ => ⟨_, rfl⟩,
      .inr fun _ => ⟨_, rfl⟩, .inr fun _ => ⟨_, rfl⟩⟩

theorem decodeFirst_actsOnly {b : Byte} (hb : b ∉ controlBytes) (ln : List Byte) : ActsOnly (decodeFirst b ln) := by
  unfold decodeFirst
  cases hrow : commandTable.find? (fun row => row.1 == b) with
  | some row =>
    have hbyte : row.1 = b := by simpa using List.find?_some hrow
    exact (commandTable_actsOnly ln row (List.mem_of_find?_eq_some hrow)).resolve_left (hbyte ▸ hb)
  | none => exact fun _ => ⟨_, rfl⟩

/-- The rule of the instruction, on the configured channel served, writes these registers as `first` allows. -/
def WritesFor (first : Byte → Prop) (i : Instr) : Prop :=
  ∀ s t : State, s.seq.chan < s.chans.length → exec i s = .next t →
    RegisterWrites first (s.chan s.seq.chan).ch (t.chan s.seq.chan).ch

/-- A rule that puts y in the place of the channel served. -/
theorem registerWrites_of_set {first : Byte → Prop} {s t u : State} {i : Instr} {y : Channel}
    (hc : s.seq.chan < s.chans.length) (h : exec i s = .next t) (hu : exec i s = .next u)
    (hchans : u.chans = s.chans.set s.seq.chan y) (hy : RegisterWrites first (s.chan s.seq.chan).ch y.ch) :
    RegisterWrites first (s.chan s.seq.chan).ch (t.chan s.seq.chan).ch := by
  rw [hu] at h
  cases h
  have hget : t.chan s.seq.chan = y := by simp [State.chan, hchans, List.getD_eq_getElem?_getD, hc]
  rwa [hget]

theorem ActsOnly.writesFor {i : Instr} (h : ActsOnly i) (first : Byte → Prop) : WritesFor first i := by
  intro s t hc hexec
  obtain ⟨a, ha⟩ := h s
  exact registerWrites_of_set hc hexec ha (set_chan_self s _ hc).symm (.refl _ _)

theorem exec_setBitrate_ok (k : Fin 9) (s : State) : exec (.setBitrate (.ok k)) s =
    .next ((s.modCfg s.seq.chan (fun g => { g with nominalBitrate := baud k })).act .ack) := rfl

theorem exec_setDataRate_ok (r : FdRate) (s : State) : exec (.setDataRate (.ok r)) s =
    .next ((s.modCfg s.seq.chan (fun g => { g with dataBitrate := fdRate r })).act .ack) := rfl

section ControlCommands

variable {first : Byte → Prop}

theorem openChannel_writesFor (hb : first 0x4F#8) : WritesFor first .openChannel := fun s _ hc h =>
  registerWrites_of_set hc h (openCommand s _ _ _ rfl hc rfl rfl) rfl
    ⟨.inr (.inl ⟨hb, rfl⟩), fun _ hset => if_neg hset, fun _ => rfl⟩

theorem closeChannel_writesFor (hb : first 0x43#8) : WritesFor first .closeChannel := fun s _ hc h =>
  registerWrites_of_set hc h (closeCommand s _ _ rfl hc rfl) rfl
    ⟨.inr (.inr ⟨hb, rfl⟩), fun _ _ => rfl, fun _ => rfl⟩

theorem setBitrate_writesFor (hb : first 0x53#8) (arg : Arg (Fin 9)) : WritesFor first (.setBitrate arg) := by
  cases arg with
  | ok k =>
    exact fun s _ hc h => registerWrites_of_set hc h (exec_setBitrate_ok k s) rfl
      ⟨.inl rfl, fun hne => absurd hb hne, fun _ => rfl⟩
  | bad why => exact ActsOnly.writesFor (fun _ => ⟨.nack, rfl⟩) first

theorem setDataRate_writesFor (hb : first 0x59#8) (arg : Arg FdRate) : WritesFor first (.setDataRate arg) := by
  cases arg with
  | ok r =>
    exact fun s _ hc h => registerWrites_of_set hc h (exec_setDataRate_ok r s) rfl
      ⟨.inl rfl, fun _ _ => rfl, fun hne => absurd hb hne⟩
  | bad why => exact ActsOnly.writesFor (fun _ => ⟨.nack, rfl⟩) first

theorem setTimestamp_writesFor (arg : Arg Bool) : WritesFor first (.setTimestamp arg) := by
  cases arg with
  | ok on =>
    exact fun s _ hc h => registerWrites_of_set hc h ((timestampCommand s _ _ rfl hc rfl).1 on) rfl
      ⟨.inl rfl, fun _ _ => rfl, fun _ => rfl⟩
  | bad why => exact ActsOnly.writesFor (fun _ => ⟨.nack, rfl⟩) first

end ControlCommands

/-- A decoded line writes these registers as its first byte allows. -/
theorem decode_writesFor {ln : List Byte} {i : Instr} (h : decode ln = .ok i) :
    WritesFor (fun b => ln.head? = some b) i := by
  unfold decode at h
  split at h
  · cases h
    cases ln with
    | nil => exact ActsOnly.writesFor (fun _ => ⟨.nack, rfl⟩) _
    | cons b rest =>
      by_cases hb : b ∈ controlBytes
      · simp only [controlBytes, List.mem_cons, List.not_mem_nil, or_false] at hb
        rcases hb with rfl | rfl | rfl | rfl | rfl
        · exact openChannel_writesFor rfl
        · exact closeChannel_writesFor rfl
        · exact setBitrate_writesFor (first := fun b => (0x53#8 :: rest).head? = some b) rfl _
        · exact setDataRate_writesFor (first := fun b => (0x59#8 :: rest).head? = some b) rfl _
        · exact setTimestamp_writesFor _
      · exact (decodeFirst_actsOnly hb (b :: rest)).writesFor _
  · cases h

/-! ## Every step -/

theorem p2Decode_of_error {s : State} {e : DecodeReject} (hdec : decode (s.chan s.seq.chan).lb = .error e) :
    s.p2Decode = .refused .lineTooLong := by
  unfold State.p2Decode
  rw [hdec]

/-- A turn at the decode of phase 2 that answers a next state ran the instruction of the line buffer. -/
theorem exec_of_step_decode {s t : State} {d : CopyDraw} {rest : List Event} (hs : s.sched = .bridge d :: rest)
    (hp : s.seq.phase = .p2) (hm : s.seq.sub = .decode) (h : step s = .next t) :
    s.seq.chan < s.chans.length ∧
      ∃ i, decode (s.chan s.seq.chan).lb = .ok i ∧ exec i { s with sched := rest } = .next t := by
  have hc : s.seq.chan < s.chans.length := by
    by_contra hc
    rw [step_cons s _ rest hs] at h
    exact not_bridge_of_next (s := { s with sched := rest }) hc rfl h d rfl
  have hplace : s.atPlace s.seq.chan (s.chan s.seq.chan) .p2 .decode := ⟨rfl, hc, rfl, hp, hm⟩
  cases hdec : decode (s.chan s.seq.chan).lb with
  | ok i => exact ⟨hc, i, rfl, (step_decoded hplace hs hdec).symm.trans h⟩
  | error e =>
    rw [step_p2 s _ _ _ d rest hplace hs, phase2Turn_decode { s with sched := rest } hm,
      p2Decode_of_error (s := { s with sched := rest }) hdec] at h
    cases h

/-- What a step does to `is_open` and to the bit rates of channel c (R200, R203, R204). -/
theorem step_registerWrites (s t : State) (c : Nat) (h : step s = .next t) :
    RegisterWrites (s.decodes c) (s.chan c).ch (t.chan c).ch := by
  rcases step_ch s t c h with heq | ⟨-, -, heq⟩ | ⟨m, -, -, heq⟩ | ⟨⟨d, rest, hs⟩, rfl, hp, hm, -⟩
  · rw [heq]; exact .refl _ _
  · rw [heq]; exact ⟨.inl rfl, fun _ _ => rfl, fun _ => rfl⟩
  · rw [heq]; exact ⟨.inl rfl, fun _ _ => rfl, fun _ => rfl⟩
  · obtain ⟨hc, i, hdec, hexec⟩ := exec_of_step_decode hs hp hm h
    exact (decode_writesFor hdec { s with sched := rest } t hc hexec).mono fun b hb => ⟨⟨d, rest, hs⟩, rfl, hp, hm, hb⟩

/-- Settles O53: of the writers of the control registers only the rules of `O` and `C` reach `is_open`. -/
theorem onlyOpenCloseChangeIsOpen : Obligations.OnlyOpenCloseChangeIsOpen := by
  unfold Obligations.OnlyOpenCloseChangeIsOpen
  intro s t c hstep hne
  rcases (step_registerWrites s t c hstep).isOpen with heq | ⟨⟨hs, hq, hp, hm, hb⟩, ho⟩ | ⟨⟨hs, hq, hp, hm, hb⟩, ho⟩
  · exact absurd heq hne
  · exact ⟨hs, hq, hp, hm, .inl ⟨hb, ho⟩⟩
  · exact ⟨hs, hq, hp, hm, .inr ⟨hb, ho⟩⟩

/-! ## A stored rate -/

theorem step_length {s t : State} (h : step s = .next t) : t.chans.length = s.chans.length := by
  cases hs : s.sched with
  | nil =>
    rw [step_nil s hs] at h
    cases h
    rfl
  | cons e rest =>
    obtain ⟨-, hlen, -⟩ := stepChangesOneChannel s t e rest hs h
    exact hlen

/-- What every step from a state that is ok keeps, a run through such states keeps. -/
theorem steps_keep {P ok : State → Prop} (hP : ∀ s t, step s = .next t → ok s → P s → P t) (n : Nat) :
    ∀ s t, steps n s = .next t → (∀ m < n, ∀ v, steps m s = .next v → ok v) → P s → P t := by
  induction n with
  | zero =>
    intro s t h _ hs
    cases h
    exact hs
  | succ n ih =>
    intro s t h hok hs
    cases hstep : step s with
    | next v =>
      rw [steps_succ_next n s v hstep] at h
      have hv : ∀ m < n, ∀ w, steps m v = .next w → ok w := fun m hm w hw =>
        hok (m + 1) (Nat.succ_lt_succ hm) w ((steps_succ_next m s v hstep).trans hw)
      exact ih v t h hv (hP s v hstep (hok 0 n.succ_pos s rfl) hs)
    | fault r =>
      rw [steps_succ, hstep] at h
      cases h
    | refused r =>
      rw [steps_succ, hstep] at h
      cases h

section Run

variable {s t : State} {c n : Nat} (h : steps n s = .next t)

include h

theorem steps_length : t.chans.length = s.chans.length :=
  steps_keep (P := fun v => v.chans.length = s.chans.length) (ok := fun _ => True)
    (fun _ _ hstep _ hv => (step_length hstep).trans hv) n s t h (fun _ _ _ _ => trivial) rfl

/-- A nominal rate that was set stays over a run without an `S` on that channel (R203, R208). -/
theorem steps_nominal (hnone : s.noneDecoded n c 0x53#8) (hset : (s.chan c).ch.cfg.nominalBitrate ≠ 0#32) :
    (t.chan c).ch.cfg.nominalBitrate = (s.chan c).ch.cfg.nominalBitrate :=
  steps_keep (P := fun v => (v.chan c).ch.cfg.nominalBitrate = (s.chan c).ch.cfg.nominalBitrate)
    (fun u v hstep hno hu => ((step_registerWrites u v c hstep).nominal hno (hu ▸ hset)).trans hu) n s t h hnone rfl

/-- The data rate stays over a run without a `Y` on that channel (R204, R208). -/
theorem steps_data (hnone : s.noneDecoded n c 0x59#8) :
    (t.chan c).ch.cfg.dataBitrate = (s.chan c).ch.cfg.dataBitrate :=
  steps_keep (P := fun v => (v.chan c).ch.cfg.dataBitrate = (s.chan c).ch.cfg.dataBitrate)
    (fun u v hstep hno hu => ((step_registerWrites u v c hstep).data hno).trans hu) n s t h hnone rfl

/-- An `O` after a run ends with `CanInit` of the configuration it keeps (R201): a rate is the one held before the run
unless its own command came between, or `O` replaced a nominal rate never set by the default. -/
theorem openChannel_after_steps {w : State} (hc : c < s.chans.length) (hq : t.seq.chan = c)
    (hopen : exec .openChannel t = .next w) :
    ∃ pre g, w.trace = pre ++ [.canInit c g, .rxIrqClassEnable c, .irqEnable c Config.irqPriority] ∧
      (s.noneDecoded n c 0x53#8 → (s.chan c).ch.cfg.nominalBitrate ≠ 0#32 →
        g.nominalBitrate = (s.chan c).ch.cfg.nominalBitrate) ∧
      (s.noneDecoded n c 0x59#8 → g.dataBitrate = (s.chan c).ch.cfg.dataBitrate) ∧
      (w.chan c).ch.cfg = g ∧ (w.chan c).ch.isOpen = true := by
  have hct : c < t.chans.length := steps_length h ▸ hc
  rw [openCommand t c _ _ hq hct rfl rfl] at hopen
  cases hopen
  rw [chan_set _ _ _ _ c _ hct]
  refine ⟨_, _, rfl, fun hnone hset => ?_, steps_data h, rfl, rfl⟩
  have hkept := steps_nominal h hnone hset
  exact (if_neg (hkept ▸ hset)).trans hkept

end Run

theorem baud_ne_zero (k : Fin 9) : baud k ≠ 0#32 := by
  revert k
  decide

/-- Settles O21: the rule stores the rate and emits nothing, and an `O` after the run carries what the run kept. -/
theorem storedRateReachesNextOpen : Obligations.StoredRateReachesNextOpen := by
  unfold Obligations.StoredRateReachesNextOpen
  rintro s t u w c n rfl hc hrun hq hopen
  refine ⟨fun k hstore hnone => ?_, fun r hstore hnone => ?_⟩
  · rw [exec_setBitrate_ok] at hstore
    cases hstore
    obtain ⟨pre, g, htrace, hnom, hdata, hcfg, ho⟩ :=
      openChannel_after_steps hrun (by simpa [modCfg_eq] using hc) hq hopen
    rw [act_chan, modCfg_eq, chan_modChan_same s _ _ hc] at hnom hdata
    have hrate := hnom hnone (baud_ne_zero k)
    exact ⟨rfl, pre, g, htrace, hrate, hrate ▸ baud_ne_zero k, hdata, hcfg, ho⟩
  · rw [exec_setDataRate_ok] at hstore
    cases hstore
    obtain ⟨pre, g, htrace, hnom, hdata, hcfg, ho⟩ :=
      openChannel_after_steps hrun (by simpa [modCfg_eq] using hc) hq hopen
    rw [act_chan, modCfg_eq, chan_modChan_same s _ _ hc] at hnom hdata
    exact ⟨rfl, pre, g, htrace, hdata hnone, hnom, hcfg, ho⟩

/-! ## Set mode and the transmit wait -/

/-- Settles O22: on a configured channel the event is `SetMode`, which is guarded by `is_open` (R205). -/
theorem setModeGuard : Obligations.SetModeGuard := by
  unfold Obligations.SetModeGuard
  rintro s c m x rest hs hc rfl
  rw [step_onChannel s _ rest c _ hs hc (fun _ => rfl), State.setMode]
  refine ⟨fun ho => ?_, fun ho => ?_⟩
  · exact congrArg _ (if_neg (by simp [ho]))
  · exact congrArg _ (if_pos ho)

/-- A poll of `TX_WAIT` while the transmit is in flight (R206 (i)). -/
theorem step_txWait {s : State} {c : Nat} {x : Channel} {d : CopyDraw} {rest : List Event}
    (h : s.atPlace c x .p2 .txWait) (hb : x.hw.txBusy = true) (hs : s.sched = .bridge d :: rest) :
    step s = .next { s with sched := rest } := by
  rw [step_p2 s c x _ d rest h hs]
  obtain ⟨rfl, -, rfl, -, hsub⟩ := h
  rw [phase2Turn_txWait { s with sched := rest } hsub, State.p2TxWait]
  exact congrArg _ (if_pos hb)

/-- Settles O25, by induction on the turns: each polls and leaves `BRIDGE` where it was. -/
theorem transmitWaitStalls : Obligations.TransmitWaitStalls := by
  unfold Obligations.TransmitWaitStalls
  intro s c x ds rest h hb hs
  induction ds generalizing s with
  | nil =>
    cases s
    cases hs
    rfl
  | cons d ds ih =>
    refine (steps_succ_next ds.length _ _ (step_txWait h hb hs)).trans ?_
    exact ih _ ⟨h.chan, h.configured, h.holds, h.phase, h.sub⟩ rfl

end Sys2Proof.Machine
end

section
/-! PROOFS. The whole handler (45_frame_store_isr.md R220 to R228), said once: which slots take which frames, what is
left of the controller's receive side, and what it emits; two such writes in a row are one (R227). -/

namespace Sys2Proof.Machine

open Sys2Proof

/-! ## Frames put into slots -/

/-- The slots after those that `w` gives a frame took it. -/
def storeSlots (w : Nat → Option HwFrame) (l : List RxSlot) : List RxSlot :=
  l.mapIdx (fun i x => ((w i).map captured).getD x)

@[simp] theorem storeSlots_length (w : Nat → Option HwFrame) (l : List RxSlot) : (storeSlots w l).length = l.length :=
  List.length_mapIdx

theorem storeSlots_getElem? (w : Nat → Option HwFrame) (l : List RxSlot) (i : Nat) :
    (storeSlots w l)[i]? = l[i]?.map ((w i).map captured).getD :=
  List.getElem?_mapIdx

theorem storeSlots_getElem?_some {w : Nat → Option HwFrame} {l : List RxSlot} {i : Nat} {h : HwFrame}
    (hw : w i = some h) (hi : i < l.length) : (storeSlots w l)[i]? = some (captured h) := by
  rw [storeSlots_getElem?, hw, List.getElem?_eq_getElem hi]
  rfl

theorem storeSlots_getElem?_none {w : Nat → Option HwFrame} (l : List RxSlot) {i : Nat} (hw : w i = none) :
    (storeSlots w l)[i]? = l[i]? := by
  rw [storeSlots_getElem?, hw]
  exact Option.map_id'

/-- A list of slots is the one stored when it has the frames of `w` and is elsewhere as before. -/
theorem eq_storeSlots {w : Nat → Option HwFrame} {l l' : List RxSlot} (hlen : l'.length = l.length)
    (hsome : ∀ i h, i < l.length → w i = some h → l'[i]? = some (captured h))
    (hnone : ∀ i, i < l.length → w i = none → l'[i]? = l[i]?) : l' = storeSlots w l := by
  refine List.ext_getElem? fun i => ?_
  by_cases hi : i < l.length
  · cases hw : w i with
    | some h => rw [hsome i h hi hw, storeSlots_getElem?_some hw hi]
    | none => rw [hnone i hi hw, storeSlots_getElem?_none l hw]
  · rw [List.getElem?_eq_none (by omega), List.getElem?_eq_none (by rw [storeSlots_length]; omega)]

theorem storeSlots_none (l : List RxSlot) : storeSlots (fun _ => none) l = l :=
  (eq_storeSlots rfl (fun _ _ _ hw => by cases hw) (fun _ _ _ => rfl)).symm

/-- Of two stores in a row a slot keeps the newer frame (R227). -/
theorem storeSlots_storeSlots (w w' : Nat → Option HwFrame) (l : List RxSlot) :
    storeSlots w' (storeSlots w l) = storeSlots (fun i => (w' i).or (w i)) l := by
  refine List.ext_getElem? fun i => ?_
  simp only [storeSlots_getElem?, Option.map_map]
  congr 1
  cases w' i <;> rfl

/-- The sequencer after the slots of channel c that `w` gives a frame took it: a copy-out of one of them in progress
remembers the frame overwritten (20_memory.md R72). -/
def noteStored (q : Sequencer) (c : Nat) (w : Nat → Option HwFrame) (x : Channel) : Sequencer :=
  if (w q.slot).isSome then overwritten q c q.slot (x.slot q.slot).frame else q

theorem noteStored_none {q : Sequencer} {w : Nat → Option HwFrame} (c : Nat) (x : Channel) (h : w q.slot = none) :
    noteStored q c w x = q := by
  rw [noteStored, h]
  rfl

@[simp] theorem noteStored_slot (q : Sequencer) (c : Nat) (w : Nat → Option HwFrame) (x : Channel) :
    (noteStored q c w x).slot = q.slot := by
  unfold noteStored
  split
  · exact overwritten_slot ..
  · rfl

/-- `BRIDGE` stands at no copy-out on channel c: no overwritten frame is remembered. -/
def Sequencer.unnoticed (q : Sequencer) (c : Nat) : Prop := ∀ old, overwritten q c q.slot old = q

theorem noteStored_of_unnoticed {q : Sequencer} {c : Nat} (h : q.unnoticed c) (w : Nat → Option HwFrame) (x : Channel) :
    noteStored q c w x = q := by
  unfold noteStored
  split
  · exact h _
  · rfl

theorem unnoticed_of_notCopying {q : Sequencer} {c : Nat}
    (h : q.phase ≠ .p1 ∨ (∀ earlier, q.sub ≠ .copy earlier) ∨ q.chan ≠ c) : q.unnoticed c := by
  intro old
  unfold overwritten
  split
  · next earlier hp hm =>
    rcases h with h | h | h
    · exact absurd hp h
    · exact absurd hm (h earlier)
    · exact if_neg fun hcopy => h hcopy.1
  · rfl

/-! ## The effect of the handler, or of a part of it -/

/-- On channel c the slots took the frames of `w`, the controller's receive side became `rx`, and `out` was emitted. -/
def State.stored (s : State) (c : Nat) (w : Nat → Option HwFrame) (rx : RxView) (out : List Output) : State :=
  { chans := s.chans.set c
      { s.chan c with slots := storeSlots w (s.chan c).slots, hw := { (s.chan c).hw with rx := rx } },
    seq := noteStored s.seq c w (s.chan c), sched := s.sched, trace := s.trace ++ out }

@[simp] theorem stored_length (s : State) (c : Nat) (w : Nat → Option HwFrame) (rx : RxView) (out : List Output) :
    (s.stored c w rx out).chans.length = s.chans.length :=
  List.length_set ..

theorem stored_chan {s : State} {c : Nat} (w : Nat → Option HwFrame) (rx : RxView) (out : List Output)
    (hc : c < s.chans.length) :
    (s.stored c w rx out).chan c =
      { s.chan c with slots := storeSlots w (s.chan c).slots, hw := { (s.chan c).hw with rx := rx } } :=
  chan_set _ _ _ _ c _ hc

/-- The channel stored to does not depend on the schedule. -/
theorem stored_withSched_chan {s : State} {c : Nat} (l : List Event) (w : Nat → Option HwFrame) (rx : RxView)
    (out : List Output) (hc : c < s.chans.length) :
    (({ s with sched := l } : State).stored c w rx out).chan c =
      { s.chan c with slots := storeSlots w (s.chan c).slots, hw := { (s.chan c).hw with rx := rx } } :=
  chan_set _ _ _ _ c _ hc

/-- The controller presents a view; no slot is written. -/
theorem modRx_eq_stored (s : State) (c : Nat) (v : RxView) :
    s.modRx c (fun _ => v) = s.stored c (fun _ => none) v [] := by
  rw [State.stored, storeSlots_none, noteStored_none c _ rfl, List.append_nil]
  rfl

/-- Two stores in a row are one, where the sequencer does not note two frames of one slot. -/
theorem stored_stored {s : State} {c : Nat} {w w' : Nat → Option HwFrame} (rx rx' : RxView) (out out' : List Output)
    (hc : c < s.chans.length) (hq : w s.seq.slot = none ∨ w' s.seq.slot = none ∨ s.seq.unnoticed c) :
    (s.stored c w rx out).stored c w' rx' out' = s.stored c (fun i => (w' i).or (w i)) rx' (out ++ out') := by
  have hseq : noteStored (noteStored s.seq c w (s.chan c)) c w' ((s.stored c w rx out).chan c) =
      noteStored s.seq c (fun i => (w' i).or (w i)) (s.chan c) := by
    rcases hq with hq | hq | hq
    · have hslot : ((s.stored c w rx out).chan c).slot s.seq.slot = (s.chan c).slot s.seq.slot := by
        simp only [stored_chan w rx out hc, Channel.slot, List.getD_eq_getElem?_getD, storeSlots_getElem?_none _ hq]
      rw [noteStored_none c _ hq, noteStored, noteStored, hslot, hq, Option.or_none]
    · rw [noteStored_none c _ (by rwa [noteStored_slot])]
      simp only [noteStored, hq, Option.none_or]
    · simp only [noteStored_of_unnoticed hq]
  rw [State.stored, stored_chan w rx out hc, storeSlots_storeSlots]
  rw [stored_chan w rx out hc] at hseq
  simp only [State.stored, List.set_set, List.append_assoc, hseq]

/-! ## The arms -/

/-- Only the slot of one source takes a frame. -/
def onlySlot (src : RxSource) (h : Option HwFrame) (i : Nat) : Option HwFrame := if i = slotOf src then h else none

theorem set_eq_storeSlots (src : RxSource) (h : HwFrame) (l : List RxSlot) :
    l.set (slotOf src) (captured h) = storeSlots (onlySlot src (some h)) l := by
  refine eq_storeSlots (List.length_set ..) (fun i h' hi hw => ?_) (fun i _ hw => ?_)
  · unfold onlySlot at hw
    split at hw
    · next hs => subst hs; cases hw; exact List.getElem?_set_self hi
    · cases hw
  · refine List.getElem?_set_ne fun hs => ?_
    rw [onlySlot, if_pos hs.symm] at hw
    cases hw

/-- The arm of a FIFO that presents a frame (R222, R223). -/
theorem armRead_stored {s : State} {c : Nat} {v : RxView} {src : RxSource} (hc : c < s.chans.length)
    (hrx : (s.chan c).hw.rx = v) (hf : (v.front src).isSome = true) :
    s.armRead c src = s.stored c (onlySlot src (v.front src)) (v.afterRead src) [.hwRead c src] := by
  subst hrx
  obtain ⟨h, hf⟩ := Option.isSome_iff_exists.mp hf
  have hseq : overwritten s.seq c (slotOf src) ((s.chan c).slot (slotOf src)).frame =
      noteStored s.seq c (onlySlot src (some h)) (s.chan c) := by
    unfold noteStored onlySlot
    by_cases hslot : s.seq.slot = slotOf src
    · rw [if_pos hslot, hslot]
      rfl
    · rw [if_neg hslot, overwritten_other _ _ _ _ (.inr hslot)]
      rfl
  rw [armRead_eq s c src h hc hf, hf, State.stored, set_eq_storeSlots, hseq]

/-- The arm of the dedicated buffers (R224). -/
theorem armAllDedicated_stored {s : State} {c : Nat} {v : RxView} (hc : c < s.chans.length)
    (hrx : (s.chan c).hw.rx = v) (hl : v.ded.length + 2 ≤ (s.chan c).slots.length) :
    s.armAllDedicated c 0 (s.chan c).hw.rx.ded.length =
      s.stored c (dedicatedFrame v.ded 0 v.ded.length) { v with ded := List.replicate v.ded.length none }
        (dedicatedOutputs c v.ded 0 v.ded.length) := by
  subst hrx
  obtain ⟨slots, ded, q, heq, hslots, hded, hget, hcleared, hq⟩ := armAllDedicated_spec _ s c 0 hc hl
  have hstored : slots = storeSlots (dedicatedFrame (s.chan c).hw.rx.ded 0 (s.chan c).hw.rx.ded.length)
      (s.chan c).slots :=
    eq_storeSlots hslots (fun i h hi hw => by rw [hget i (hslots ▸ hi), hw])
      (fun i hi hw => by rw [hget i (hslots ▸ hi), hw])
  have hempty : ded = List.replicate (s.chan c).hw.rx.ded.length none := by
    refine List.ext_getElem (by simpa using hded) fun j hj _ => ?_
    rw [List.getElem_replicate, ← List.getD_eq_getElem ded none hj, hcleared j, if_pos (by omega)]
  have hnoted : q = noteStored s.seq c (dedicatedFrame (s.chan c).hw.rx.ded 0 (s.chan c).hw.rx.ded.length)
      (s.chan c) := by
    rw [hq, noteStored]
    by_cases hchan : s.seq.chan = c
    · simp only [hchan, true_and]
    · rw [if_neg fun h => hchan h.1, overwritten_other _ _ _ _ (.inl hchan), ite_self]
  rw [heq, hstored, hempty, hnoted, State.stored]

/-- The frames an arm takes when its cause is in the set. -/
def framesIf (cause : Bool) (w : Nat → Option HwFrame) (i : Nat) : Option HwFrame := if cause then w i else none

/-- An arm that runs after others, when its cause is in the set. -/
theorem armIf_stored {s : State} {c : Nat} {cause : Bool} {arm : State → State} {w w' : Nat → Option HwFrame}
    {rx rx' : RxView} {out out' : List Output} (hc : c < s.chans.length)
    (hq : ∀ i, w i = none ∨ framesIf cause w' i = none)
    (harm : cause = true → arm (s.stored c w rx out) = (s.stored c w rx out).stored c w' rx' out') :
    (s.stored c w rx out).armIf cause arm =
      s.stored c (fun i => (framesIf cause w' i).or (w i)) (if cause then rx' else rx)
        (out ++ if cause then out' else []) := by
  cases cause with
  | true => exact (harm rfl).trans (stored_stored rx rx' out out' hc ((hq _).imp_right .inl))
  | false => rw [if_neg Bool.false_ne_true, if_neg Bool.false_ne_true, List.append_nil]; rfl

/-- The end of the handler (R225): an output and a change of the receive side. -/
theorem stored_emit_modRx {s : State} {c : Nat} (w : Nat → Option HwFrame) (rx : RxView) (out : List Output)
    (o : Output) (f : RxView → RxView) (hc : c < s.chans.length) :
    ((s.stored c w rx out).emit o).modRx c f = s.stored c w (f rx) (out ++ [o]) := by
  rw [modRx_eq, State.modChan, emit_chan, stored_chan w rx out hc, emit_chans]
  simp only [State.stored, State.emit, List.set_set, List.append_assoc]

/-! ## The whole handler -/

/-- The frame of FIFO 0, where the view names it. -/
def fifo0Frames (v : RxView) : Nat → Option HwFrame := framesIf v.pending.f0n (onlySlot .fifo0 v.fifo0.head?)

/-- The frame of FIFO 1, where the view names it. -/
def fifo1Frames (v : RxView) : Nat → Option HwFrame := framesIf v.pending.f1n (onlySlot .fifo1 v.fifo1.head?)

/-- The frames of the dedicated buffers, where the view names them. -/
def dedicatedFrames (v : RxView) : Nat → Option HwFrame :=
  framesIf v.pending.drx (dedicatedFrame v.ded 0 v.ded.length)

/-- The frames of both FIFOs. -/
def fifoFrames (v : RxView) (i : Nat) : Option HwFrame := (fifo1Frames v i).or (fifo0Frames v i)

theorem fifo0Frames_eq_none {i : Nat} (v : RxView) (h : i ≠ 0) : fifo0Frames v i = none := by
  rw [fifo0Frames, framesIf, onlySlot, if_neg (show i ≠ slotOf .fifo0 from h), ite_self]

theorem fifo1Frames_eq_none {i : Nat} (v : RxView) (h : i ≠ 1) : fifo1Frames v i = none := by
  rw [fifo1Frames, framesIf, onlySlot, if_neg (show i ≠ slotOf .fifo1 from h), ite_self]

theorem dedicatedFrames_eq_none {i : Nat} (v : RxView) (h : i < 2) : dedicatedFrames v i = none := by
  have hi : ¬ (2 + 0 ≤ i ∧ i < 2 + 0 + v.ded.length) := by omega
  rw [dedicatedFrames, framesIf, dedicatedFrame, if_neg hi, ite_self]

theorem dedicatedFrames_add_two (v : RxView) (k : Nat) :
    dedicatedFrames v (k + 2) = if v.pending.drx then v.ded.getD k none else none := by
  have hded : dedicatedFrame v.ded 0 v.ded.length (k + 2) = v.ded.getD k none := by
    unfold dedicatedFrame
    split
    · rfl
    · next hk => exact (List.getD_eq_default _ _ (by omega)).symm
  rw [dedicatedFrames, framesIf, hded]

/-- The slots the handler writes are those of its arms (R222 to R224). -/
theorem written_eq_arms (v : RxView) : written v = fun i => (dedicatedFrames v i).or (fifoFrames v i) := by
  funext i
  match i with
  | 0 =>
    rw [dedicatedFrames_eq_none v (by omega), fifoFrames, fifo1Frames_eq_none v (by omega)]
    rfl
  | 1 =>
    rw [dedicatedFrames_eq_none v (by omega), fifoFrames, fifo0Frames_eq_none v (by omega), Option.or_none]
    rfl
  | k + 2 =>
    rw [dedicatedFrames_add_two, fifoFrames, fifo1Frames_eq_none v (by omega), fifo0Frames_eq_none v (by omega),
      Option.or_none, Option.or_none]
    rfl

/-- The arms of the two FIFOs write different slots. -/
theorem fifoFrames_disjoint (v : RxView) (i : Nat) : fifo0Frames v i = none ∨ fifo1Frames v i = none := by
  by_cases hi : i = 0
  · exact .inr (fifo1Frames_eq_none v (by omega))
  · exact .inl (fifo0Frames_eq_none v hi)

/-- The arm of the dedicated buffers writes no slot of a FIFO. -/
theorem dedicatedFrames_disjoint (v : RxView) (i : Nat) : fifoFrames v i = none ∨ dedicatedFrames v i = none := by
  by_cases hi : i < 2
  · exact .inr (dedicatedFrames_eq_none v hi)
  · refine .inl ?_
    rw [fifoFrames, fifo1Frames_eq_none v (by omega), fifo0Frames_eq_none v (by omega)]
    rfl

/-- The receive side after the arm of FIFO 0. -/
def RxView.afterFifo0 (v : RxView) : RxView := if v.pending.f0n then v.afterRead .fifo0 else v

/-- The receive side after the arms of both FIFOs. -/
def RxView.afterFifos (v : RxView) : RxView := if v.pending.f1n then v.afterFifo0.afterRead .fifo1 else v.afterFifo0

/-- The receive side after all arms. -/
def RxView.afterArms (v : RxView) : RxView :=
  if v.pending.drx then { v.afterFifos with ded := List.replicate v.ded.length none } else v.afterFifos

theorem afterFifo0_front_fifo1 (v : RxView) : v.afterFifo0.front .fifo1 = v.fifo1.head? := by
  unfold RxView.afterFifo0
  split <;> rfl

theorem afterFifos_ded (v : RxView) : v.afterFifos.ded = v.ded := by
  unfold RxView.afterFifos RxView.afterFifo0
  split <;> split <;> rfl

/-- What the arms leave of the receive side, the causes consumed cleared (R225). -/
theorem served_eq_afterArms (v : RxView) :
    { v.afterArms with pending := v.afterArms.pending.minus v.pending } = served v := by
  rcases v with ⟨⟨f0n, f1n, drx⟩, fifo0, fifo1, ded⟩
  cases f0n <;> cases f1n <;> cases drx <;> rfl

/-- The dedicated buffers of a view that raises the interrupt are those of the channel (contract K1). -/
theorem ded_length_of_raises {v : RxView} {n : Nat} (h : v.raises n = true) : v.ded.length = n := by
  rw [RxView.raises, Bool.and_eq_true] at h
  exact of_decide_eq_true h.2

/-- The slots a view writes are slots of the channel (contract K1). -/
theorem written_lt {v : RxView} {n i : Nat} {h : HwFrame} (hv : v.raises (n - 2) = true) (hl : 2 ≤ n)
    (hw : written v i = some h) : i < n := by
  have hded := ded_length_of_raises hv
  match i with
  | 0 => omega
  | 1 => omega
  | k + 2 =>
    by_contra hk
    rw [written, List.getD_eq_default _ _ (by omega), ite_self] at hw
    cases hw

section Arms

variable {s : State} {c : Nat} {v : RxView} (hc : c < s.chans.length)

include hc

theorem fifo0_stored (h0 : v.pending.f0n = true → v.fifo0.head?.isSome = true) :
    (s.modRx c (fun _ => v)).armIf v.pending.f0n (fun t => t.armRead c .fifo0) =
      s.stored c (fifo0Frames v) v.afterFifo0 (if v.pending.f0n then [.hwRead c .fifo0] else []) := by
  rw [modRx_eq_stored, armIf_stored hc (fun _ => .inl rfl) fun hp =>
    armRead_stored (v := v) (src := .fifo0) (by rwa [stored_length]) (by rw [stored_chan _ v _ hc]) (h0 hp)]
  simp only [Option.or_none, List.nil_append]
  rfl

theorem fifo1_stored (h1 : v.pending.f1n = true → v.fifo1.head?.isSome = true) (out : List Output) :
    (s.stored c (fifo0Frames v) v.afterFifo0 out).armIf v.pending.f1n (fun t => t.armRead c .fifo1) =
      s.stored c (fifoFrames v) v.afterFifos (out ++ if v.pending.f1n then [.hwRead c .fifo1] else []) := by
  refine armIf_stored hc (fifoFrames_disjoint v) fun hp => ?_
  rw [armRead_stored (by rwa [stored_length]) (by rw [stored_chan _ _ _ hc])
    (by rw [afterFifo0_front_fifo1]; exact h1 hp), afterFifo0_front_fifo1]

theorem dedicated_stored (hl : v.ded.length + 2 ≤ (s.chan c).slots.length) (out : List Output) :
    (s.stored c (fifoFrames v) v.afterFifos out).armIf v.pending.drx
        (fun t => t.armAllDedicated c 0 (t.chan c).hw.rx.ded.length) =
      s.stored c (fun i => (dedicatedFrames v i).or (fifoFrames v i)) v.afterArms
        (out ++ if v.pending.drx then dedicatedOutputs c v.ded 0 v.ded.length else []) := by
  refine armIf_stored hc (dedicatedFrames_disjoint v) fun _ => ?_
  rw [armAllDedicated_stored (by rwa [stored_length]) (by rw [stored_chan _ _ _ hc])
    (by rwa [stored_chan _ _ _ hc, storeSlots_length, afterFifos_ded]), afterFifos_ded]

/-- The handler serves a view that raises it (R221): the three arms one after the other, then the clear. -/
theorem isr_stored (hl : 2 ≤ (s.chan c).slots.length) (hv : v.raises ((s.chan c).slots.length - 2) = true) :
    (s.modRx c (fun _ => v)).isr c = s.stored c (written v) (served v) (isrOutputs c v) := by
  obtain ⟨h0, h1, -⟩ := raises_whole v _ hv
  have hded := ded_length_of_raises hv
  have hview : ((s.modRx c (fun _ => v)).chan c).hw.rx = v := by rw [modRx_eq_stored, stored_chan _ _ _ hc]
  simp only [State.isr, hview]
  rw [fifo0_stored hc fun hp => Option.isSome_iff_exists.mpr ((h0 hp).imp fun _ h => h.1),
    fifo1_stored hc (fun hp => Option.isSome_iff_exists.mpr ((h1 hp).imp fun _ h => h.1)),
    dedicated_stored hc (by omega), stored_emit_modRx _ _ _ _ _ hc, served_eq_afterArms, ← written_eq_arms,
    isrOutputs, List.range_eq_range']
  rfl

end Arms

/-- A receive event that occurs (R220): the interrupt is enabled and the view raises it. -/
theorem step_canRx {s : State} {c : Nat} {v : RxView} {rest : List Event} (hs : s.sched = .canRx c v :: rest)
    (hc : c < s.chans.length) (hl : 2 ≤ (s.chan c).slots.length) (hi : (s.chan c).hw.irqEn = true)
    (hv : v.raises ((s.chan c).slots.length - 2) = true) :
    step s = .next (({ s with sched := rest } : State).stored c (written v) (served v) (isrOutputs c v)) := by
  rw [step_onChannel s _ rest c _ hs hc (fun _ => rfl), State.onCanRx, withSched_chan, hi, hv, Bool.and_self, if_pos rfl]
  exact congrArg _ (isr_stored hc hl hv)

/-- Two receive events in a row, both of which occur. -/
theorem steps_canRx_canRx {s : State} {c : Nat} {v w : RxView} {rest : List Event}
    (hs : s.sched = .canRx c v :: .canRx c w :: rest) (hc : c < s.chans.length) (hl : 2 ≤ (s.chan c).slots.length)
    (hi : (s.chan c).hw.irqEn = true) (hv : v.raises ((s.chan c).slots.length - 2) = true)
    (hw : w.raises ((s.chan c).slots.length - 2) = true) :
    steps 2 s = .next ((({ s with sched := rest } : State).stored c (written v) (served v) (isrOutputs c v)).stored c
      (written w) (served w) (isrOutputs c w)) := by
  have hchan := stored_withSched_chan (.canRx c w :: rest) (written v) (served v) (isrOutputs c v) hc
  refine (steps_succ_next 1 s _ (step_canRx hs hc hl hi hv)).trans
    (steps_succ_next 0 _ _ (step_canRx (v := w) (rest := rest) rfl ?_ ?_ ?_ ?_))
  · rwa [stored_length]
  · rwa [hchan, storeSlots_length]
  · rwa [hchan]
  · rwa [hchan, storeSlots_length]

/-! ## The obligations -/

/-- Settles O37: the guard of the event fails (R220, contract K1). -/
theorem interruptOnlyWhileEnabled : Obligations.InterruptOnlyWhileEnabled := by
  unfold Obligations.InterruptOnlyWhileEnabled
  intro s c v rest hs hc hoff
  rw [step_onChannel s _ rest c _ hs hc (fun _ => rfl), State.onCanRx]
  refine congrArg _ (if_neg ?_)
  rw [withSched_chan, Bool.and_eq_true]
  rintro ⟨hi, hv⟩
  rcases hoff with hoff | hoff
  · exact Bool.false_ne_true (hoff.symm.trans hi)
  · exact Bool.false_ne_true (hoff.symm.trans hv)

/-- Settles O35: the slots of the view's sources take their frames, and `stored` names all else that changes. -/
theorem handlerFillsSlots : Obligations.HandlerFillsSlots := by
  unfold Obligations.HandlerFillsSlots
  rintro s c x v rest hs hc rfl hl hi hv
  refine ⟨_, storeSlots (written v) (s.chan c).slots, step_canRx hs hc hl hi hv, rfl, rfl, rfl, storeSlots_length _ _,
    fun i hlt => ?_⟩
  rw [storeSlots_length] at hlt
  cases hw : written v i with
  | some h => exact storeSlots_getElem?_some hw hlt
  | none => exact storeSlots_getElem?_none _ hw

/-- Settles O38: the second store covers the first where both write; where it covers all of it, the two are the second. -/
theorem overwriteKeepsNewer : Obligations.OverwriteKeepsNewer := by
  unfold Obligations.OverwriteKeepsNewer
  rintro s c x v w rest hs hc rfl hl hi hv hw
  refine ⟨_, steps_canRx_canRx hs hc hl hi hv hw, rfl, fun i h k _ hwi => ?_, fun hcover hcopy => ?_⟩
  · rw [stored_chan _ _ _ (by rwa [stored_length]), stored_withSched_chan _ _ _ _ hc]
    exact storeSlots_getElem?_some hwi (by rw [storeSlots_length]; exact written_lt hw hl hwi)
  · have hor : (fun i => (written w i).or (written v i)) = written w := by
      funext i
      cases hwi : written w i with
      | some h => rfl
      | none => exact Option.not_isSome_iff_eq_none.mp fun hvi => by simpa [hwi] using hcover i hvi
    have hseq : written v s.seq.slot = none ∨ written w s.seq.slot = none ∨ s.seq.unnoticed c := by
      rcases hcopy with h | h | h | h
      · exact .inr (.inr (unnoticed_of_notCopying (.inl h)))
      · exact .inr (.inr (unnoticed_of_notCopying (.inr (.inl h))))
      · exact .inr (.inr (unnoticed_of_notCopying (.inr (.inr h))))
      · exact .inr (.inl h)
    refine ⟨_, step_canRx (s := { s with sched := .canRx c w :: rest }) rfl hc hl hi hw, ?_⟩
    rw [stored_stored (s := { s with sched := rest }) _ _ _ _ hc hseq, hor]
    rfl

end Sys2Proof.Machine
end

section
/-! PROOFS. Why a step is refused (46_bridge_loop.md R251): a frame that is not well formed (93_implementation_defined.md U5)
and a line longer than `LINE_MAX` (U8), each where the bridge loop meets it. -/

namespace Sys2Proof.Machine

open Sys2Proof

/-! ## The encoding, steps d and e of phase 1 -/

/-- W3 of 10_state.md R32: a frame with a bit-rate switch is an FD frame. -/
theorem brs_of_classic {f : CanFrame} (hwf : frameWf f = true) (hfd : f.fd = false) : f.brs = false := by
  simp only [frameWf, hfd, Bool.or_false, Bool.and_eq_true, Bool.not_eq_true'] at hwf
  obtain ⟨⟨-, hbrs⟩, -⟩ := hwf
  exact hbrs

/-- W2 of 10_state.md R32: an FD frame is no remote frame. -/
theorem rtr_of_fd {f : CanFrame} (hwf : frameWf f = true) (hfd : f.fd = true) : f.rtr = false := by
  simp only [frameWf, hfd, Bool.and_true, Bool.and_eq_true, Bool.not_eq_true'] at hwf
  obtain ⟨⟨⟨-, hrtr⟩, -⟩, -⟩ := hwf
  exact hrtr

/-- A well-formed frame has an output form (43_rx_encode.md R180): W2 and W3 leave out the tags that have none. -/
theorem exists_rxInstr {g : CanFrame} (hwf : frameWf g = true) : ∃ i, rxInstr g = some i := by
  unfold rxInstr
  cases hfd : g.fd with
  | false =>
    rw [brs_of_classic hwf hfd]
    cases g.rtr <;> exact ⟨_, rfl⟩
  | true =>
    rw [rtr_of_fd hwf hfd]
    cases g.brs <;> exact ⟨_, rfl⟩

theorem p1Encode_of_encodable {s : State} {g : CanFrame} (hg : encodable g = true) : s.p1Encode g = s.encodeRx g := by
  obtain ⟨hwf, -⟩ := Bool.and_eq_true_iff.mp hg
  obtain ⟨i, hi⟩ := exists_rxInstr hwf
  unfold State.p1Encode
  rw [hi]
  exact exec_rxInstr g i hi s

/-- A frame with the payload its DLC announces is refused for its tags, its ID or its DLC only (43_rx_encode.md R180). -/
theorem p1Encode_refused {s : State} {g : CanFrame} {r : Refusal} (hsize : frameSized g = true)
    (h : s.p1Encode g = .refused r) : r = .illFormedFrame ∧ frameWf g = false := by
  cases hwf : frameWf g with
  | true =>
    have hg : encodable g = true := by rw [encodable, hwf, hsize, Bool.and_self]
    rw [p1Encode_of_encodable hg, encodeRx_of_encodable hg] at h
    cases h
  | false =>
    rw [p1Encode_of_not_wf hwf] at h
    cases h
    exact ⟨rfl, rfl⟩

/-! ## `ReadLine` and the decode -/

/-- A byte other than CR that fits joins the line buffer (46_bridge_loop.md R244). -/
theorem p2Read_byte {s : State} {b : Byte} {more : List Byte} (h : (s.chan s.seq.chan).serq = b :: more) (hb : b ≠ cr)
    (hfit : (s.chan s.seq.chan).lb.length + 1 ≤ Config.lineMax) :
    s.p2Read = .next ((s.setSerq s.seq.chan more).setLb s.seq.chan ((s.chan s.seq.chan).lb ++ [b])) := by
  unfold State.p2Read
  rw [h]
  exact (if_neg hb).trans (if_pos ((fitsLine_iff _).mpr hfit))

/-- With nothing queued and no partial line the pass ends (R244, NoLine). -/
theorem p2Read_noLine {s : State} (hq : (s.chan s.seq.chan).serq = []) (hl : (s.chan s.seq.chan).lb = []) :
    s.p2Read = .next s.endPass := by
  unfold State.p2Read
  rw [hq, hl]

/-- With nothing queued and a partial line the read waits (R244, R245). -/
theorem p2Read_waits {s : State} (hq : (s.chan s.seq.chan).serq = []) (hl : (s.chan s.seq.chan).lb ≠ []) :
    s.p2Read = .next s := by
  obtain ⟨b, lb, hlb⟩ := List.exists_cons_of_ne_nil hl
  unfold State.p2Read
  rw [hq, hlb]

/-- A read is refused at a byte other than CR that finds the line buffer full (30_encoding.md R113). -/
theorem p2Read_refused {s : State} {r : Refusal} (hfits : (s.chan s.seq.chan).lb.length ≤ Config.lineMax)
    (h : s.p2Read = .refused r) : r = .lineTooLong ∧ (s.chan s.seq.chan).lb.length = Config.lineMax ∧
      ∃ b more, (s.chan s.seq.chan).serq = b :: more ∧ b ≠ cr := by
  cases hq : (s.chan s.seq.chan).serq with
  | nil =>
    by_cases hl : (s.chan s.seq.chan).lb = []
    · rw [p2Read_noLine hq hl] at h
      cases h
    · rw [p2Read_waits hq hl] at h
      cases h
  | cons b more =>
    by_cases hb : b = cr
    · subst hb
      rw [p2Read_cr hq] at h
      cases h
    · rcases hfits.lt_or_eq with hlt | hfull
      · rw [p2Read_byte hq hb hlt] at h
        cases h
      · rw [p2Read_full hq hb hfull] at h
        cases h
        exact ⟨rfl, hfull, b, more, rfl, hb⟩

/-- A line the line buffer holds is answered (30_encoding.md R109, 46_bridge_loop.md R251). -/
theorem p2Decode_ne_refused {s : State} (hfits : (s.chan s.seq.chan).lb.length ≤ Config.lineMax) (r : Refusal) :
    s.p2Decode ≠ .refused r := by
  have hdec := decode_of_fits hfits
  obtain ⟨a, t, hexec, -⟩ := (decode_rule _ _ hdec).returnsAction s
  rw [p2Decode_eq_exec hdec, hexec]
  nofun

/-! ## Every turn, every event -/

/-- A turn in phase 1 is refused at steps d and e only. -/
theorem phase1Turn_refused {s : State} {d : CopyDraw} {r : Refusal} (h : s.phase1Turn d = .refused r) :
    ∃ g, s.seq.sub = .encode g ∧ s.p1Encode g = .refused r := by
  unfold State.phase1Turn at h
  split at h
  case h_4 g hm => exact ⟨g, hm, h⟩
  all_goals cases h

/-- A turn in phase 2 is refused in `ReadLine` or at the decode only. -/
theorem phase2Turn_refused {s : State} {r : Refusal} (h : s.phase2Turn = .refused r) :
    s.seq.sub = .ready ∧ s.p2Read = .refused r ∨ s.p2Decode = .refused r := by
  unfold State.phase2Turn at h
  split at h
  case h_1 hm => exact .inl ⟨hm, h⟩
  case h_2 => exact .inr h
  all_goals cases h

/-- A step is refused in a turn of `BRIDGE` only: every input from outside has a meaning. -/
theorem bridgeTurn_of_step_refused {s : State} {r : Refusal} (h : step s = .refused r) :
    ∃ d rest, s.sched = .bridge d :: rest ∧ ({ s with sched := rest } : State).bridgeTurn d = .refused r := by
  cases hs : s.sched with
  | nil =>
    rw [step_nil s hs] at h
    cases h
  | cons e rest =>
    rw [step_cons s e rest hs] at h
    cases e with
    | bridge d => exact ⟨d, rest, rfl, h⟩
    | serIn | canRx | txDone | busy | tick | lineTimeout | sched | setMode => cases h

theorem bridgeTurn_refused {s : State} {d : CopyDraw} {r : Refusal} (h : s.bridgeTurn d = .refused r) :
    s.seq.phase = .p1 ∧ s.phase1Turn d = .refused r ∨ s.seq.phase = .p2 ∧ s.phase2Turn = .refused r := by
  unfold State.bridgeTurn at h
  split at h
  · split at h
    · cases h
    · next hp => exact .inl ⟨hp, h⟩
    · next hp => exact .inr ⟨hp, h⟩
  · cases h

/-- The invariant keeps the payload of a frame to encode at its DLC's length (log 10). -/
theorem sized_of_encode {s : State} {g : CanFrame} (hinv : s.Inv) (hp : s.seq.phase = .p1) (hm : s.seq.sub = .encode g) :
    frameSized g = true := by
  have hseq := hinv.sequencer
  simp only [sequencerInv, hp, hm] at hseq
  exact hseq.2

/-- Settles O52: of the turns that may be refused the invariant leaves the encoding of an ill-formed frame and the read of
a byte into a full line buffer; a line to decode always fits. -/
theorem refusalCauses : Obligations.RefusalCauses := by
  unfold Obligations.RefusalCauses
  intro s r hinv h
  obtain ⟨d, rest, hs, hturn⟩ := bridgeTurn_of_step_refused h
  have hfits : (s.chan s.seq.chan).lb.length ≤ Config.lineMax := (hinv.channels _ hinv.inRange.1).lineFits
  refine ⟨⟨d, rest, hs⟩, ?_⟩
  rcases bridgeTurn_refused hturn with ⟨hp, h1⟩ | ⟨hp, h2⟩
  · obtain ⟨g, hm, henc⟩ := phase1Turn_refused h1
    obtain ⟨rfl, hwf⟩ := p1Encode_refused (sized_of_encode hinv hp hm) henc
    exact .inl ⟨rfl, hp, g, hm, hwf⟩
  · rcases phase2Turn_refused h2 with ⟨hm, hread⟩ | hdec
    · obtain ⟨rfl, hfull, hbyte⟩ := p2Read_refused (s := { s with sched := rest }) hfits hread
      exact .inr ⟨rfl, hp, hm, hfull, hbyte⟩
    · exact absurd hdec (p2Decode_ne_refused (s := { s with sched := rest }) hfits r)

end Sys2Proof.Machine
end

section
/-! PROOFS. Phase 1 on one slot (46_bridge_loop.md R242, 20_memory.md R69): one rule for each of its turns, and the five turns
of a flagged slot put together. -/

namespace Sys2Proof.Machine

open Sys2Proof

/-- A slot that is there is the one `Channel.slot` reads. -/
theorem slot_of_getElem? {x : Channel} {i : Nat} {y : RxSlot} (h : x.slots[i]? = some y) : x.slot i = y := by
  rw [Channel.slot, List.getD_eq_getElem?_getD, h, Option.getD_some]

/-- A write is whole or nothing, and the sequencer goes on to the next slot either way. -/
theorem nextSlot_reply (s : State) (bytes : List Byte) : (s.reply s.seq.chan bytes).nextSlot =
    { s with
      seq := { s.seq with slot := s.seq.slot + 1, sub := .ready },
      trace := s.trace ++ if (s.chan s.seq.chan).busy then [] else [.serOut s.seq.chan bytes] } := by
  simp [State.nextSlot, reply_trace]

section Turns

variable {s : State} {c : Nat} {x : Channel} {d : CopyDraw} {rest : List Event}

/-- Step a on a clear flag: the next slot. -/
theorem step_slotClear (h : s.atPlace c x .p1 .ready) (hi : s.seq.slot < x.slots.length)
    (hf : (x.slot s.seq.slot).flag = false) (hs : s.sched = .bridge d :: rest) :
    step s = .next { s with seq := { s.seq with slot := s.seq.slot + 1 }, sched := rest } := by
  rw [step_p1 s c x _ d rest h hs]
  obtain ⟨rfl, -, rfl, -, hsub⟩ := h
  have hskip : ({ s with sched := rest } : State).p1Test = ({ s with sched := rest } : State).nextSlot := by
    unfold State.p1Test
    exact (if_pos hi).trans (if_neg (by simp [hf]))
  rw [phase1Turn_ready { s with sched := rest } d hsub, hskip, State.nextSlot, ← hsub]

/-- Step a on a set flag: the clear comes next. -/
theorem step_slotFlagged (h : s.atPlace c x .p1 .ready) (hi : s.seq.slot < x.slots.length)
    (hf : (x.slot s.seq.slot).flag = true) (hs : s.sched = .bridge d :: rest) :
    step s = .next { s with seq := { s.seq with sub := .clear }, sched := rest } := by
  rw [step_p1 s c x _ d rest h hs]
  obtain ⟨rfl, -, rfl, -, hsub⟩ := h
  have hclear : ({ s with sched := rest } : State).p1Test = ({ s with sched := rest } : State).withSub .clear := by
    unfold State.p1Test
    exact (if_pos hi).trans (if_pos hf)
  rw [phase1Turn_ready { s with sched := rest } d hsub, hclear]
  rfl

/-- Past the last slot, phase 2 (R243). -/
theorem step_slotsDone (h : s.atPlace c x .p1 .ready) (hi : s.seq.slot = x.slots.length)
    (hs : s.sched = .bridge d :: rest) :
    step s = .next { s with seq := { s.seq with phase := .p2, sub := .ready }, sched := rest } := by
  rw [step_p1 s c x _ d rest h hs]
  obtain ⟨rfl, -, rfl, -, hsub⟩ := h
  have hdone : ({ s with sched := rest } : State).p1Test = ({ s with sched := rest } : State).startPhase2 := by
    unfold State.p1Test
    exact if_neg hi.not_lt
  rw [phase1Turn_ready { s with sched := rest } d hsub, hdone]
  rfl

/-- Step b: the flag is cleared, the frame stays (20_memory.md R69). -/
theorem step_clear (h : s.atPlace c x .p1 .clear) (hs : s.sched = .bridge d :: rest) :
    step s = .next
      { s with
        chans := s.chans.set c { x with slots := x.slots.set s.seq.slot (x.slot s.seq.slot).clear },
        seq := { s.seq with sub := .copy [] }, sched := rest } := by
  rw [step_p1 s c x _ d rest h hs]
  obtain ⟨rfl, -, rfl, -, hsub⟩ := h
  exact phase1Turn_clear _ d hsub

/-- Steps d and e on a well-formed frame: its line is handed to the write, with the flag and the counter of this turn. -/
theorem step_encode {g : CanFrame} (h : s.atPlace c x .p1 (.encode g)) (hg : encodable g = true)
    (hs : s.sched = .bridge d :: rest) :
    step s = .next
      { s with
        seq := { s.seq with sub := .write (encodeFrame g x.ch.flags.timestamp x.ch.timestamp.toNat) },
        sched := rest } := by
  rw [step_p1 s c x _ d rest h hs]
  obtain ⟨rfl, -, rfl, -, hsub⟩ := h
  rw [phase1Turn_encode { s with sched := rest } d g hsub, p1Encode_of_encodable hg, encodeRx_of_encodable hg]
  rfl

/-- Step f: the bytes are written whole, or dropped whole (R249), and the next slot follows. -/
theorem step_write {out : List Byte} (h : s.atPlace c x .p1 (.write out)) (hs : s.sched = .bridge d :: rest) :
    step s = .next
      { s with
        seq := { s.seq with slot := s.seq.slot + 1, sub := .ready }, sched := rest,
        trace := s.trace ++ if x.busy then [] else [.serOut c out] } := by
  rw [step_p1 s c x _ d rest h hs]
  obtain ⟨rfl, -, rfl, -, hsub⟩ := h
  rw [phase1Turn_write { s with sched := rest } d out hsub, State.p1Write, nextSlot_reply]
  rfl

/-- The five turns of a flagged slot: test, clear, copy-out, encoding, write. -/
theorem steps_slotFlagged {f : CanFrame} {d₁ d₂ d₃ d₄ d₅ : CopyDraw} (h : s.atPlace c x .p1 .ready)
    (hx : x.slots[s.seq.slot]? = some { flag := true, frame := f }) (hf : encodable f = true)
    (hs : s.sched = .bridge d₁ :: .bridge d₂ :: .bridge d₃ :: .bridge d₄ :: .bridge d₅ :: rest) :
    steps 5 s = .next
      { s with
        chans := s.chans.set c { x with slots := x.slots.set s.seq.slot { flag := false, frame := f } },
        seq := { s.seq with slot := s.seq.slot + 1 }, sched := rest,
        trace := s.trace ++ if x.busy then [] else
          [.serOut c (encodeFrame f x.ch.flags.timestamp x.ch.timestamp.toNat)] } := by
  obtain ⟨hi, -⟩ := List.getElem?_eq_some_iff.mp hx
  have hslot := slot_of_getElem? hx
  have hcleared : ({ x with slots := x.slots.set s.seq.slot (x.slot s.seq.slot).clear } : Channel).slot s.seq.slot =
      { flag := false, frame := f } := by
    rw [slot_set x _ _ _ hi, if_pos rfl, hslot]
    rfl
  have hplace {t : State} {n : Sub} := atPlace_set (t := t) (n := n) (y :=
    { x with slots := x.slots.set s.seq.slot (x.slot s.seq.slot).clear }) h
  refine Eq.trans (steps_succ_next 4 _ _ (step_slotFlagged h hi (by rw [hslot]) hs)) ?_
  refine Eq.trans (steps_succ_next 3 _ _ (step_clear ⟨h.chan, h.configured, h.holds, h.phase, rfl⟩ rfl)) ?_
  refine Eq.trans (steps_succ_next 2 _ _ (step_copy (hplace rfl rfl) rfl)) ?_
  rw [copyOut_nil, hcleared]
  refine Eq.trans (steps_succ_next 1 _ _ (step_encode (hplace rfl rfl) hf rfl)) ?_
  refine Eq.trans (steps_succ_next 0 _ _ (step_write (hplace rfl rfl) rfl)) ?_
  rw [steps_zero, hslot, ← h.sub]
  rfl

end Turns

/-- Settles O32: a clear flag is step a alone, a set flag all five turns, and step f is a rule of its own. -/
theorem phase1ServesSlot : Obligations.Phase1ServesSlot := by
  unfold Obligations.Phase1ServesSlot
  refine ⟨?_, fun s c x out d rest => step_write⟩
  rintro s c x i f rest h rfl hi
  refine ⟨fun d hx hs => step_slotClear h hi (by rw [slot_of_getElem? hx]) hs, ?_⟩
  intro d₁ d₂ d₃ d₄ d₅ hx hwf hlen hs
  exact steps_slotFlagged h hx (encodable_of_wf hwf hlen) hs

end Sys2Proof.Machine
end

section
/-! PROOFS. A turn runs an instruction (10_state.md R39): the command of the line in the line buffer (46_bridge_loop.md R243),
and the output form of a captured frame (43_rx_encode.md R180). -/

namespace Sys2Proof.Machine

open Sys2Proof

/-- The turn at steps d and e runs the output form that the frame's tags select. -/
theorem step_outputForm {s : State} {c : Nat} {x : Channel} {g : CanFrame} {i : Instr} {d : CopyDraw} {rest : List Event}
    (h : s.atPlace c x .p1 (.encode g)) (hs : s.sched = .bridge d :: rest) (hi : rxInstr g = some i) :
    step s = exec i { s with sched := rest } := by
  rw [step_p1 s c x _ d rest h hs, phase1Turn_encode { s with sched := rest } d g h.sub]
  unfold State.p1Encode
  rw [hi]

/-- Settles O44: the decode of phase 2 is the line buffer's. -/
theorem stepRunsDecoded : Obligations.StepRunsDecoded := by
  unfold Obligations.StepRunsDecoded
  exact fun s c x i d rest => step_decoded

/-- Settles O45: W2 and W3 of 10_state.md R32 leave one tag open for each kind of frame, and the table is read off. -/
theorem stepRunsOutputForm : Obligations.StepRunsOutputForm := by
  unfold Obligations.StepRunsOutputForm
  refine ⟨fun s c x g i d rest => step_outputForm, fun f hwf => ⟨fun hfd hrtr => ?_, fun hfd hrtr => ?_, ?_, ?_⟩⟩
  · rw [rxInstr, hfd, brs_of_classic hwf hfd, hrtr]
  · rw [rxInstr, hfd, brs_of_classic hwf hfd, hrtr]
  · exact fun hfd hbrs => by rw [rxInstr, hfd, hbrs, rtr_of_fd hwf hfd]
  · exact fun hfd hbrs => by rw [rxInstr, hfd, hbrs, rtr_of_fd hwf hfd]

end Sys2Proof.Machine
end

section
/-! PROOFS. Phase 2 (46_bridge_loop.md R243 to R249): the turns of `ReadLine`, the timeout that ends its wait, and the dispatch
of an action. -/

namespace Sys2Proof.Machine

open Sys2Proof

/-! ## `ReadLine` -/

theorem endPass_eq (s : State) : s.endPass = { s with seq := passEnd s.chans.length s.seq } := by
  unfold State.endPass passEnd
  split <;> rfl

section Turns

variable {s : State} {c : Nat} {x : Channel} {d : CopyDraw} {rest : List Event}

/-- A byte other than CR moves from the queue to the line buffer (R244, 20_memory.md R76). -/
theorem step_readByte {b : Byte} {more : List Byte} (h : s.atPlace c x .p2 .ready) (hq : x.serq = b :: more)
    (hb : b ≠ cr) (hfit : x.lb.length + 1 ≤ Config.lineMax) (hs : s.sched = .bridge d :: rest) :
    step s = .next
      { s with chans := s.chans.set c { x with lb := x.lb ++ [b], serq := more }, sched := rest } := by
  rw [step_p2 s c x _ d rest h hs]
  obtain ⟨rfl, hc, rfl, -, hsub⟩ := h
  rw [phase2Turn_ready { s with sched := rest } hsub, p2Read_byte (s := { s with sched := rest }) hq hb hfit, setSerq_eq,
    setLb_eq, modChan_modChan { s with sched := rest } _ _ _ hc]
  rfl

/-- A CR ends the line and is not part of it (R244). -/
theorem step_readCr {more : List Byte} (h : s.atPlace c x .p2 .ready) (hq : x.serq = cr :: more)
    (hs : s.sched = .bridge d :: rest) :
    step s = .next
      { s with
        chans := s.chans.set c { x with serq := more }, seq := { s.seq with sub := .decode }, sched := rest } := by
  rw [step_p2 s c x _ d rest h hs]
  obtain ⟨rfl, -, rfl, -, hsub⟩ := h
  rw [phase2Turn_ready { s with sched := rest } hsub, p2Read_cr (s := { s with sched := rest }) hq]
  rfl

/-- The read waits with a partial line and nothing queued (R245). -/
theorem step_readWaits (h : s.atPlace c x .p2 .ready) (hl : x.lb ≠ []) (hq : x.serq = [])
    (hs : s.sched = .bridge d :: rest) : step s = .next { s with sched := rest } := by
  rw [step_p2 s c x _ d rest h hs]
  obtain ⟨rfl, -, rfl, -, hsub⟩ := h
  rw [phase2Turn_ready { s with sched := rest } hsub, p2Read_waits (s := { s with sched := rest }) hq hl]

/-- With no byte at all the pass ends (R243, R244). -/
theorem step_noLine (h : s.atPlace c x .p2 .ready) (hq : x.serq = []) (hl : x.lb = [])
    (hs : s.sched = .bridge d :: rest) :
    step s = .next { s with sched := rest, seq := passEnd s.chans.length s.seq } := by
  rw [step_p2 s c x _ d rest h hs]
  obtain ⟨rfl, -, rfl, -, hsub⟩ := h
  rw [phase2Turn_ready { s with sched := rest } hsub, p2Read_noLine (s := { s with sched := rest }) hq hl, endPass_eq]

end Turns

/-- Settles O40, by induction on the line: each byte joins the line buffer, and the CR behind the last one ends it. -/
theorem readLineAssembles : Obligations.ReadLineAssembles := by
  unfold Obligations.ReadLineAssembles
  intro s c x line more ds rest h hq hcr hfit hlen hs
  induction line generalizing s x ds with
  | nil =>
    obtain ⟨d, rfl⟩ := List.length_eq_one_iff.mp hlen
    rw [List.append_nil]
    exact steps_succ_next 0 _ _ (step_readCr h hq hs)
  | cons b line ih =>
    obtain ⟨d, ds, rfl⟩ := List.exists_cons_of_length_eq_add_one hlen
    rw [List.mem_cons, not_or] at hcr
    obtain ⟨hb, hline⟩ := hcr
    simp only [List.length_cons] at hfit hlen
    refine Eq.trans (steps_succ_next ds.length _ _ (step_readByte h hq (Ne.symm hb) (by omega) hs)) ?_
    have hroom : (x.lb ++ [b]).length + line.length ≤ Config.lineMax := by
      rw [List.length_append, List.length_singleton]
      omega
    refine Eq.trans (ih _ { x with lb := x.lb ++ [b], serq := line ++ cr :: more } ds
      ⟨h.chan, by simpa using h.configured, chan_set _ _ _ _ c _ h.configured, h.phase, h.sub⟩ rfl hline hroom
      (by omega) rfl) ?_
    simp

/-! ## The read timeout -/

theorem readWaits_iff (s : State) (c : Nat) : s.readWaits c = true ↔
    s.seq.chan = c ∧ s.seq.phase = .p2 ∧ s.seq.sub = .ready ∧ (s.chan c).lb ≠ [] ∧ (s.chan c).serq = [] := by
  simp [State.readWaits, and_assoc]

/-- The timeout of a waiting read (R245): the partial line is gone, nothing is written, and the pass ends. -/
theorem step_lineTimeout {s : State} {c : Nat} {x : Channel} {rest : List Event} (h : s.atPlace c x .p2 .ready)
    (hl : x.lb ≠ []) (hq : x.serq = []) (hs : s.sched = .lineTimeout c :: rest) :
    step s = .next
      { s with
        chans := s.chans.set c { x with lb := [] }, sched := rest, seq := passEnd s.chans.length s.seq } := by
  rw [step_onChannel s _ rest c _ hs h.configured (fun _ => rfl)]
  obtain ⟨hchan, -, rfl, hp, hsub⟩ := h
  have hwaits : ({ s with sched := rest } : State).readWaits c = true := (readWaits_iff _ c).mpr ⟨hchan, hp, hsub, hl, hq⟩
  rw [State.onLineTimeout, if_pos hwaits, endPass_eq, setLb_eq, modChan_length]
  rfl

/-- A timeout where no read waits did not occur (decision D21, log 2), nor did one of a channel that is not configured. -/
theorem step_lineTimeout_elsewhere {s : State} {c : Nat} {rest : List Event} (hw : ¬ s.readWaits c = true)
    (hs : s.sched = .lineTimeout c :: rest) : step s = .next { s with sched := rest } := by
  have hstays : ({ s with sched := rest } : State).onLineTimeout c = { s with sched := rest } := if_neg hw
  rw [step_cons s _ rest hs, takeEvent, State.onChannel, hstays, ite_self]

/-- Settles O41: the wait, the timeout that ends it, and the timeout anywhere else. -/
theorem lineTimeoutDiscards : Obligations.LineTimeoutDiscards := by
  unfold Obligations.LineTimeoutDiscards
  refine ⟨fun s c x rest h hl hq => ⟨fun d hs => step_readWaits h hl hq hs, fun hs => ?_⟩, fun s c rest hs helse => ?_⟩
  · rw [step_lineTimeout h hl hq hs, passEnd, h.chan]
    rfl
  · refine step_lineTimeout_elsewhere (fun hw => ?_) hs
    obtain ⟨hchan, hp, hsub, hl, hq⟩ := (readWaits_iff s c).mp hw
    rcases helse with h | h | h | h | h
    · exact h hchan
    · exact h hp
    · exact h hsub
    · exact hl h
    · exact h hq

/-! ## The dispatch -/

/-- Settles O29: each row's action is carried out by one write of the row's bytes (R247). -/
theorem dispatchReplies : Obligations.DispatchReplies := by
  unfold Obligations.DispatchReplies
  intro s c x d rest bytes row hrow h hs
  have hwrite : ∀ u : State, u.p2Dispatch row.1 = (u.reply u.seq.chan row.2).endCommand := by
    fin_cases hrow <;> exact fun _ => rfl
  exact step_dispatchWrite hwrite h hs

end Sys2Proof.Machine
end

section
/-! PROOFS. The order of a main-loop iteration (46_bridge_loop.md R240 to R243), and the iteration that finds nothing to do. -/

namespace Sys2Proof.Machine

open Sys2Proof

/-! ## `Sched` -/

/-- An iteration starts with channel 0 (R240). -/
theorem step_sched {s : State} {rest : List Event} (hp : s.seq.phase = .idle) (hs : s.sched = .sched :: rest) :
    step s = .next { s with sched := rest, seq := { chan := 0, phase := .p1, slot := 0, sub := .ready } } := by
  rw [step_cons s _ rest hs]
  exact congrArg _ (if_pos hp)

/-- A `Sched` while an iteration runs did not occur (log 2). -/
theorem step_sched_elsewhere {s : State} {rest : List Event} (hp : s.seq.phase ≠ .idle) (hs : s.sched = .sched :: rest) :
    step s = .next { s with sched := rest } := by
  rw [step_cons s _ rest hs]
  exact congrArg _ (if_neg hp)

/-- Settles O46: one rule for each place where the order is decided. -/
theorem passOrder : Obligations.PassOrder := by
  unfold Obligations.PassOrder
  refine fun s c x d rest => ⟨fun hs hp => step_sched hp hs, fun hs hp => step_sched_elsewhere hp hs,
    fun hs h hi => step_slotsDone h hi hs, fun hs h hq hl => ?_⟩
  rw [step_noLine h hq hl hs, passEnd, h.chan]
  rfl

/-! ## An iteration with nothing to do -/

/-- Two runs in a row are one. -/
theorem steps_add {m : Nat} {s t : State} (n : Nat) (h : steps m s = .next t) : steps (m + n) s = steps n t := by
  induction m generalizing s with
  | zero =>
    cases h
    rw [Nat.zero_add]
  | succ m ih =>
    rw [Nat.add_right_comm]
    cases hstep : step s with
    | next u =>
      rw [steps_succ_next _ _ _ hstep] at h ⊢
      exact ih h
    | fault r =>
      rw [steps_succ, hstep] at h
      cases h
    | refused r =>
      rw [steps_succ, hstep] at h
      cases h

/-- Nothing to do on a channel of n slots: no flag set, no byte queued, no partial line. -/
def Channel.NothingToDo (n : Nat) (x : Channel) : Prop :=
  x.slots.length = n ∧ (∀ y ∈ x.slots, y.flag = false) ∧ x.serq = [] ∧ x.lb = []

theorem Channel.NothingToDo.slot_clear {n : Nat} {x : Channel} (h : x.NothingToDo n) {i : Nat} (hi : i < x.slots.length) :
    (x.slot i).flag = false := by
  obtain ⟨-, hclear, -, -⟩ := h
  rw [slot_of_getElem? (List.getElem?_eq_getElem hi)]
  exact hclear _ (List.getElem_mem hi)

/-- The pass of a channel with nothing to do: a turn for each slot left, one to leave phase 1, one to leave phase 2. -/
theorem steps_emptyPass {c n : Nat} {x : Channel} (hx : x.NothingToDo n) {rest : List Event} (left : Nat) :
    ∀ (s : State) (ds : List CopyDraw), s.atPlace c x .p1 .ready → s.seq.slot + left = n → ds.length = left + 2 →
      s.sched = ds.map .bridge ++ rest →
      steps ds.length s = .next { s with seq := passEnd s.chans.length s.seq, sched := rest } := by
  induction left with
  | zero =>
    intro s ds h hslot hlen hs
    have ⟨hn, _, hq, hl⟩ := hx
    obtain ⟨d, e, rfl⟩ := List.length_eq_two.mp hlen
    refine Eq.trans (steps_succ_next 1 _ _ (step_slotsDone h (hslot.trans hn.symm) hs)) ?_
    exact steps_succ_next 0 _ _ (step_noLine ⟨h.chan, h.configured, h.holds, rfl, rfl⟩ hq hl rfl)
  | succ left ih =>
    intro s ds h hslot hlen hs
    have ⟨hn, _⟩ := hx
    obtain ⟨d, ds, rfl⟩ := List.exists_cons_of_length_eq_add_one hlen
    rw [List.length_cons] at hlen
    have hi : s.seq.slot < x.slots.length := by omega
    refine Eq.trans (steps_succ_next ds.length _ _ (step_slotClear h hi (hx.slot_clear hi) hs)) ?_
    exact ih _ ds ⟨h.chan, h.configured, h.holds, h.phase, h.sub⟩ (by simp only; omega) (by omega) rfl

theorem chan_mem {s : State} {c : Nat} (hc : c < s.chans.length) : s.chan c ∈ s.chans := by
  rw [State.chan, List.getD_eq_getElem _ _ hc]
  exact List.getElem_mem hc

/-- The place a sequencer names. -/
theorem atPlace_of_seq {s : State} {c i : Nat} {p : Phase} {m : Sub} (h : s.seq = ⟨c, p, i, m⟩) (hc : c < s.chans.length) :
    s.atPlace c (s.chan c) p m :=
  ⟨by rw [h], hc, rfl, by rw [h], by rw [h]⟩

/-- The passes of channel c and of the `left` channels behind it, with nothing to do on any of them, end in IDLE. -/
theorem steps_emptyPasses {n : Nat} {rest : List Event} (left : Nat) :
    ∀ (s : State) (c : Nat) (ds : List CopyDraw), (∀ x ∈ s.chans, x.NothingToDo n) → c + (left + 1) = s.chans.length →
      s.seq = { chan := c, phase := .p1, slot := 0, sub := .ready } → ds.length = (left + 1) * (n + 2) →
      s.sched = ds.map .bridge ++ rest →
      steps ds.length s = .next { s with seq := Sequencer.atRest, sched := rest } := by
  induction left with
  | zero =>
    intro s c ds hempty hc hseq hlen hs
    refine Eq.trans (steps_emptyPass (hempty _ (chan_mem (by omega))) n s ds (atPlace_of_seq hseq (by omega))
      (by rw [hseq, Nat.zero_add]) (by omega) hs) ?_
    rw [hseq, passEnd, if_neg (by simp only; omega)]
  | succ left ih =>
    intro s c ds hempty hc hseq hlen hs
    obtain ⟨ds₁, ds₂, rfl, hlen₁⟩ : ∃ ds₁ ds₂, ds = ds₁ ++ ds₂ ∧ ds₁.length = n + 2 :=
      ⟨ds.take (n + 2), ds.drop (n + 2), (List.take_append_drop _ _).symm, by
        rw [List.length_take, hlen, Nat.add_mul, Nat.one_mul]
        omega⟩
    rw [List.length_append, Nat.add_mul _ 1, Nat.one_mul] at hlen
    rw [List.map_append, List.append_assoc] at hs
    have hnext : passEnd s.chans.length s.seq = { chan := c + 1, phase := .p1, slot := 0, sub := .ready } := by
      rw [hseq, passEnd, if_pos (by simp only; omega)]
    rw [List.length_append, steps_add _ (steps_emptyPass (hempty _ (chan_mem (by omega))) n s ds₁
      (atPlace_of_seq hseq (by omega)) (by rw [hseq, Nat.zero_add]) hlen₁ hs)]
    exact ih _ (c + 1) ds₂ hempty (by simp only; omega) hnext (by omega) rfl

/-- Settles O47: `Sched` starts the pass of channel 0, and the passes that follow bring the sequencer back to rest. -/
theorem emptyIterationEnds : Obligations.EmptyIterationEnds := by
  unfold Obligations.EmptyIterationEnds
  intro s n ds rest hseq hpos hempty hlen hs
  obtain ⟨left, hleft⟩ := Nat.exists_eq_add_one.mpr hpos
  refine Eq.trans (steps_succ_next ds.length _ _ (step_sched (by rw [hseq]) hs)) ?_
  refine Eq.trans (steps_emptyPasses left _ 0 ds hempty (by simp only; omega) rfl (by rw [hlen, hleft]) rfl) ?_
  rw [hseq]
  rfl

end Sys2Proof.Machine
end

section
/-! PROOFS. The tick (46_bridge_loop.md R250, 10_state.md R28). -/

namespace Sys2Proof.Machine

open Sys2Proof

/-- n ticks count n, modulo 2^TS_WIDTH, while the flag is set (decision D17). -/
theorem iterate_tick_of_set {y : ChannelState} (h : y.flags.timestamp = true) (n : Nat) :
    ChannelState.tick^[n] y = { y with timestamp := y.timestamp + BitVec.ofNat Config.tsWidth n } := by
  induction n generalizing y with
  | zero => simp
  | succ n ih =>
    have htick : y.tick = { y with timestamp := y.timestamp + 1 } := if_pos h
    rw [Function.iterate_succ_apply, htick]
    have hsum : y.timestamp + 1 + BitVec.ofNat Config.tsWidth n = y.timestamp + BitVec.ofNat Config.tsWidth (n + 1) := by
      rw [BitVec.ofNat_add, BitVec.add_assoc, BitVec.add_comm 1]
      rfl
    rw [ih (y := { y with timestamp := y.timestamp + 1 }) h, hsum]

theorem iterate_tick_of_clear {y : ChannelState} (h : y.flags.timestamp = false) (n : Nat) :
    ChannelState.tick^[n] y = y := by
  have hfix : y.tick = y := if_neg (by simp [h])
  exact Function.iterate_fixed hfix n

theorem step_tick {s : State} {c : Nat} {rest : List Event} (hc : c < s.chans.length) (hs : s.sched = .tick c :: rest) :
    step s = .next
      { s with sched := rest, chans := s.chans.set c { s.chan c with ch := (s.chan c).ch.tick } } :=
  step_onChannel s _ rest c _ hs hc (fun _ => rfl)

/-- n ticks in a row, at any place of `BRIDGE`, tick the channel's registers n times. -/
theorem steps_tick {s : State} {c n : Nat} {rest : List Event} (hc : c < s.chans.length)
    (hs : s.sched = List.replicate n (.tick c) ++ rest) :
    steps n s = .next
      { s with sched := rest, chans := s.chans.set c { s.chan c with ch := ChannelState.tick^[n] (s.chan c).ch } } := by
  induction n generalizing s with
  | zero =>
    rw [List.replicate_zero, List.nil_append] at hs
    subst hs
    rw [steps_zero, Function.iterate_zero_apply, set_chan_self s c hc]
  | succ n ih =>
    rw [steps_succ_next _ _ _ (step_tick hc hs), ih (by simpa using hc) rfl, chan_set _ _ _ _ c _ hc, List.set_set,
      Function.iterate_succ_apply]

/-- Settles O43: the run ticks the channel's registers n times, which counts n or nothing. -/
theorem tickCounts : Obligations.TickCounts := by
  unfold Obligations.TickCounts
  rintro s c n x rest hc rfl hs
  rw [steps_tick hc hs]
  refine ⟨fun h => by rw [iterate_tick_of_set h], fun h => ?_⟩
  rw [iterate_tick_of_clear h, set_chan_self s c hc]

end Sys2Proof.Machine
end

section
/-! PROOFS. Exceptions (60_exceptions.md): the handler's return to `BRIDGE` (R281, R282), and the absence of a fatal error
(R270). -/

namespace Sys2Proof.Machine

open Sys2Proof

/-! ## The return of the handler -/

/-- The frame overwritten under a copy-out in progress joins those the copy may be torn from (20_memory.md R72). -/
theorem overwritten_copy {q : Sequencer} {c : Nat} {earlier : List CanFrame} (hp : q.phase = .p1)
    (hm : q.sub = .copy earlier) (hc : q.chan = c) (old : CanFrame) :
    overwritten q c q.slot old = { q with sub := .copy (earlier ++ [old]) } := by
  unfold overwritten
  rw [hp, hm]
  exact if_pos ⟨hc, rfl⟩

theorem noteStored_copy {q : Sequencer} {c : Nat} {w : Nat → Option HwFrame} {earlier : List CanFrame} (x : Channel)
    (hp : q.phase = .p1) (hm : q.sub = .copy earlier) (hc : q.chan = c) (hw : (w q.slot).isSome = true) :
    noteStored q c w x = { q with sub := .copy (earlier ++ [(x.slot q.slot).frame]) } :=
  (if_pos hw).trans (overwritten_copy hp hm hc _)

/-- The sequencer after a receive event that occurs: `noteStored` is the whole effect on `BRIDGE`. -/
theorem seq_of_step_canRx {s t : State} {c : Nat} {v : RxView} {rest : List Event} (hs : s.sched = .canRx c v :: rest)
    (hc : c < s.chans.length) (hl : 2 ≤ (s.chan c).slots.length) (hi : (s.chan c).hw.irqEn = true)
    (hv : v.raises ((s.chan c).slots.length - 2) = true) (h : step s = .next t) :
    t.seq = noteStored s.seq c (written v) (s.chan c) := by
  rw [step_canRx hs hc hl hi hv] at h
  cases h
  rfl

/-- Settles O36: at the copy-out of a slot the view writes the overwritten frame is noted; anywhere else, and for a slot
the view does not write, nothing is. -/
theorem handlerReturnsToBridge : Obligations.HandlerReturnsToBridge := by
  unfold Obligations.HandlerReturnsToBridge
  intro s t c v rest hs hc hi hl hv h
  rw [seq_of_step_canRx hs hc hl hi hv h]
  refine ⟨fun earlier hp hm hchan hw => noteStored_copy _ hp hm hchan hw, fun hout => ?_⟩
  rcases hout with hp | hm | hchan | hw
  · exact noteStored_of_unnoticed (unnoticed_of_notCopying (.inl hp)) _ _
  · exact noteStored_of_unnoticed (unnoticed_of_notCopying (.inr (.inl hm))) _ _
  · exact noteStored_of_unnoticed (unnoticed_of_notCopying (.inr (.inr hchan))) _ _
  · exact noteStored_none _ _ hw

/-! ## No fatal error -/

/-- Steps d and e of phase 1 write a line or are refused (43_rx_encode.md R180). -/
theorem p1Encode_ne_fault (s : State) (g : CanFrame) (r : Fault) : s.p1Encode g ≠ .fault r := by
  unfold State.p1Encode
  split
  · nofun
  · next i hi =>
    rw [exec_rxInstr g i hi, State.encodeRx]
    split <;> nofun

/-- One iteration of `ReadLine` takes a byte, ends the pass, waits or is refused (46_bridge_loop.md R244). -/
theorem p2Read_ne_fault (s : State) (r : Fault) : s.p2Read ≠ .fault r := by
  unfold State.p2Read
  split
  · split
    · nofun
    · split <;> nofun
  · nofun
  · nofun

/-- A decoded command answers with an action; a line with no decoding is refused (46_bridge_loop.md R251). -/
theorem p2Decode_ne_fault (s : State) (r : Fault) : s.p2Decode ≠ .fault r := by
  cases hdec : decode (s.chan s.seq.chan).lb with
  | error e =>
    rw [p2Decode_of_error hdec]
    nofun
  | ok i =>
    obtain ⟨a, t, hexec, -⟩ := (decode_rule _ i hdec).returnsAction s
    rw [p2Decode_eq_exec hdec, hexec]
    nofun

theorem phase1Turn_ne_fault (s : State) (d : CopyDraw) (r : Fault) : s.phase1Turn d ≠ .fault r := by
  unfold State.phase1Turn
  split
  case h_4 g _ => exact p1Encode_ne_fault s g r
  all_goals nofun

theorem phase2Turn_ne_fault (s : State) (r : Fault) : s.phase2Turn ≠ .fault r := by
  unfold State.phase2Turn
  split
  case h_1 => exact p2Read_ne_fault s r
  case h_2 => exact p2Decode_ne_fault s r
  all_goals nofun

/-- A turn faults only where the sequencer names a channel that is not configured (log 33). -/
theorem bridgeTurn_ne_fault {s : State} (hc : s.seq.chan < s.chans.length) (d : CopyDraw) (r : Fault) :
    s.bridgeTurn d ≠ .fault r := by
  unfold State.bridgeTurn
  rw [if_pos hc]
  split
  · nofun
  · exact phase1Turn_ne_fault s d r
  · exact phase2Turn_ne_fault s r

/-- While the sequencer names a configured channel, no event faults: those from outside answer a next state. -/
theorem step_ne_fault {s : State} (hc : s.seq.chan < s.chans.length) (r : Fault) : step s ≠ .fault r := by
  cases hs : s.sched with
  | nil =>
    rw [step_nil s hs]
    nofun
  | cons e rest =>
    rw [step_cons s e rest hs]
    cases e with
    | bridge d => exact bridgeTurn_ne_fault (s := { s with sched := rest }) hc d r
    | serIn | canRx | txDone | busy | tick | lineTimeout | sched | setMode => nofun

/-- Settles O51: the invariant keeps the sequencer at a configured channel. -/
theorem noFault : Obligations.NoFault := by
  unfold Obligations.NoFault
  intro s r hinv
  exact step_ne_fault hinv.inRange.1 r

end Sys2Proof.Machine
end
